-- ==== Sys2Proof/Word.lean ====
section
/-! DEFINITION. The word types of the HUFF block and their plainest arithmetic (00_scope.md R7, R9). -/

namespace Sys2Proof

/-- A register, a count, a node frequency: 32 bits, unsigned (00_scope.md R7, R9). -/
abbrev Word := BitVec 32

/-- A byte of the packed buffer PBUF, and an opcode. -/
abbrev Byte := BitVec 8

/-- A stored symbol: SYM_W = 21 bits (00_scope.md R7). -/
abbrev Sym := BitVec 21

/-- A Huffman code: a bit sequence, first bit first (00_scope.md R15). -/
abbrev Code := List Bool

/-- `0xFFFFFFFF`, written ALL1 in the spec (00_scope.md R9). -/
abbrev all1 : Word := 0xFFFFFFFF#32

/-- A natural number as a 32-bit register value. -/
abbrev word (n : Nat) : Word := BitVec.ofNat 32 n

/-- `zext_32(v)` (00_scope.md R9). -/
abbrev zext32 {n : Nat} (v : BitVec n) : Word := v.setWidth 32

end Sys2Proof
end

