-- ==== Sys2Proof/Machine/Records.lean ====
section
/-! DEFINITION. The records the block's internal buffers hold, the names of its registers and errors, and the
items of its input list: plain data, no behaviour. -/

namespace Sys2Proof.Machine

/-- One entry of the frequency table: `FT[i] = (sym : 21 bits, count : 32 bits)` (10_state.md R30). -/
structure FreqEntry where
  sym : Sym
  count : Word
  deriving DecidableEq, Repr, Inhabited

/-- One record of the node arena (10_state.md R31). Node indices are positions in the arena. -/
inductive Node where
  | leaf (sym : Sym) (freq : Word)
  | internal (freq : Word) (left right : Nat)
  deriving DecidableEq, Repr, Inhabited

/-- The named registers of the port (10_state.md R20). -/
inductive Reg where
  | id | capSyms | capBytes | ctrl | status | cmd | arg0 | arg1 | res0 | res1 | res2
  | errcode | einfo0 | einfo1 | nsym | total | bitlen | rdptr | nodes
  deriving DecidableEq, Repr

/-- What an offset of the port names: a register, a word of the PBUF window, or a reserved offset
(10_state.md R20; 20_memory.md R60, R62, R63). -/
inductive PortTarget where
  | reg (r : Reg)
  | window (m : Nat)
  | reserved
  deriving DecidableEq, Repr

/-- The error names of 60_exceptions.md R221. -/
inductive ErrName where
  | emptyAlphabet | unknownSymbol | truncatedStream
  | corruptContainer  -- reserved, never raised (R221, 93 U12)
  | illegalCommand | invalidSymbol | tableFull | duplicateSymbol | countOverflow | badIndex
  | treeNotValid | codesNotValid | badLength | bufferOverflow | readPastEnd | invalidCodeBit
  deriving DecidableEq, Repr

/-- The fields of CTRL (10_state.md R23). Bits [31:2] are reserved and read 0 (log 14). -/
structure Ctrl where
  ieDone : Bool
  ieErr : Bool
  deriving DecidableEq, Repr

/-- The fields of STATUS (10_state.md R24) but for BUSY, which R35 makes the presence of a pending command
(log 12). Bits [31:6] are reserved and read 0 (log 14). -/
structure Status where
  done : Bool
  err : Bool
  wob : Bool
  treeValid : Bool
  codesValid : Bool
  deriving DecidableEq, Repr

/-- One thing that happens at the block, in the order of the interleaving (20_memory.md R70, R71; log 1). -/
inductive Input where
  /-- the engine's turn: it performs the pending command, if there is one (10_state.md R40) -/
  | engine
  /-- a host read of `width` bytes at byte offset `off` of the port (20_memory.md R60) -/
  | read (off width : Nat)
  /-- a host write of `width` bytes at byte offset `off` of the port (20_memory.md R60) -/
  | write (off width : Nat) (v : Word)
  /-- the hardware reset is asserted (70_reset_and_hazards.md R250, R251) -/
  | assertReset
  /-- the hardware reset is released: host accesses are admitted again (70_reset_and_hazards.md R251, R252) -/
  | releaseReset
  deriving DecidableEq, Repr

/-- The MODEL's own fields: the outside world's side of the port (logs 1, 6, 7, 11). -/
structure Env where
  /-- what happens next, first item first -/
  inputs : List Input
  /-- the value the last host read returned, if any read has completed -/
  reply : Option Word
  /-- how many unspecified reads have been drawn: the argument of the next free value -/
  draws : Nat
  /-- how many hardware resets there have been: PBUF's arbitrary contents are new after each -/
  epoch : Nat
  deriving DecidableEq, Repr

end Sys2Proof.Machine
end

