-- ==== Sys2Proof/Config.lean ====
section
/-! DEFINITION. The configuration of a block (00_scope.md R7, R8), and the free values: what the spec leaves
unspecified, as constants with no body. -/

namespace Sys2Proof

/-- The implementation parameters (00_scope.md R7). State holds them, so that a statement about every state is a
statement about every configuration (log 4). BASE is an argument of `Machine.busOffset` (log 5). -/
structure Params where
  /-- SYM_CAP: the most distinct symbols one table holds -/
  symCap : Nat
  /-- PBUF_BYTES: bytes of the packed buffer -/
  pbufBytes : Nat
  deriving DecidableEq, Repr

/-- The reference configuration (00_scope.md R7). -/
def Params.reference : Params := { symCap := 256, pbufBytes := 4096 }

/-- `CAP_BITS = 8 * PBUF_BYTES` (00_scope.md R8). -/
abbrev Params.capBits (c : Params) : Nat := 8 * c.pbufBytes

/-- `NODE_CAP = 2 * SYM_CAP - 1` (00_scope.md R8). -/
def Params.nodeCap (c : Params) : Nat := 2 * c.symCap - 1

/-- `MAX_CODE_LEN = max(1, SYM_CAP - 1)` (00_scope.md R8). -/
def Params.maxCodeLen (c : Params) : Nat := max 1 (c.symCap - 1)

/-- `APERTURE = 0x1000 + PBUF_BYTES` (00_scope.md R8). -/
def Params.aperture (c : Params) : Nat := 0x1000 + c.pbufBytes

/-- Free value: what a host read that is not busy-stable returns while BUSY = 1, one fresh value for each draw
(10_state.md R36; log 7). -/
opaque Config.busyRead : Nat → Word

/-- Free value: byte `i` of PBUF as hardware reset number `epoch` leaves it (70_reset_and_hazards.md R250; log 6). -/
opaque Config.pbufByte (epoch i : Nat) : Byte

/-- Free value: a frequency-table entry at or beyond NSYM (10_state.md R30; log 8). -/
opaque Config.unwrittenEntry : Nat → Machine.FreqEntry

/-- Free value: a node record outside the current tree (10_state.md R31; log 8). -/
opaque Config.unwrittenNode : Nat → Machine.Node

/-- Free value: a code outside the current code table (10_state.md R32; log 8). -/
opaque Config.unwrittenCode : Nat → Code

end Sys2Proof
end

