-- ==== Sys2Proof/Syntax.lean ====
section
/-! DEFINITION. The commands of the HUFF block: one constructor per row of spec/opcode_table.json
(30_encoding.md R93). A command word carries no operand (R91), so no constructor has an argument. -/

namespace Sys2Proof

inductive Instr where
  | nop
  | reset
  | freqClear
  | freqCount
  | freqSet
  | freqLookup
  | freqGet
  | treeBuild
  | nodeGet
  | codeGen
  | codeGet
  | encodeSymbol
  | decodeSymbol
  | streamReset
  | putBits
  | getBits
  | setBitlen
  | seekRd
  deriving DecidableEq, Repr

end Sys2Proof
end

