-- ==== Sys2Proof/WellFormed.lean ====
section
/-! DEFINITION. Well-formedness: of instructions, of command words (30_encoding.md R90, R93), of configurations
(00_scope.md R7) and of host accesses (20_memory.md R60, R61). -/

namespace Sys2Proof

/-- Every command is well formed: a command word carries no register number and no immediate (30_encoding.md R91), so
no constructor of `Instr` has a field that could be out of range. -/
def Instr.wf (_ : Instr) : Bool := true

/-- The 18 assigned opcodes (30_encoding.md R93). -/
def assignedOpcodes : List Byte :=
  [0x00#8, 0x01#8, 0x10#8, 0x11#8, 0x12#8, 0x13#8, 0x14#8, 0x20#8, 0x21#8, 0x30#8, 0x31#8, 0x40#8, 0x41#8] ++
  [0x50#8, 0x51#8, 0x52#8, 0x53#8, 0x54#8]

/-- A legal command word: RSV = 0 and OP assigned (30_encoding.md R90, R93, R94). -/
def wfCommandWord (w : Word) : Bool :=
  w.extractLsb' 8 24 == 0#24 && assignedOpcodes.contains (w.extractLsb' 0 8)

/-- The legal ranges of the parameters (00_scope.md R7). -/
def Params.wf (c : Params) : Bool :=
  decide (1 ≤ c.symCap) && decide (c.symCap ≤ 65536) && decide (c.pbufBytes % 4 = 0) &&
  decide (4 ≤ c.pbufBytes) && decide (c.pbufBytes ≤ 2 ^ 28)

/-- BASE is aligned to the aperture size (00_scope.md R7). -/
def wfBase (c : Params) (base : Nat) : Bool := decide (base % c.aperture = 0)

/-- The port admits exactly 4-byte accesses at aligned offsets below APERTURE (20_memory.md R60, R61). -/
def admitted (c : Params) (off width : Nat) : Bool :=
  width == 4 && decide (off % 4 = 0) && decide (off < c.aperture)

end Sys2Proof
end

