-- ==== Sys2Proof/Decode.lean ====
section
/-! DEFINITION. The command word (30_encoding.md R90-R94): the decoder, total on every 32-bit word and rejecting by
name, and the encoder, both read from the opcode map R93. -/

namespace Sys2Proof

/-- Why a word is no command (30_encoding.md R94). Both fail with ILLEGAL_COMMAND. -/
inductive DecodeError where
  /-- RSV, bits [31:8], is not 0 -/
  | reservedBits
  /-- OP is none of the 18 values of R93 -/
  | unassignedOpcode
  deriving DecidableEq, Repr

/-- OP, bits [7:0] of a command word (30_encoding.md R90). -/
def opField (w : Word) : Byte := w.extractLsb' 0 8

/-- RSV, bits [31:8] of a command word (30_encoding.md R90). -/
def rsvField (w : Word) : BitVec 24 := w.extractLsb' 8 24

/-- The opcode of a command (30_encoding.md R93, columns mnemonic and OP). -/
def Instr.opcode : Instr → Byte
  | .nop => 0x00#8
  | .reset => 0x01#8
  | .freqClear => 0x10#8
  | .freqCount => 0x11#8
  | .freqSet => 0x12#8
  | .freqLookup => 0x13#8
  | .freqGet => 0x14#8
  | .treeBuild => 0x20#8
  | .nodeGet => 0x21#8
  | .codeGen => 0x30#8
  | .codeGet => 0x31#8
  | .encodeSymbol => 0x40#8
  | .decodeSymbol => 0x41#8
  | .streamReset => 0x50#8
  | .putBits => 0x51#8
  | .getBits => 0x52#8
  | .setBitlen => 0x53#8
  | .seekRd => 0x54#8

/-- One row of spec/opcode_table.json: a word is this command exactly when `word AND mask = pattern`. -/
structure OpcodeRow where
  mask : Word
  pattern : Word
  instr : Instr
  deriving DecidableEq, Repr

/-- A word matches a row. -/
def OpcodeRow.matches (r : OpcodeRow) (w : Word) : Bool := w &&& r.mask == r.pattern

/-- spec/opcode_table.json, units 0 to 2: every row's mask is 0xFFFFFFFF. -/
def opcodeRowsLow : List OpcodeRow :=
  [ ⟨0xFFFFFFFF#32, 0x00000000#32, .nop⟩,
    ⟨0xFFFFFFFF#32, 0x00000001#32, .reset⟩,
    ⟨0xFFFFFFFF#32, 0x00000010#32, .freqClear⟩,
    ⟨0xFFFFFFFF#32, 0x00000011#32, .freqCount⟩,
    ⟨0xFFFFFFFF#32, 0x00000012#32, .freqSet⟩,
    ⟨0xFFFFFFFF#32, 0x00000013#32, .freqLookup⟩,
    ⟨0xFFFFFFFF#32, 0x00000014#32, .freqGet⟩,
    ⟨0xFFFFFFFF#32, 0x00000020#32, .treeBuild⟩,
    ⟨0xFFFFFFFF#32, 0x00000021#32, .nodeGet⟩ ]

/-- spec/opcode_table.json, units 3 to 5. -/
def opcodeRowsHigh : List OpcodeRow :=
  [ ⟨0xFFFFFFFF#32, 0x00000030#32, .codeGen⟩,
    ⟨0xFFFFFFFF#32, 0x00000031#32, .codeGet⟩,
    ⟨0xFFFFFFFF#32, 0x00000040#32, .encodeSymbol⟩,
    ⟨0xFFFFFFFF#32, 0x00000041#32, .decodeSymbol⟩,
    ⟨0xFFFFFFFF#32, 0x00000050#32, .streamReset⟩,
    ⟨0xFFFFFFFF#32, 0x00000051#32, .putBits⟩,
    ⟨0xFFFFFFFF#32, 0x00000052#32, .getBits⟩,
    ⟨0xFFFFFFFF#32, 0x00000053#32, .setBitlen⟩,
    ⟨0xFFFFFFFF#32, 0x00000054#32, .seekRd⟩ ]

/-- spec/opcode_table.json. -/
def opcodeRows : List OpcodeRow := opcodeRowsLow ++ opcodeRowsHigh

/-- `perform(w)`'s selection (30_encoding.md R92): the command a word stands for, or why it is illegal. RSV is
looked at first. -/
def decode (w : Word) : Except DecodeError Instr :=
  if rsvField w = 0#24 then
    match opcodeRows.find? (fun r => r.matches w) with
    | some r => .ok r.instr
    | none => .error .unassignedOpcode
  else .error .reservedBits

/-- The command word of a command: RSV = 0 above OP (30_encoding.md R90, R93). -/
def encode (i : Instr) : Word := 0#24 ++ i.opcode

/-- The bits `w` of an `nbits`-bit instruction as one 32-bit command word; none if a bit above 31 is set, since every
command is one word long (30_encoding.md R90; log 21). -/
def tableWord (nbits w : Nat) : Option Word :=
  let v := w % 2 ^ nbits
  if v < 2 ^ 32 then some (BitVec.ofNat 32 v) else none

/-- The command the decoder reads from an instruction whose bits are `w` (log 21). -/
def decodeTableWord (nbits w : Nat) : Option Instr :=
  match tableWord nbits w with
  | none => none
  | some v =>
    match decode v with
    | .ok i => some i
    | .error _ => none

end Sys2Proof
end

