-- ==== Sys2Proof/Machine/State.lean ====
section
/-! DEFINITION. The state of the HUFF block (10_state.md R20-R35), the reasons a step can stop, and the state
right after a hardware reset (70_reset_and_hazards.md R250). -/

namespace Sys2Proof.Machine

/-- The bytes of PBUF written since the last hardware reset, as (index, byte) pairs with strictly rising indices. A
byte not listed holds no value of the model's: reading it gives the free value `Config.pbufByte` (log 6). -/
abbrev Memory := List Host.Cell

/-- The canonical form of a memory: strictly rising indices. -/
abbrev Memory.wf (m : Memory) : Prop := m.Pairwise (fun a b => a.1 < b.1)

/-- Why the host is stuck: the spec gives the access no step. -/
inductive Fault where
  /-- Raised by a host read or write that is misaligned, not 4 bytes wide, or at an offset at or beyond APERTURE
  (20_memory.md R61: "The model gives such an access no step: the host is stuck"; log 9). Safe. -/
  | accessNotAdmitted
  /-- Raised by a host read or write between assertion and release of the hardware reset (70_reset_and_hazards.md
  R251: "not admitted, so the host has no step until reset ends"; log 10). Safe. -/
  | accessDuringReset
  deriving DecidableEq, Repr

/-- Why an instruction has no meaning here. -/
inductive Refusal where
  /-- Answered by an arm of `exec` whose instruction has no meaning yet; no arm is left that does. Safe. -/
  | notModelled (mnemonic : String)
  deriving DecidableEq, Repr

/-- The whole state. BUSY is `pending.isSome`, NSYM is `ft.length`, NODES is `nodes.length` (log 12). -/
structure State where
  /-- CAP_SYMS and CAP_BYTES: the configuration (10_state.md R22; log 4) -/
  cfg : Params
  /-- CTRL (10_state.md R23) -/
  ctrl : Ctrl
  /-- STATUS but for BUSY (10_state.md R24) -/
  status : Status
  /-- ARG0, ARG1 (10_state.md R28) -/
  arg0 : Word
  arg1 : Word
  /-- RES0, RES1, RES2 (10_state.md R25) -/
  res0 : Word
  res1 : Word
  res2 : Word
  /-- ERRCODE, EINFO0, EINFO1 (10_state.md R26) -/
  errcode : Word
  einfo0 : Word
  einfo1 : Word
  /-- FT[0 .. NSYM-1], in insertion order (10_state.md R30; log 8) -/
  ft : List FreqEntry
  /-- TOTAL (10_state.md R27, R30) -/
  total : Word
  /-- NODE[0 .. NODES-1] (10_state.md R31; log 8) -/
  nodes : List Node
  /-- CODE[0 .. NSYM-1] (10_state.md R32; log 8) -/
  codes : List Code
  /-- PBUF (10_state.md R33; log 6) -/
  pbuf : Memory
  /-- BITLEN, the write bit pointer (10_state.md R33; log 13) -/
  bitlen : Nat
  /-- RDPTR, the read bit pointer (10_state.md R33; log 13) -/
  rdptr : Nat
  /-- the accepted command word that is not yet performed (10_state.md R35) -/
  pending : Option Word
  /-- the hardware reset is asserted (70_reset_and_hazards.md R251; logs 10, 11) -/
  resetHeld : Bool
  /-- the model's own fields (log 11) -/
  env : Env
  deriving DecidableEq, Repr

/-- The reset state of 70_reset_and_hazards.md R250 for a configuration: every register 0, table, tree, codes and
stream empty, no command pending, PBUF not written. -/
def State.atReset (c : Params) (e : Env) : State :=
  { cfg := c,
    ctrl := { ieDone := false, ieErr := false },
    status := { done := false, err := false, wob := false, treeValid := false, codesValid := false },
    arg0 := 0#32, arg1 := 0#32,
    res0 := 0#32, res1 := 0#32, res2 := 0#32,
    errcode := 0#32, einfo0 := 0#32, einfo1 := 0#32,
    ft := [], total := 0#32, nodes := [], codes := [],
    pbuf := [], bitlen := 0, rdptr := 0,
    pending := none, resetHeld := false, env := e }

/-- The machine right after a hardware reset, in the reference configuration (70_reset_and_hazards.md R250; logs 4,
11). -/
def State.reset : State :=
  State.atReset Params.reference { inputs := [], reply := none, draws := 0, epoch := 0 }

end Sys2Proof.Machine
end

