-- ==== Sys2Proof/Machine/Flags.lean ====
section
/-! DEFINITION. STATUS, CTRL and the IRQ output: their 32-bit views, the write-1-to-clear rule, and how commands and
their ends change the flags (10_state.md R23, R24, R34, R40; 60_exceptions.md R226, R230). -/

namespace Sys2Proof.Machine

/-- A flag at bit `k` of a register. -/
def flagBit (k : Nat) (b : Bool) : Word := if b then 1#32 <<< k else 0#32

/-- STATUS.BUSY: a command is pending (10_state.md R35; log 12). -/
def State.busy (s : State) : Bool := s.pending.isSome

/-- STATUS as the host reads it (10_state.md R24); bits [31:6] read 0. -/
def State.statusWord (s : State) : Word :=
  flagBit 0 s.busy ||| flagBit 1 s.status.done ||| flagBit 2 s.status.err ||| flagBit 3 s.status.wob |||
  flagBit 4 s.status.treeValid ||| flagBit 5 s.status.codesValid

/-- CTRL as the host reads it (10_state.md R23); bits [31:2] read 0. -/
def State.ctrlWord (s : State) : Word := flagBit 0 s.ctrl.ieDone ||| flagBit 1 s.ctrl.ieErr

/-- A host write to CTRL: `CTRL.IE_DONE <- v[0]; CTRL.IE_ERR <- v[1]` (10_state.md R38). -/
def State.writeCtrl (s : State) (v : Word) : State :=
  { s with ctrl := { ieDone := v.getLsbD 0, ieErr := v.getLsbD 1 } }

/-- Error clear, the analogue of the return from an exception:
`STATUS.ERR <- 0; ERRCODE <- 0; EINFO0 <- 0; EINFO1 <- 0` (60_exceptions.md R226). -/
def State.clearError (s : State) : State :=
  { s with status := { s.status with err := false }, errcode := 0#32, einfo0 := 0#32, einfo1 := 0#32 }

/-- The W1C write of DONE and WOB (10_state.md R24): writing 1 clears, writing 0 leaves. -/
def State.clearDoneWob (s : State) (v : Word) : State :=
  { s with status := { s.status with done := s.status.done && !v.getLsbD 1, wob := s.status.wob && !v.getLsbD 3 } }

/-- A host write to STATUS applies the three W1C fields at once; its other bits have no effect (10_state.md R24;
60_exceptions.md R226). -/
def State.writeStatus (s : State) (v : Word) : State :=
  if v.getLsbD 2 then (s.clearDoneWob v).clearError else s.clearDoneWob v

/-- `Invalidate()`: `STATUS.TREE_VALID <- 0; STATUS.CODES_VALID <- 0; NODES <- 0` (10_state.md R34; log 12). -/
def State.invalidate (s : State) : State :=
  { s with status := { s.status with treeValid := false, codesValid := false }, nodes := [] }

/-- Every command end, success, failure or rejection: `pending <- none; STATUS.BUSY <- 0; STATUS.DONE <- 1`
(10_state.md R40). -/
def State.endCommand (s : State) : State :=
  { s with pending := none, status := { s.status with done := true } }

/-- Command acceptance: `pending <- w; STATUS.BUSY <- 1; STATUS.DONE <- 0` (10_state.md R41). -/
def State.acceptCommand (s : State) (w : Word) : State :=
  { s with pending := some w, status := { s.status with done := false } }

/-- A host write dropped because BUSY = 1: `STATUS.WOB <- 1` and nothing else (10_state.md R37). -/
def State.dropWrite (s : State) : State :=
  { s with status := { s.status with wob := true } }

/-- The IRQ output (60_exceptions.md R230; log 16). -/
def State.irq (s : State) : Bool :=
  (s.ctrl.ieDone && s.status.done) || (s.ctrl.ieErr && s.status.err)

end Sys2Proof.Machine
end

