-- ==== Sys2Proof/Machine/Operands.lean ====
section
/-! DEFINITION. The operand forms (30_encoding.md R91): every operand is ARG0 or ARG1, read as a whole 32-bit unsigned
value, never extended, scaled or shifted. -/

namespace Sys2Proof.Machine

/-- ARG0 read as a symbol: all 32 bits. -/
abbrev State.symbolOperand (s : State) : Word := s.arg0

/-- ARG1 read as a count (FREQ_SET). -/
abbrev State.countOperand (s : State) : Word := s.arg1

/-- ARG0 read as an entry index (FREQ_GET) or a node index (NODE_GET). -/
abbrev State.indexOperand (s : State) : Nat := s.arg0.toNat

/-- ARG1 read as a word index (CODE_GET). -/
abbrev State.wordIndexOperand (s : State) : Nat := s.arg1.toNat

/-- ARG0 read as a bit value (PUT_BITS). -/
abbrev State.bitValueOperand (s : State) : Word := s.arg0

/-- ARG1 read as a bit count (PUT_BITS, GET_BITS). -/
abbrev State.bitCountOperand (s : State) : Nat := s.arg1.toNat

/-- ARG0 read as a bit length (SET_BITLEN) or a bit position (SEEK_RD). -/
abbrev State.bitPositionOperand (s : State) : Nat := s.arg0.toNat

/-- `IsScalar(v)`: v is a Unicode scalar value (41_frequency.md R125). -/
def isScalar (v : Word) : Bool :=
  decide (v.toNat ≤ 0x10FFFF) && !(decide (0xD800 ≤ v.toNat) && decide (v.toNat ≤ 0xDFFF))

end Sys2Proof.Machine
end

