-- ==== Sys2Proof/Machine/Ops.lean ====
section
/-! DEFINITION. The shared operations of the engine: PBUF and its stream bits (20_memory.md R64-R67), the frequency
table, arena and code table reads (41_frequency.md R126; 44_codec.md R180), taking an error and ending a command
(00_scope.md R12, R13; 10_state.md R40; 60_exceptions.md R220-R224). -/

namespace Sys2Proof.Machine

/-- What one step answers. -/
abbrev StepResult := Host.Outcome State Fault Refusal

/-! ## PBUF -/

/-- The byte a memory lists at an index. -/
def Memory.byteAt : Memory → Nat → Option Byte
  | [], _ => none
  | (a, v) :: m, i => if a = i then some v else Memory.byteAt m i

/-- A memory with one byte stored. -/
def Memory.store : Memory → Nat → Byte → Memory
  | [], i, v => [(i, v)]
  | (a, w) :: m, i, v =>
    if i < a then (i, v) :: (a, w) :: m
    else if i = a then (i, v) :: m
    else (a, w) :: Memory.store m i v

/-- `PBUF[i]`: the byte last written, or the arbitrary byte the hardware reset left (00_scope.md R11;
70_reset_and_hazards.md R250; log 6). -/
def State.readByte (s : State) (i : Nat) : Byte :=
  (Memory.byteAt s.pbuf i).getD (Config.pbufByte s.env.epoch i)

/-- `PBUF[i] <- v`. -/
def State.writeByte (s : State) (i : Nat) (v : Byte) : State :=
  { s with pbuf := Memory.store s.pbuf i v }

/-- The window word m: the byte at the lower index in the less-significant bits (20_memory.md R63, R65). -/
def State.windowWord (s : State) (m : Nat) : Word :=
  s.readByte (4 * m + 3) ++ s.readByte (4 * m + 2) ++ s.readByte (4 * m + 1) ++ s.readByte (4 * m)

/-- A host write of window word m (20_memory.md R63). -/
def State.writeWindow (s : State) (m : Nat) (v : Word) : State :=
  (((s.writeByte (4 * m) (v.extractLsb' 0 8)).writeByte (4 * m + 1) (v.extractLsb' 8 8)).writeByte
    (4 * m + 2) (v.extractLsb' 16 8)).writeByte (4 * m + 3) (v.extractLsb' 24 8)

/-! ## The stream -/

/-- `PADLEN = 8 * ceil(n / 8)` for a stream of n bits (20_memory.md R67). -/
abbrev padLen (n : Nat) : Nat := 8 * ((n + 7) / 8)

/-- `StreamBit(p) = PBUF[p div 8][7 - (p mod 8)]` (20_memory.md R64; 90_conflicts.md C1). -/
def State.streamBit (s : State) (p : Nat) : Bool := (s.readByte (p / 8)).getLsbD (7 - p % 8)

/-- A byte with bit k set to b. -/
def setBit (x : Byte) (k : Nat) (b : Bool) : Byte :=
  if b then x ||| (1#8 <<< k) else x &&& ~~~(1#8 <<< k)

/-- `StreamAppend(b)`: a byte is cleared when the stream enters it (20_memory.md R66). -/
def State.streamAppend (s : State) (b : Bool) : State :=
  let p := s.bitlen
  let old := if p % 8 = 0 then 0#8 else s.readByte (p / 8)
  { s.writeByte (p / 8) (setBit old (7 - p % 8) b) with bitlen := p + 1 }

/-- StreamAppend of each bit in turn. -/
def State.streamAppendAll (s : State) (bits : List Bool) : State := bits.foldl State.streamAppend s

/-- A bit sequence as a number, its first bit the most significant: `v <- 2*v + bit` (45_bitpack.md R202). -/
def bitsToNat (bits : List Bool) : Nat := bits.foldl (fun v b => 2 * v + b.toNat) 0

/-- The n low bits of v, most significant first (45_bitpack.md R201). -/
def lowBits (v : Word) (n : Nat) : List Bool := (List.range n).map (fun j => v.getLsbD (n - 1 - j))

/-- The n stream bits from position p on, in order. -/
def State.streamBits (s : State) (p n : Nat) : List Bool := (List.range n).map (fun j => s.streamBit (p + j))

/-! ## Frequency table, arena, code table -/

/-- `FT[i]` (log 8 for an index at or beyond NSYM). -/
def State.entryAt (s : State) (i : Nat) : FreqEntry := (s.ft[i]?).getD (Config.unwrittenEntry i)

/-- `NODE[j]` of an arena (log 8 for an index outside it). -/
def nodeAt (nodes : List Node) (j : Nat) : Node := (nodes[j]?).getD (Config.unwrittenNode j)

/-- `CODE[k]` (log 8 for an index outside the code table). -/
def State.codeAt (s : State) (k : Nat) : Code := (s.codes[k]?).getD (Config.unwrittenCode k)

/-- `NODE[j].freq`. -/
def Node.freq : Node → Word
  | .leaf _ f => f
  | .internal f _ _ => f

/-- The node is a leaf whose symbol, zero-extended, is v. -/
def Node.holds (v : Word) : Node → Bool
  | .leaf sym _ => zext32 sym == v
  | .internal _ _ _ => false

/-- `Find(v)`: the index of the valid entry whose symbol is v, all 32 bits compared (41_frequency.md R126). -/
def State.findSymbol (s : State) (v : Word) : Option Nat := s.ft.findIdx? (fun e => zext32 e.sym == v)

/-- `LeafOf(v)`: the leaf index below NSYM whose symbol is v (44_codec.md R180). -/
def State.leafOf (s : State) (v : Word) : Option Nat := (s.nodes.take s.ft.length).findIdx? (Node.holds v)

/-! ## Ending a command: success, failure, rejection -/

/-- How a command's rule ends (00_scope.md R12, R13). -/
inductive CmdResult where
  /-- `return (r0, r1, r2)` in the state the command has made -/
  | ok (s : State) (r0 r1 r2 : Word)
  /-- `raise name(info0, info1)`; the state the command had made is discarded -/
  | raise (name : ErrName) (info0 info1 : Word)

/-- The error codes (60_exceptions.md R221). -/
def ErrName.code : ErrName → Byte
  | .emptyAlphabet => 0x01#8
  | .unknownSymbol => 0x02#8
  | .truncatedStream => 0x03#8
  | .corruptContainer => 0x04#8
  | .illegalCommand => 0x10#8
  | .invalidSymbol => 0x11#8
  | .tableFull => 0x12#8
  | .duplicateSymbol => 0x13#8
  | .countOverflow => 0x14#8
  | .badIndex => 0x15#8
  | .treeNotValid => 0x16#8
  | .codesNotValid => 0x17#8
  | .badLength => 0x18#8
  | .bufferOverflow => 0x19#8
  | .readPastEnd => 0x1A#8
  | .invalidCodeBit => 0x1B#8

/-- ERRCODE: CODE in [7:0], OPC in [15:8] (10_state.md R26; 60_exceptions.md R223). -/
def errcodeWord (opc : Byte) (name : ErrName) : Word := 0#16 ++ opc ++ name.code

/-- Taking an error, the analogue of exception entry: ERR, ERRCODE, EINFO0 and EINFO1 are written over the state before
the command (60_exceptions.md R223). -/
def State.capture (s : State) (name : ErrName) (opc : Byte) (info0 info1 : Word) : State :=
  { s with
    status := { s.status with err := true }
    errcode := errcodeWord opc name
    einfo0 := info0
    einfo1 := info1 }

/-- `RES0 <- r0; RES1 <- r1; RES2 <- r2`, a successful command's last act (00_scope.md R13). -/
def State.writeResults (s : State) (r0 r1 r2 : Word) : State := { s with res0 := r0, res1 := r1, res2 := r2 }

/-- The state a performed command leaves, before BUSY and DONE change: its own with the results written, or the
state before it with the error captured (10_state.md R40). -/
def settle (opc : Byte) (s : State) : CmdResult → State
  | .ok t r0 r1 r2 => t.writeResults r0 r1 r2
  | .raise name info0 info1 => s.capture name opc info0 info1

/-- The engine step of a command word with opcode field `opc`: rejected while ERR = 1, otherwise performed and settled;
then BUSY and DONE change (10_state.md R40; 60_exceptions.md R224). RESET does not come this way. -/
def runCommand (opc : Byte) (rule : State → CmdResult) (s : State) : StepResult :=
  if s.status.err then .next s.endCommand
  else .next (settle opc s (rule s)).endCommand

/-- A word that is no command: ILLEGAL_COMMAND with the whole word as EINFO0 (30_encoding.md R92, R94). -/
def execIllegal (w : Word) (s : State) : StepResult :=
  runCommand (opField w) (fun _ => .raise .illegalCommand w 0#32) s

/-- The RESET command's effect: the reset state, but PBUF keeps its contents (40_control.md R111; log 19). -/
def State.softReset (s : State) : State :=
  { State.atReset s.cfg s.env with pbuf := s.pbuf, resetHeld := s.resetHeld }

/-- A hardware reset is asserted: the reset state, with every byte of PBUF a new arbitrary one and any pending command
abandoned (70_reset_and_hazards.md R250, R251; logs 6, 10). -/
def State.hardReset (s : State) : State :=
  { State.atReset s.cfg { s.env with epoch := s.env.epoch + 1 } with resetHeld := true }

end Sys2Proof.Machine
end

