-- ==== Sys2Proof/Machine/BitPack.lean ====
section
/-! DEFINITION. The bit packer and unpacker (45_bitpack.md). -/

namespace Sys2Proof.Machine

/-- STREAM_RESET (45_bitpack.md R200). -/
def streamResetRule (s : State) : CmdResult := .ok { s with bitlen := 0, rdptr := 0 } 0#32 0#32 0#32

def execStreamReset (s : State) : StepResult := runCommand Instr.streamReset.opcode streamResetRule s

/-- PUT_BITS (45_bitpack.md R201). -/
def putBitsRule (s : State) : CmdResult :=
  let n := s.bitCountOperand
  if n > 32 then .raise .badLength s.arg1 32#32
  else if s.bitlen + n > s.cfg.capBits then .raise .bufferOverflow (word s.bitlen) s.arg1
  else
    let t := s.streamAppendAll (lowBits s.bitValueOperand n)
    .ok t (word t.bitlen) 0#32 0#32

def execPutBits (s : State) : StepResult := runCommand Instr.putBits.opcode putBitsRule s

/-- GET_BITS: the readable range is the packed bytes, padding included (45_bitpack.md R202). -/
def getBitsRule (s : State) : CmdResult :=
  let n := s.bitCountOperand
  if n > 32 then .raise .badLength s.arg1 32#32
  else if s.rdptr + n > padLen s.bitlen then .raise .readPastEnd (word s.rdptr) s.arg1
  else
    .ok { s with rdptr := s.rdptr + n } (word (bitsToNat (s.streamBits s.rdptr n))) (word (s.rdptr + n)) 0#32

def execGetBits (s : State) : StepResult := runCommand Instr.getBits.opcode getBitsRule s

/-- `PBUF[n div 8] AND NOT (2^(8 - n mod 8) - 1)` (45_bitpack.md R203). -/
def zeroPadding (x : Byte) (n : Nat) : Byte := x &&& ~~~(BitVec.ofNat 8 (2 ^ (8 - n % 8) - 1))

/-- SET_BITLEN (45_bitpack.md R203). -/
def setBitlenRule (s : State) : CmdResult :=
  let n := s.bitPositionOperand
  if n > s.cfg.capBits then .raise .badLength s.arg0 (word s.cfg.capBits)
  else
    let t := if n % 8 = 0 then s else s.writeByte (n / 8) (zeroPadding (s.readByte (n / 8)) n)
    .ok { t with bitlen := n, rdptr := 0 } s.arg0 (word ((n + 7) / 8)) 0#32

def execSetBitlen (s : State) : StepResult := runCommand Instr.setBitlen.opcode setBitlenRule s

/-- SEEK_RD (45_bitpack.md R204). -/
def seekRdRule (s : State) : CmdResult :=
  let r := s.bitPositionOperand
  if r > s.bitlen then .raise .badLength s.arg0 (word s.bitlen)
  else .ok { s with rdptr := r } s.arg0 0#32 0#32

def execSeekRd (s : State) : StepResult := runCommand Instr.seekRd.opcode seekRdRule s

end Sys2Proof.Machine
end

