-- ==== Sys2Proof/Machine/Codec.lean ====
section
/-! DEFINITION. The symbol encoder and the tree-walk decoder (44_codec.md). -/

namespace Sys2Proof.Machine

/-- ENCODE_SYMBOL (44_codec.md R181). -/
def encodeSymbolRule (s : State) : CmdResult :=
  if !s.status.codesValid then .raise .codesNotValid 0#32 0#32
  else
    match s.leafOf s.symbolOperand with
    | none => .raise .unknownSymbol s.arg0 0#32
    | some k =>
      let c := s.codeAt k
      if s.bitlen + c.length > s.cfg.capBits then .raise .bufferOverflow (word s.bitlen) (word c.length)
      else
        let t := s.streamAppendAll c
        .ok t (word c.length) (word t.bitlen) (word k)

def execEncodeSymbol (s : State) : StepResult := runCommand Instr.encodeSymbol.opcode encodeSymbolRule s

/-- How a tree walk ends. -/
inductive WalkEnd where
  /-- at a leaf, with the next bit position -/
  | atLeaf (sym : Sym) (p : Nat)
  /-- at the end of the stream, off a leaf -/
  | exhausted (p : Nat)
  deriving DecidableEq, Repr

/-- The walk from an internal node with children `left` and `right`, at bit position p with `remaining` stream bits
before BITLEN: bit 0 goes left, bit 1 goes right, until a leaf or the end of the stream (44_codec.md R185). -/
def State.walk (s : State) : Nat → Nat → Nat → Nat → WalkEnd
  | 0, _, _, p => .exhausted p
  | remaining + 1, left, right, p =>
    match nodeAt s.nodes (if s.streamBit p then right else left) with
    | .leaf sym _ => .atLeaf sym (p + 1)
    | .internal _ left' right' => s.walk remaining left' right' (p + 1)

/-- DECODE_SYMBOL (44_codec.md R185). EOS, RDPTR at or past BITLEN, is a success. -/
def decodeSymbolRule (s : State) : CmdResult :=
  let r0 := s.rdptr
  if !s.status.treeValid then .raise .treeNotValid 0#32 0#32
  else if r0 ≥ s.bitlen then .ok s 0#32 0#32 1#32
  else
    match nodeAt s.nodes (s.nodes.length - 1) with
    | .leaf sym _ =>
      if s.streamBit r0 then .raise .invalidCodeBit (word r0) 1#32
      else .ok { s with rdptr := r0 + 1 } (zext32 sym) 1#32 0#32
    | .internal _ left right =>
      match s.walk (s.bitlen - r0) left right r0 with
      | .atLeaf sym p => .ok { s with rdptr := p } (zext32 sym) (word (p - r0)) 0#32
      | .exhausted p => .raise .truncatedStream (word r0) (word (p - r0))

def execDecodeSymbol (s : State) : StepResult := runCommand Instr.decodeSymbol.opcode decodeSymbolRule s

end Sys2Proof.Machine
end

