-- ==== Sys2Proof/Machine/Codes.lean ====
section
/-! DEFINITION. The code-table generator (43_codes.md). -/

namespace Sys2Proof.Machine

/-- The path from node j down to node k, 0 for left and 1 for right, first bit first, found within `depth` levels
(43_codes.md R160; log 20). -/
def pathFrom (nodes : List Node) : Nat → Nat → Nat → Option Code
  | 0, _, _ => none
  | depth + 1, j, k =>
    if j = k then some []
    else
      match nodeAt nodes j with
      | .leaf _ _ => none
      | .internal _ left right =>
        match pathFrom nodes depth left k with
        | some p => some (false :: p)
        | none => (pathFrom nodes depth right k).map (true :: ·)

/-- `Path(k)`: the path from the root NODE[NODES-1] to NODE[k] (43_codes.md R160). An arena that holds no such path is
no valid tree, and its code is a free value (log 8). -/
def pathCode (nodes : List Node) (k : Nat) : Code :=
  (pathFrom nodes nodes.length (nodes.length - 1) k).getD (Config.unwrittenCode k)

/-- CODE[0 .. n-1] of a tree: the 1-bit code "0" for a single leaf, else each leaf's path (43_codes.md R161). -/
def deriveCodes (nodes : List Node) (n : Nat) : List Code :=
  if nodes.length = 1 then [[false]] else (List.range n).map (pathCode nodes)

/-- The longest code length. -/
def longestCode (codes : List Code) : Nat := codes.foldl (fun m c => max m c.length) 0

/-- CODE_GEN (43_codes.md R161). -/
def codeGenRule (s : State) : CmdResult :=
  if !s.status.treeValid then .raise .treeNotValid 0#32 0#32
  else
    let codes := deriveCodes s.nodes s.ft.length
    .ok { s with codes := codes, status := { s.status with codesValid := true } }
      (word s.ft.length) (word (longestCode codes)) 0#32

def execCodeGen (s : State) : StepResult := runCommand Instr.codeGen.opcode codeGenRule s

/-- Word w of a code: bit 31 - j is code bit 32*w + j, and 0 past the end of the code (43_codes.md R163). -/
def codeWord (c : Code) (w : Nat) : Word :=
  word (bitsToNat ((List.range 32).map (fun j => c.getD (32 * w + j) false)))

/-- CODE_GET (43_codes.md R163). -/
def codeGetRule (s : State) : CmdResult :=
  if !s.status.codesValid then .raise .codesNotValid 0#32 0#32
  else
    match s.leafOf s.symbolOperand with
    | none => .raise .unknownSymbol s.arg0 0#32
    | some k =>
      let c := s.codeAt k
      .ok s (word c.length) (codeWord c s.wordIndexOperand) (word k)

def execCodeGet (s : State) : StepResult := runCommand Instr.codeGet.opcode codeGetRule s

end Sys2Proof.Machine
end

