-- ==== Sys2Proof/Machine/Control.lean ====
section
/-! DEFINITION. The control commands NOP and RESET (40_control.md). -/

namespace Sys2Proof.Machine

/-- NOP (40_control.md R110). -/
def nopRule (s : State) : CmdResult := .ok s 0#32 0#32 0#32

def execNop (s : State) : StepResult := runCommand Instr.nop.opcode nopRule s

/-- RESET: the only command performed while ERR = 1; it cannot fail (40_control.md R111; 60_exceptions.md R224). -/
def execReset (s : State) : StepResult := .next s.softReset.endCommand

end Sys2Proof.Machine
end

