-- ==== Sys2Proof/Machine/Frequency.lean ====
section
/-! DEFINITION. The frequency-table buffer and lookup (41_frequency.md). -/

namespace Sys2Proof.Machine

/-- `FT[i].count <- FT[i].count + 1` (log 13). -/
def countUp (ft : List FreqEntry) (i : Nat) : List FreqEntry :=
  ft.modify i (fun e => { e with count := e.count + 1#32 })

/-- The entry a new symbol gets: its low 21 bits and a count (41_frequency.md R121, R122). -/
def newEntry (s : Word) (c : Word) : FreqEntry := { sym := s.extractLsb' 0 21, count := c }

/-- FREQ_CLEAR (41_frequency.md R120). -/
def freqClearRule (s : State) : CmdResult :=
  .ok ({ s with ft := [], total := 0#32 } : State).invalidate 0#32 0#32 0#32

def execFreqClear (s : State) : StepResult := runCommand Instr.freqClear.opcode freqClearRule s

/-- The success of FREQ_COUNT on the table `ft` in which entry i stands for the symbol: count it, TOTAL + 1, invalidate
(41_frequency.md R121). -/
def State.countEntry (s : State) (ft : List FreqEntry) (i : Nat) : CmdResult :=
  let t : State := ({ s with ft := countUp ft i, total := s.total + 1#32 } : State).invalidate
  .ok t (t.entryAt i).count (word i) t.total

/-- FREQ_COUNT (41_frequency.md R121): checks 1 to 3 in order. -/
def freqCountRule (s : State) : CmdResult :=
  let sym := s.symbolOperand
  let found := s.findSymbol sym
  if !isScalar sym then .raise .invalidSymbol sym 0#32
  else if found = none ∧ s.ft.length = s.cfg.symCap then .raise .tableFull sym (word s.cfg.symCap)
  else if s.total = all1 then .raise .countOverflow s.total 1#32
  else
    match found with
    | some i => s.countEntry s.ft i
    | none => s.countEntry (s.ft ++ [newEntry sym 0#32]) s.ft.length

def execFreqCount (s : State) : StepResult := runCommand Instr.freqCount.opcode freqCountRule s

/-- FREQ_SET (41_frequency.md R122): checks 1 to 4 in order; TOTAL + c is compared as an unbounded number (R9). -/
def freqSetRule (s : State) : CmdResult :=
  let sym := s.symbolOperand
  let c := s.countOperand
  if !isScalar sym then .raise .invalidSymbol sym 0#32
  else
    match s.findSymbol sym with
    | some i => .raise .duplicateSymbol sym (word i)
    | none =>
      if s.ft.length = s.cfg.symCap then .raise .tableFull sym (word s.cfg.symCap)
      else if s.total.toNat + c.toNat > 0xFFFFFFFF then .raise .countOverflow s.total c
      else
        let t : State := ({ s with ft := s.ft ++ [newEntry sym c], total := s.total + c } : State).invalidate
        .ok t c (word s.ft.length) t.total

def execFreqSet (s : State) : StepResult := runCommand Instr.freqSet.opcode freqSetRule s

/-- FREQ_LOOKUP: never fails; RES2 tells "found" (41_frequency.md R123). -/
def freqLookupRule (s : State) : CmdResult :=
  match s.findSymbol s.symbolOperand with
  | none => .ok s 0#32 all1 0#32
  | some i => .ok s (s.entryAt i).count (word i) 1#32

def execFreqLookup (s : State) : StepResult := runCommand Instr.freqLookup.opcode freqLookupRule s

/-- FREQ_GET (41_frequency.md R124). -/
def freqGetRule (s : State) : CmdResult :=
  let i := s.indexOperand
  if i ≥ s.ft.length then .raise .badIndex s.arg0 (word s.ft.length)
  else .ok s (zext32 (s.entryAt i).sym) (s.entryAt i).count 0#32

def execFreqGet (s : State) : StepResult := runCommand Instr.freqGet.opcode freqGetRule s

end Sys2Proof.Machine
end

