-- ==== Sys2Proof/Machine/Tree.lean ====
section
/-! DEFINITION. The Huffman tree builder (42_tree.md). -/

namespace Sys2Proof.Machine

/-! ## Leaves in ascending order of symbol value (R140) -/

/-- Insert an entry into a list sorted by ascending symbol. -/
def insertBySym (e : FreqEntry) : List FreqEntry → List FreqEntry
  | [] => [e]
  | x :: xs => if e.sym.toNat ≤ x.sym.toNat then e :: x :: xs else x :: insertBySym e xs

/-- The table's entries sorted by ascending symbol, unsigned (R141). -/
def sortBySym (ft : List FreqEntry) : List FreqEntry := ft.foldr insertBySym []

/-- `NODE[k] <- Leaf(sym = L[k].sym, freq = L[k].count)` for each k (R141). -/
def leavesOf (ft : List FreqEntry) : List Node := (sortBySym ft).map (fun e => Node.leaf e.sym e.count)

/-! ## The priority collection (R140) -/

/-- Node a precedes node b: lower frequency first, then lower index (R140). -/
def precedes (nodes : List Node) (a b : Nat) : Bool :=
  let fa := (nodeAt nodes a).freq.toNat
  let fb := (nodeAt nodes b).freq.toNat
  decide (fa < fb) || (decide (fa = fb) && decide (a < b))

/-- The least element of j and q under R140. -/
def leastOf (nodes : List Node) (j : Nat) (q : List Nat) : Nat :=
  q.foldl (fun m x => if precedes nodes x m then x else m) j

/-- Remove the least element of the collection, if there is one. -/
def takeLeast (nodes : List Node) : List Nat → Option (Nat × List Nat)
  | [] => none
  | j :: q => some (leastOf nodes j q, (j :: q).erase (leastOf nodes j q))

/-- `Internal(freq = NODE[a].freq + NODE[b].freq, left = a, right = b)` (R141; log 13). -/
def mergeNode (nodes : List Node) (a b : Nat) : Node :=
  .internal ((nodeAt nodes a).freq + (nodeAt nodes b).freq) a b

/-- `while |Q| > 1`: the first node removed is the left child, the second the right one, and the new node goes back into
the collection (R140, R141). The first argument bounds the rounds; every round shrinks the collection by one. -/
def mergeLoop : Nat → List Nat → List Node → List Node
  | 0, _, nodes => nodes
  | rounds + 1, q, nodes =>
    match takeLeast nodes q with
    | none => nodes
    | some (a, q1) =>
      match takeLeast nodes q1 with
      | none => nodes
      | some (b, q2) => mergeLoop rounds (nodes.length :: q2) (nodes ++ [mergeNode nodes a b])

/-- The arena TREE_BUILD makes of a table (R141). -/
def buildArena (ft : List FreqEntry) : List Node :=
  mergeLoop ft.length (List.range ft.length) (leavesOf ft)

/-! ## Commands -/

/-- TREE_BUILD (42_tree.md R141). -/
def treeBuildRule (s : State) : CmdResult :=
  let n := s.ft.length
  if n = 0 then .raise .emptyAlphabet 0#32 0#32
  else
    .ok { s with nodes := buildArena s.ft, status := { s.status with treeValid := true, codesValid := false } }
      (word (2 * n - 2)) (word (2 * n - 1)) 0#32

def execTreeBuild (s : State) : StepResult := runCommand Instr.treeBuild.opcode treeBuildRule s

/-- NODE_GET (42_tree.md R143). -/
def nodeGetRule (s : State) : CmdResult :=
  let j := s.indexOperand
  if !s.status.treeValid then .raise .treeNotValid 0#32 0#32
  else if j ≥ s.nodes.length then .raise .badIndex s.arg0 (word s.nodes.length)
  else
    match nodeAt s.nodes j with
    | .leaf sym freq => .ok s freq (zext32 sym) all1
    | .internal freq left right => .ok s freq (word left) (word right)

def execNodeGet (s : State) : StepResult := runCommand Instr.nodeGet.opcode nodeGetRule s

end Sys2Proof.Machine
end

