-- ==== Sys2Proof/Machine/Dispatch.lean ====
section
/-! DEFINITION. One arm per command: the engine step of 10_state.md R40 for the command's word. -/

namespace Sys2Proof.Machine

def exec (i : Instr) (s : State) : Host.Outcome State Fault Refusal :=
  match i with
  | .nop => Sys2Proof.Machine.execNop s
  | .reset => Sys2Proof.Machine.execReset s
  | .freqClear => Sys2Proof.Machine.execFreqClear s
  | .freqCount => Sys2Proof.Machine.execFreqCount s
  | .freqSet => Sys2Proof.Machine.execFreqSet s
  | .freqLookup => Sys2Proof.Machine.execFreqLookup s
  | .freqGet => Sys2Proof.Machine.execFreqGet s
  | .treeBuild => Sys2Proof.Machine.execTreeBuild s
  | .nodeGet => Sys2Proof.Machine.execNodeGet s
  | .codeGen => Sys2Proof.Machine.execCodeGen s
  | .codeGet => Sys2Proof.Machine.execCodeGet s
  | .encodeSymbol => Sys2Proof.Machine.execEncodeSymbol s
  | .decodeSymbol => Sys2Proof.Machine.execDecodeSymbol s
  | .streamReset => Sys2Proof.Machine.execStreamReset s
  | .putBits => Sys2Proof.Machine.execPutBits s
  | .getBits => Sys2Proof.Machine.execGetBits s
  | .setBitlen => Sys2Proof.Machine.execSetBitlen s
  | .seekRd => Sys2Proof.Machine.execSeekRd s

end Sys2Proof.Machine
end

