-- ==== Sys2Proof/Machine/Port.lean ====
section
/-! DEFINITION. The host port (10_state.md R20-R41; 20_memory.md R60-R76), the engine's turn, and what each item of the
input list does. -/

namespace Sys2Proof.Machine

/-! ## The register map -/

/-- Byte offsets from BASE (10_state.md R20). -/
def Reg.offset : Reg → Nat
  | .id => 0x000
  | .capSyms => 0x004
  | .capBytes => 0x008
  | .ctrl => 0x00C
  | .status => 0x010
  | .cmd => 0x014
  | .arg0 => 0x018
  | .arg1 => 0x01C
  | .res0 => 0x020
  | .res1 => 0x024
  | .res2 => 0x028
  | .errcode => 0x02C
  | .einfo0 => 0x030
  | .einfo1 => 0x034
  | .nsym => 0x038
  | .total => 0x03C
  | .bitlen => 0x040
  | .rdptr => 0x044
  | .nodes => 0x048

/-- The column "busy-stable" (10_state.md R20, R36). -/
def Reg.busyStable : Reg → Bool
  | .id | .capSyms | .capBytes | .ctrl | .status | .cmd | .arg0 | .arg1 => true
  | .res0 | .res1 | .res2 | .errcode | .einfo0 | .einfo1 | .nsym | .total | .bitlen | .rdptr | .nodes => false

/-- Every register of the map. -/
def Reg.all : List Reg :=
  [.id, .capSyms, .capBytes, .ctrl, .status, .cmd, .arg0, .arg1, .res0, .res1, .res2] ++
  [.errcode, .einfo0, .einfo1, .nsym, .total, .bitlen, .rdptr, .nodes]

/-- What an offset names (10_state.md R20; 20_memory.md R60, R62, R63). -/
def portTarget (off : Nat) : PortTarget :=
  if 0x1000 ≤ off then .window ((off - 0x1000) / 4)
  else
    match Reg.all.find? (fun r => r.offset == off) with
    | some r => .reg r
    | none => .reserved

/-- The offset a bus address has in a block placed at BASE; none if the address is not in the block's aperture
(20_memory.md R60, R69; log 5). -/
def busOffset (c : Params) (base addr : Nat) : Option Nat :=
  if base ≤ addr ∧ addr < base + c.aperture then some (addr - base) else none

/-- ID, the ASCII bytes of HUF1 (10_state.md R21). -/
def idValue : Word := 0x48554631#32

/-! ## Host reads -/

/-- What a read of a register returns (10_state.md R21-R29). -/
def State.regValue (s : State) : Reg → Word
  | .id => idValue
  | .capSyms => word s.cfg.symCap
  | .capBytes => word s.cfg.pbufBytes
  | .ctrl => s.ctrlWord
  | .status => s.statusWord
  | .cmd => 0#32
  | .arg0 => s.arg0
  | .arg1 => s.arg1
  | .res0 => s.res0
  | .res1 => s.res1
  | .res2 => s.res2
  | .errcode => s.errcode
  | .einfo0 => s.einfo0
  | .einfo1 => s.einfo1
  | .nsym => word s.ft.length
  | .total => s.total
  | .bitlen => word s.bitlen
  | .rdptr => word s.rdptr
  | .nodes => word s.nodes.length

/-- What a read of a port target returns while BUSY = 0 (20_memory.md R62, R63). -/
def State.targetValue (s : State) : PortTarget → Word
  | .reg r => s.regValue r
  | .window m => s.windowWord m
  | .reserved => 0#32

/-- Whether a target's read returns its defined value while BUSY = 1 (10_state.md R36; 20_memory.md R62). -/
def PortTarget.busyStable : PortTarget → Bool
  | .reg r => r.busyStable
  | .window _ => false
  | .reserved => false

/-- A read returns v to the host and changes nothing of the block (20_memory.md R70). -/
def State.replyWith (s : State) (v : Word) : State := { s with env := { s.env with reply := some v } }

/-- An unspecified read returns the next free value (10_state.md R36; log 7). -/
def State.replyDraw (s : State) : State :=
  { s with env := { s.env with reply := some (Config.busyRead s.env.draws), draws := s.env.draws + 1 } }

/-- An admitted host read of a port target (10_state.md R36; 20_memory.md R62, R63, R70). -/
def State.hostRead (s : State) (tgt : PortTarget) : State :=
  if s.busy && !tgt.busyStable then s.replyDraw else s.replyWith (s.targetValue tgt)

/-! ## Host writes -/

/-- A host write to a register while BUSY = 0 (10_state.md R38). -/
def State.writeReg (s : State) (v : Word) : Reg → State
  | .ctrl => s.writeCtrl v
  | .status => s.writeStatus v
  | .cmd => s.acceptCommand v
  | .arg0 => { s with arg0 := v }
  | .arg1 => { s with arg1 := v }
  | .id | .capSyms | .capBytes | .res0 | .res1 | .res2 | .errcode | .einfo0 | .einfo1 => s
  | .nsym | .total | .bitlen | .rdptr | .nodes => s

/-- A host write to a port target while BUSY = 0 (10_state.md R38; 20_memory.md R62, R63). -/
def State.writeTarget (s : State) (v : Word) : PortTarget → State
  | .reg r => s.writeReg v r
  | .window m => s.writeWindow m v
  | .reserved => s

/-- An admitted host write of a port target: dropped with WOB set while BUSY = 1 (10_state.md R37, R38). -/
def State.hostWrite (s : State) (tgt : PortTarget) (v : Word) : State :=
  if s.busy then s.dropWrite else s.writeTarget v tgt

/-! ## The engine's turn and the input list -/

/-- A host access: stuck during a hardware reset or if the port does not admit it (20_memory.md R61;
70_reset_and_hazards.md R251; logs 9, 10). -/
def hostAccess (s : State) (off width : Nat) (effect : PortTarget → State) : StepResult :=
  if s.resetHeld then .fault .accessDuringReset
  else if admitted s.cfg off width then .next (effect (portTarget off))
  else .fault .accessNotAdmitted

/-- The engine performs a command word (10_state.md R40; 30_encoding.md R92). -/
def performWord (w : Word) (s : State) : StepResult :=
  match decode w with
  | .ok i => exec i s
  | .error _ => execIllegal w s

/-- The engine's turn: enabled exactly when a command is pending; else the block is idle and keeps its state
(10_state.md R40; 60_exceptions.md R237; log 2). -/
def engineTurn (s : State) : StepResult :=
  match s.pending with
  | some w => performWord w s
  | none => .next s

/-- What one item of the input list does (20_memory.md R70, R71; log 1). -/
def takeInput (s : State) : Input → StepResult
  | .engine => engineTurn s
  | .read off width => hostAccess s off width (fun tgt => s.hostRead tgt)
  | .write off width v => hostAccess s off width (fun tgt => s.hostWrite tgt v)
  | .assertReset => .next s.hardReset
  | .releaseReset => .next { s with resetHeld := false }

/-- The input list without its first item. -/
def State.withInputs (s : State) (l : List Input) : State := { s with env := { s.env with inputs := l } }

/-- One step of the machine: the next item of the input list, or, when the list is empty, the engine's turn
(logs 1, 3). -/
def stepOnce (s : State) : StepResult :=
  match s.env.inputs with
  | [] => engineTurn s
  | x :: rest => takeInput (s.withInputs rest) x

/-- The command word w accepted, no hardware reset held, and the engine's turn next (10_state.md R41; log 15). -/
def State.withCommand (s : State) (w : Word) : State :=
  { (s.acceptCommand w).withInputs (.engine :: s.env.inputs) with resetHeld := false }

end Sys2Proof.Machine
end

