-- ==== Sys2Proof/Machine/Step.lean ====
section
/-! DEFINITION. The step function, and the placing of a command word where the next step runs it. -/

namespace Sys2Proof.Machine

/-- One step (00_scope.md R6; 20_memory.md R71; log 1). -/
def step (s : State) : Host.Outcome State Fault Refusal := stepOnce s

/-- `s` with the command word w pending and the engine's turn next: what a host write of w to CMD leaves (log 15). -/
def State.withFetchWord (s : State) (nbits w : Nat) : State :=
  match tableWord nbits w with
  | some v => s.withCommand v
  | none => s

end Sys2Proof.Machine
end

