-- ==== Sys2Proof/Machine/BusOps.lean ====
section
/-! DEFINITION. Host assembly syntax (30_encoding.md R97, R98): what each statement does, as bus operations that the host
issues one after the other, with its loops and the tests that end them. -/

namespace Sys2Proof.Machine

/-! ## Statements -/

/-- The bus statements of R97. -/
inductive BusStmt where
  /-- `WR <reg>, <value>` -/
  | wr (r : Reg) (v : Word)
  /-- `RD <reg>` -/
  | rd (r : Reg)
  /-- `WRW <k>, <value>` -/
  | wrw (k : Nat) (v : Word)
  /-- `RDW <k>` -/
  | rdw (k : Nat)
  /-- `WAIT` -/
  | wait
  deriving DecidableEq, Repr

/-- A statement of a host program: of R97, or a pseudo-instruction of R98. -/
inductive HostStmt where
  /-- a statement of R97 -/
  | bus (b : BusStmt)
  /-- `<MNEMONIC>`, `<MNEMONIC> a`, `<MNEMONIC> a, b`, `<MNEMONIC> -, b` -/
  | cmd (i : Instr) (a b : Option Word)
  /-- `CLRERR` -/
  | clrErr
  /-- `COUNT "text"`, the text as Unicode scalar values -/
  | count (text : List Word)
  /-- `ENCODE "text"` -/
  | encode (text : List Word)
  /-- `DECODEALL` -/
  | decodeAll
  deriving DecidableEq, Repr

/-! ## One bus operation -/

/-- Where the engine's turns fall among the host's bus operations: one entry for each operation, true if the engine has
its turn right before it (20_memory.md R71; log 22). -/
abbrev Schedule := List Bool

/-- How far a host program comes on a schedule. -/
inductive HostEnd where
  /-- the program's last operation is complete, and this much of the schedule is left -/
  | complete (s : State) (rest : Schedule)
  /-- the schedule is used up before the program is complete -/
  | unfinished (s : State)
  /-- the host is stuck at an operation that has no step -/
  | fault (f : Fault)
  | refused (r : Refusal)
  deriving DecidableEq, Repr

/-- The next part of a program, once the part before it is complete. -/
def HostEnd.andThen (e : HostEnd) (next : State → Schedule → HostEnd) : HostEnd :=
  match e with
  | .complete s rest => next s rest
  | .unfinished s => .unfinished s
  | .fault f => .fault f
  | .refused r => .refused r

/-- One bus operation of the host, with the engine's turn right before it or not. -/
def busOp (turn : Bool) (x : Input) (s : State) : StepResult :=
  match if turn then engineTurn s else .next s with
  | .next t => takeInput t x
  | .fault f => .fault f
  | .refused r => .refused r

/-- One bus operation, on the first entry of a schedule. -/
def issue (x : Input) (s : State) : Schedule → HostEnd
  | [] => .unfinished s
  | turn :: rest =>
    match busOp turn x s with
    | .next t => .complete t rest
    | .fault f => .fault f
    | .refused r => .refused r

/-- The value the host's last read returned. -/
def State.lastReply (s : State) : Word := s.env.reply.getD 0#32

/-- `W off data` -/
def busWrite (off : Nat) (v : Word) : Input := .write off 4 v

/-- `R off` -/
def busRead (off : Nat) : Input := .read off 4

/-! ## The statements of R97 -/

/-- `WAIT`: repeat `RD STATUS` until bit 0 (BUSY) reads 0. -/
def waitRun (s : State) : Schedule → HostEnd
  | [] => .unfinished s
  | turn :: rest =>
    match busOp turn (busRead Reg.status.offset) s with
    | .next t => if t.lastReply.getLsbD 0 then waitRun t rest else .complete t rest
    | .fault f => .fault f
    | .refused r => .refused r

/-- What a statement of R97 does. -/
def BusStmt.run : BusStmt → State → Schedule → HostEnd
  | .wr r v, s, sched => issue (busWrite r.offset v) s sched
  | .rd r, s, sched => issue (busRead r.offset) s sched
  | .wrw k v, s, sched => issue (busWrite (0x1000 + 4 * k) v) s sched
  | .rdw k, s, sched => issue (busRead (0x1000 + 4 * k)) s sched
  | .wait, s, sched => waitRun s sched

/-- Statements of R97, one after the other. -/
def runAll : List BusStmt → State → Schedule → HostEnd
  | [], s, sched => .complete s sched
  | b :: l, s, sched => (b.run s sched).andThen (runAll l)

/-! ## The pseudo-instructions of R98 -/

/-- The write of an operand that the statement gives. -/
def operandWrite (r : Reg) : Option Word → List BusStmt
  | some v => [.wr r v]
  | none => []

/-- `WR ARG0, a ; WR ARG1, b ; WR CMD, <MNEMONIC> ; WAIT`, without the writes of absent operands. -/
def commandStmts (i : Instr) (a b : Option Word) : List BusStmt :=
  operandWrite .arg0 a ++ operandWrite .arg1 b ++ [.wr .cmd (Sys2Proof.encode i), .wait]

/-- `DECODEALL`: repeat `DECODE_SYMBOL`, then `RD RES2`, until RES2 reads 1 or the STATUS that the command's WAIT read
last shows ERR = 1. The first argument bounds the rounds; each uses up at least three entries of the schedule (log
22). -/
def decodeAllRun : Nat → State → Schedule → HostEnd
  | 0, s, _ => .unfinished s
  | rounds + 1, s, sched =>
    (runAll (commandStmts .decodeSymbol none none) s sched).andThen fun t sched1 =>
      (issue (busRead Reg.res2.offset) t sched1).andThen fun u sched2 =>
        if u.lastReply == 1#32 || t.lastReply.getLsbD 2 then .complete u sched2 else decodeAllRun rounds u sched2

/-- What a statement of a host program does. -/
def HostStmt.run : HostStmt → State → Schedule → HostEnd
  | .bus b, s, sched => b.run s sched
  | .cmd i a b, s, sched => runAll (commandStmts i a b) s sched
  | .clrErr, s, sched => BusStmt.run (.wr .status 0x00000004#32) s sched
  | .count text, s, sched => runAll (text.flatMap (fun c => commandStmts .freqCount (some c) none)) s sched
  | .encode text, s, sched => runAll (text.flatMap (fun c => commandStmts .encodeSymbol (some c) none)) s sched
  | .decodeAll, s, sched => decodeAllRun sched.length s sched

/-- A host program: its statements, one after the other. -/
def runProgram : List HostStmt → State → Schedule → HostEnd
  | [], s, sched => .complete s sched
  | b :: l, s, sched => (b.run s sched).andThen (runProgram l)

end Sys2Proof.Machine
end

