-- ==== Sys2Proof/Safety.lean ====
section
/-! DEFINITION. The terms claims are stated in: the ends of a command, the invariant of the state, the shape of a tree,
and the runs that never get stuck. -/

namespace Sys2Proof.Machine

/-! ## The three ends of a command (60_exceptions.md R220) -/

/-- What a success with results (r0, r1, r2) leaves of the state `t` its rule made (00_scope.md R13; 10_state.md R40). -/
def State.succeeded (t : State) (r0 r1 r2 : Word) : State :=
  { t with res0 := r0, res1 := r1, res2 := r2, pending := none, status := { t.status with done := true } }

/-- What a failure leaves of the state before the command: the capture and the DONE/BUSY update (60_exceptions.md
R223). -/
def State.failed (s : State) (opc code : Byte) (info0 info1 : Word) : State :=
  { s with
    errcode := 0#16 ++ opc ++ code, einfo0 := info0, einfo1 := info1,
    pending := none, status := { s.status with err := true, done := true } }

/-- What a rejection leaves (60_exceptions.md R224). -/
def State.rejected (s : State) : State := { s with pending := none, status := { s.status with done := true } }

/-- Error codes a command can raise: R221's table without NONE and CORRUPT_CONTAINER. -/
def raisedCodes : List Byte :=
  [0x01#8, 0x02#8, 0x03#8, 0x10#8, 0x11#8, 0x12#8, 0x13#8, 0x14#8, 0x15#8, 0x16#8, 0x17#8, 0x18#8, 0x19#8] ++
  [0x1A#8, 0x1B#8]

/-! ## What statements say of a state -/

/-- v is a Unicode scalar value (00_scope.md R15; 41_frequency.md R125). -/
def ScalarValue (v : Word) : Prop := v.toNat ≤ 0x10FFFF ∧ ¬ (0xD800 ≤ v.toNat ∧ v.toNat ≤ 0xDFFF)

/-- Entry i of the table is e, its symbol is v, and no other entry has that symbol (10_state.md R30). -/
def State.EntryFor (s : State) (v : Word) (i : Nat) (e : FreqEntry) : Prop :=
  s.ft[i]? = some e ∧ zext32 e.sym = v ∧ ∀ j e', s.ft[j]? = some e' → zext32 e'.sym = v → j = i

/-- No valid entry has the symbol v. -/
def State.Absent (s : State) (v : Word) : Prop := ∀ e ∈ s.ft, zext32 e.sym ≠ v

/-- Leaf k, below NSYM, holds the symbol v, and no other leaf below NSYM does (44_codec.md R180). -/
def State.LeafFor (s : State) (v : Word) (k : Nat) : Prop :=
  k < s.ft.length ∧ (∃ sym f, s.nodes[k]? = some (.leaf sym f) ∧ zext32 sym = v) ∧
  ∀ j sym f, j < s.ft.length → s.nodes[j]? = some (.leaf sym f) → zext32 sym = v → j = k

/-- No leaf below NSYM holds the symbol v. -/
def State.NoLeaf (s : State) (v : Word) : Prop :=
  ∀ j sym f, j < s.ft.length → s.nodes[j]? = some (.leaf sym f) → zext32 sym ≠ v

/-- The state with other PBUF contents. -/
def State.withPbuf (s : State) (m : Memory) : State := { s with pbuf := m }

/-- The bits of a code stand in the stream from position p on. -/
def State.StreamHas (s : State) (p : Nat) (code : Code) : Prop :=
  ∀ j (h : j < code.length), s.streamBit (p + j) = code[j]

/-- `t` is what appending the bits of c to the stream of `s` makes of PBUF: the stream so far stands, c follows, the
padding bits are 0 in a byte the stream has newly entered and as before in the byte it had entered already, and every byte
that holds none of the appended bits is as before (20_memory.md R66, R67; 44_codec.md R181; 45_bitpack.md R201). -/
def Appended (s t : State) (c : Code) : Prop :=
  (∀ p, p < s.bitlen → t.streamBit p = s.streamBit p) ∧
  t.StreamHas s.bitlen c ∧
  (∀ p, s.bitlen + c.length ≤ p → p < padLen (s.bitlen + c.length) →
    (padLen s.bitlen ≤ p → t.streamBit p = false) ∧
    (p < padLen s.bitlen → t.streamBit p = s.streamBit p)) ∧
  (∀ i, i < s.bitlen / 8 ∨ s.bitlen + c.length ≤ 8 * i → t.readByte i = s.readByte i)

/-! ## The invariant -/

/-- PBUF is in canonical form and lists only bytes the buffer has (10_state.md R33). -/
def State.PbufOk (s : State) : Prop := Memory.wf s.pbuf ∧ ∀ c ∈ s.pbuf, c.1 < s.cfg.pbufBytes

/-- BITLEN ≤ CAP_BITS and RDPTR ≤ PADLEN (10_state.md R33). -/
def State.StreamOk (s : State) : Prop := s.bitlen ≤ s.cfg.capBits ∧ s.rdptr ≤ padLen s.bitlen

/-- The sum of a table's counts, as an unbounded number. -/
def countSum (ft : List FreqEntry) : Nat := (ft.map (fun e => e.count.toNat)).sum

/-- The symbols of a table are unique (10_state.md R30). -/
def UniqueSymbols (ft : List FreqEntry) : Prop := (ft.map (fun e => e.sym)).Nodup

/-- The invariants of the frequency table (10_state.md R30). -/
def State.TableOk (s : State) : Prop :=
  s.ft.length ≤ s.cfg.symCap ∧ UniqueSymbols s.ft ∧ (∀ e ∈ s.ft, isScalar (zext32 e.sym) = true) ∧
  s.total.toNat = countSum s.ft

/-- While TREE_VALID = 1 the arena is the tree of the current table; while it is 0, NODES = 0 (10_state.md R27, R31,
R34). -/
def State.TreeOk (s : State) : Prop :=
  (s.status.treeValid = true → s.ft ≠ [] ∧ s.nodes = buildArena s.ft) ∧ (s.status.treeValid = false → s.nodes = [])

/-- CODES_VALID implies TREE_VALID, and the codes are those of the tree (10_state.md R32, R34). -/
def State.CodesOk (s : State) : Prop :=
  s.status.codesValid = true → s.status.treeValid = true ∧ s.codes = deriveCodes s.nodes s.ft.length

/-- While ERR = 0 the error registers are 0; while it is 1, ERRCODE holds a code that can be raised and its reserved
bits are 0 (10_state.md R26; 60_exceptions.md R221, R226). -/
def State.ErrorOk (s : State) : Prop :=
  (s.status.err = false → s.errcode = 0#32 ∧ s.einfo0 = 0#32 ∧ s.einfo1 = 0#32) ∧
  (s.status.err = true → s.errcode.extractLsb' 16 16 = 0#16 ∧ s.errcode.extractLsb' 0 8 ∈ raisedCodes)

/-- While a command is pending DONE = 0 and no reset is held (10_state.md R41; 70_reset_and_hazards.md R251). -/
def State.HandshakeOk (s : State) : Prop :=
  s.pending ≠ none → s.status.done = false ∧ s.resetHeld = false

/-- The invariant every step keeps. -/
structure State.Inv (s : State) : Prop where
  cfg : s.cfg.wf = true
  pbuf : s.PbufOk
  stream : s.StreamOk
  table : s.TableOk
  tree : s.TreeOk
  codes : s.CodesOk
  error : s.ErrorOk
  handshake : s.HandshakeOk

/-- The padding bits of the stream are 0 (20_memory.md R67). -/
def State.PaddingZero (s : State) : Prop :=
  ∀ p, s.bitlen ≤ p → p < padLen s.bitlen → s.streamBit p = false

/-! ## Trees (42_tree.md) -/

/-- a is the least element of q in the priority order (frequency, index) (42_tree.md R140). -/
def IsLeast (nodes : List Node) (q : List Nat) (a : Nat) : Prop :=
  a ∈ q ∧ ∀ b ∈ q, b ≠ a →
    (nodeAt nodes a).freq.toNat < (nodeAt nodes b).freq.toNat ∨
    ((nodeAt nodes a).freq.toNat = (nodeAt nodes b).freq.toNat ∧ a < b)

/-- The merge of TREE_BUILD as a relation: from an arena and a collection of node indices, remove the least node a and
then the least node b, append their parent with a on the left, until one node is left (42_tree.md R141). -/
inductive Merges : List Node → List Nat → List Node → Prop where
  | finished (nodes : List Node) (j : Nat) : Merges nodes [j] nodes
  | round (nodes : List Node) (q q' : List Nat) (a b : Nat) (result : List Node)
      (ha : IsLeast nodes q a) (hb : IsLeast nodes (q.erase a) b)
      (hq : q'.Perm (nodes.length :: (q.erase a).erase b))
      (rest : Merges
        (nodes ++ [.internal ((nodeAt nodes a).freq + (nodeAt nodes b).freq) a b]) q' result) :
      Merges nodes q result

/-- j is an internal node of the arena with k as a child. -/
def IsParent (nodes : List Node) (j k : Nat) : Prop :=
  ∃ f left right, nodes[j]? = some (.internal f left right) ∧ (left = k ∨ right = k)

/-- The invariants of an arena that holds a tree of n leaves (10_state.md R31). -/
structure ArenaShape (nodes : List Node) (n : Nat) : Prop where
  size : nodes.length = 2 * n - 1
  leaves : ∀ k, k < n → ∃ sym f, nodes[k]? = some (.leaf sym f)
  internals : ∀ j, n ≤ j → j < nodes.length → ∃ f left right,
    nodes[j]? = some (.internal f left right) ∧ left < j ∧ right < j ∧ left ≠ right ∧
    f.toNat = (nodeAt nodes left).freq.toNat + (nodeAt nodes right).freq.toNat
  parents : ∀ k, k + 1 < nodes.length → ∃! j, IsParent nodes j k

/-- c is the path from node j to node k: 0 for left, 1 for right, first bit first (43_codes.md R160). -/
inductive IsPath (nodes : List Node) : Nat → Nat → Code → Prop where
  | here (j : Nat) : IsPath nodes j j []
  | left (j k f l r : _) (c : Code) (hj : nodes[j]? = some (.internal f l r)) (rest : IsPath nodes l k c) :
      IsPath nodes j k (false :: c)
  | right (j k f l r : _) (c : Code) (hj : nodes[j]? = some (.internal f l r)) (rest : IsPath nodes r k c) :
      IsPath nodes j k (true :: c)

/-! ## Texts (44_codec.md R182, R186) -/

/-- The host's loop over a text: ARG0 takes each symbol in turn and ENCODE_SYMBOL is performed, until one does not
succeed (30_encoding.md R98 `ENCODE`). -/
def encodeText : List Word → State → Option State
  | [], s => some s
  | c :: text, s =>
    match exec .encodeSymbol { s with arg0 := c } with
    | .next t => if t.status.err then none else encodeText text t
    | _ => none

/-- The host's decoding loop: DECODE_SYMBOL is performed until RES2 is 1 (EOS), within a bound on the rounds. The symbols
decoded and the last state, or none if a round fails or the bound is used up (30_encoding.md R98 `DECODEALL`). -/
def decodeText : Nat → State → Option (List Word × State)
  | 0, _ => none
  | rounds + 1, s =>
    match exec .decodeSymbol s with
    | .next t =>
      if t.status.err then none
      else if t.res2 = 1#32 then some ([], t)
      else (decodeText rounds t).map (fun r => (t.res0 :: r.1, r.2))
    | _ => none

/-- PUT_BITS commands for (value, count) chunks, each after its operands are written, until one does not succeed. -/
def putChunks : List (Word × Word) → State → Option State
  | [], s => some s
  | (v, n) :: l, s =>
    match exec .putBits { s with arg0 := v, arg1 := n } with
    | .next t => if t.status.err then none else putChunks l t
    | _ => none

/-- The bits of (value, count) chunks in order, each chunk's most significant bit first (45_bitpack.md R201). -/
def chunkBits (l : List (Word × Word)) : List Bool :=
  l.flatMap (fun c => (List.range c.2.toNat).map (fun j => c.1.getLsbD (c.2.toNat - 1 - j)))

/-! ## Runs that never get stuck -/

/-- The items of an input list that the port admits, from a block whose hardware reset is held or not: no host access
during a reset, and every access aligned, 4 bytes wide and inside the aperture (20_memory.md R61;
70_reset_and_hazards.md R251). -/
def inputsAdmitted (c : Params) : Bool → List Input → Bool
  | _, [] => true
  | held, .engine :: l => inputsAdmitted c held l
  | held, .read off width :: l => !held && admitted c off width && inputsAdmitted c held l
  | held, .write off width _ :: l => !held && admitted c off width && inputsAdmitted c held l
  | _, .assertReset :: l => inputsAdmitted c true l
  | _, .releaseReset :: l => inputsAdmitted c false l

/-- The next step is the engine step of the pending word w (10_state.md R40; logs 1, 3). -/
def State.performsNext (s : State) (w : Word) : Prop :=
  s.pending = some w ∧ (s.env.inputs = [] ∨ ∃ l, s.env.inputs = .engine :: l)

/-- The next step is a window write that the port performs (20_memory.md R63; 10_state.md R37). -/
def State.windowWriteNext (s : State) : Prop :=
  s.busy = false ∧ ∃ off width v l, s.env.inputs = .write off width v :: l ∧ 0x1000 ≤ off

/-- `k` steps. -/
def steps : Nat → State → StepResult
  | 0, s => .next s
  | k + 1, s =>
    match step s with
    | .next t => steps k t
    | .fault f => .fault f
    | .refused r => .refused r

end Sys2Proof.Machine
end

