-- ==== Sys2Proof/Certificates/Slice0/Obligations.lean ====
section
/-! DEFINITION. The statements for the provers. Each cites the rule of spec/ it formalises. In a statement about a command,
`s.succeeded r0 r1 r2`, `s.failed opc code info0 info1` and `s.rejected` are the three ends of a command (Safety.lean), and
an equality of next states says the command's frame: every register, flag, byte and record the right side does not change is
unchanged. -/

open Sys2Proof Sys2Proof.Machine

/-! ## Command words -/

/-- R93: the 18 words of the opcode map decode to their commands. -/
def Obligations.OpcodeMapDecodes : Prop :=
  decode 0x00000000#32 = .ok .nop ∧ decode 0x00000001#32 = .ok .reset ∧
  decode 0x00000010#32 = .ok .freqClear ∧ decode 0x00000011#32 = .ok .freqCount ∧
  decode 0x00000012#32 = .ok .freqSet ∧ decode 0x00000013#32 = .ok .freqLookup ∧
  decode 0x00000014#32 = .ok .freqGet ∧ decode 0x00000020#32 = .ok .treeBuild ∧
  decode 0x00000021#32 = .ok .nodeGet ∧ decode 0x00000030#32 = .ok .codeGen ∧
  decode 0x00000031#32 = .ok .codeGet ∧ decode 0x00000040#32 = .ok .encodeSymbol ∧
  decode 0x00000041#32 = .ok .decodeSymbol ∧ decode 0x00000050#32 = .ok .streamReset ∧
  decode 0x00000051#32 = .ok .putBits ∧ decode 0x00000052#32 = .ok .getBits ∧
  decode 0x00000053#32 = .ok .setBitlen ∧ decode 0x00000054#32 = .ok .seekRd

/-- Decode and encode agree, both ways, over every 32-bit word: the encoding of a command decodes to it, and no other
word does (R90, R93). -/
def Obligations.DecodeAgreesWithEncode : Prop :=
  (∀ i : Instr, i.wf = true → decode (encode i) = .ok i) ∧
  ∀ (w : Word) (i : Instr), decode w = .ok i → w = encode i

/-- R92: every word with RSV = 0 and an assigned OP selects exactly one command; every other word fails with
ILLEGAL_COMMAND (0x10), the whole word as EINFO0 and 0 as EINFO1. -/
def Obligations.EveryWordIsOneCommandOrIllegal : Prop :=
  (∀ w : Word, wfCommandWord w = true → ∃ i, decode w = .ok i ∧ ∀ s : State, performWord w s = exec i s) ∧
  ∀ (w : Word) (s : State), wfCommandWord w = false → s.status.err = false →
    performWord w s = .next (s.failed (w.extractLsb' 0 8) 0x10#8 w 0#32)

/-- R224: while ERR = 1 every word but 0x00000001 is rejected, legal or not; the word 0x00000001 is performed as
RESET. -/
def Obligations.ErrorStateRejectsAllButReset : Prop :=
  ∀ s : State, s.status.err = true →
    (∀ w : Word, w ≠ 0x00000001#32 → performWord w s = .next s.rejected) ∧
    ∃ t, performWord 0x00000001#32 s = .next t ∧ exec .reset s = .next t ∧ t.status.err = false

/-- A step whose pending word decodes runs the decoded command: with the input list empty, or on the engine's turn
after that turn is taken from the list; and the step after `withFetchWord` runs the word placed (R40, R41; logs 1,
15). -/
def Obligations.StepRunsDecodedCommand : Prop :=
  ∀ (s : State) (w : Word) (i : Instr), decode w = .ok i →
    (s.pending = some w → s.env.inputs = [] → step s = exec i s) ∧
    (∀ l, s.pending = some w → s.env.inputs = .engine :: l →
      step s = exec i { s with env := { s.env with inputs := l } }) ∧
    step (s.withFetchWord 32 w.toNat) =
      exec i { s with pending := some w, status := { s.status with done := false }, resetHeld := false }

/-- With no input and no pending command the block is idle and keeps all state (the model's reading of R40 and R237,
log 2). -/
def Obligations.IdleBlockKeepsState : Prop :=
  ∀ s : State, s.pending = none → s.env.inputs = [] → step s = .next s

/-! ## Control commands -/

/-- R110: NOP returns (0, 0, 0) and changes nothing else; the word 0x00000100 is not a NOP. -/
def Obligations.NopClearsResultsOnly : Prop :=
  encode .nop = 0x00000000#32 ∧
  ∀ s : State,
    (s.status.err = false → exec .nop s = .next (s.succeeded 0#32 0#32 0#32)) ∧
    (s.status.err = true → exec .nop s = .next s.rejected) ∧
    (s.status.err = false → performWord 0x00000100#32 s = .next (s.failed 0x00#8 0x10#8 0x100#32 0#32))

/-- R111: RESET gives every register and internal item its reset value, keeps PBUF, sets DONE, deasserts IRQ, cannot
fail and is never rejected; the word 0x00000101 is illegal, or rejected while ERR = 1; a hardware reset while RESET is
pending abandons it with DONE = 0. -/
def Obligations.ResetCommandRestoresAllButPbuf : Prop :=
  encode .reset = 0x00000001#32 ∧
  ∀ s : State,
    (∃ t : State, exec .reset s = .next t ∧ t.irq = false ∧ t =
      { cfg := s.cfg, ctrl := ⟨false, false⟩,
        status := { done := true, err := false, wob := false, treeValid := false, codesValid := false },
        arg0 := 0#32, arg1 := 0#32, res0 := 0#32, res1 := 0#32, res2 := 0#32,
        errcode := 0#32, einfo0 := 0#32, einfo1 := 0#32, ft := [], total := 0#32, nodes := [], codes := [],
        pbuf := s.pbuf, bitlen := 0, rdptr := 0, pending := none, resetHeld := s.resetHeld, env := s.env }) ∧
    (s.status.err = false → performWord 0x00000101#32 s = .next (s.failed 0x01#8 0x10#8 0x101#32 0#32)) ∧
    (s.status.err = true → performWord 0x00000101#32 s = .next s.rejected) ∧
    (s.pending = some 0x00000001#32 →
      ∃ t, takeInput s .assertReset = .next t ∧ t.pending = none ∧ t.status.done = false)

/-! ## Frequency table -/

/-- R120: FREQ_CLEAR empties the table, invalidates tree and codes and returns (0, 0, 0); PBUF, BITLEN and RDPTR stay.
-/
def Obligations.FreqClearEmptiesTable : Prop :=
  encode .freqClear = 0x00000010#32 ∧
  ∀ s : State, s.status.err = false →
    exec .freqClear s = .next (State.succeeded
      { s with ft := [], total := 0#32, nodes := [], status := { s.status with treeValid := false, codesValid := false } }
      0#32 0#32 0#32)

/-- R121: FREQ_COUNT's three failures in their order, and its two successes: the count of a present symbol, or a new
entry at index NSYM with count 1. In a state that satisfies the table's invariant (R30) no addition wraps. -/
def Obligations.FreqCountCountsOneSymbol : Prop :=
  encode .freqCount = 0x00000011#32 ∧
  ∀ s : State, s.status.err = false →
    (¬ ScalarValue s.arg0 → exec .freqCount s = .next (s.failed 0x11#8 0x11#8 s.arg0 0#32)) ∧
    (ScalarValue s.arg0 → s.Absent s.arg0 → s.ft.length = s.cfg.symCap →
      exec .freqCount s = .next (s.failed 0x11#8 0x12#8 s.arg0 (word s.cfg.symCap))) ∧
    (ScalarValue s.arg0 → ¬ (s.Absent s.arg0 ∧ s.ft.length = s.cfg.symCap) → s.total = 0xFFFFFFFF#32 →
      exec .freqCount s = .next (s.failed 0x11#8 0x14#8 s.total 1#32)) ∧
    (∀ i e, ScalarValue s.arg0 → s.EntryFor s.arg0 i e → s.total ≠ 0xFFFFFFFF#32 →
      exec .freqCount s = .next (State.succeeded
        { s with
          ft := s.ft.set i { e with count := e.count + 1#32 }, total := s.total + 1#32, nodes := [],
          status := { s.status with treeValid := false, codesValid := false } }
        (e.count + 1#32) (word i) (s.total + 1#32)) ∧
      (s.TableOk → (e.count + 1#32).toNat = e.count.toNat + 1 ∧ (s.total + 1#32).toNat = s.total.toNat + 1)) ∧
    (ScalarValue s.arg0 → s.Absent s.arg0 → s.ft.length ≠ s.cfg.symCap → s.total ≠ 0xFFFFFFFF#32 →
      exec .freqCount s = .next (State.succeeded
        { s with
          ft := s.ft ++ [{ sym := s.arg0.extractLsb' 0 21, count := 1#32 }], total := s.total + 1#32, nodes := [],
          status := { s.status with treeValid := false, codesValid := false } }
        1#32 (word s.ft.length) (s.total + 1#32)))

/-- R122: FREQ_SET's four failures in their order, and its success: a new entry at index NSYM with the given count. -/
def Obligations.FreqSetInsertsOneEntry : Prop :=
  encode .freqSet = 0x00000012#32 ∧
  ∀ s : State, s.status.err = false →
    (¬ ScalarValue s.arg0 → exec .freqSet s = .next (s.failed 0x12#8 0x11#8 s.arg0 0#32)) ∧
    (∀ i e, ScalarValue s.arg0 → s.EntryFor s.arg0 i e →
      exec .freqSet s = .next (s.failed 0x12#8 0x13#8 s.arg0 (word i))) ∧
    (ScalarValue s.arg0 → s.Absent s.arg0 → s.ft.length = s.cfg.symCap →
      exec .freqSet s = .next (s.failed 0x12#8 0x12#8 s.arg0 (word s.cfg.symCap))) ∧
    (ScalarValue s.arg0 → s.Absent s.arg0 → s.ft.length ≠ s.cfg.symCap → 2 ^ 32 ≤ s.total.toNat + s.arg1.toNat →
      exec .freqSet s = .next (s.failed 0x12#8 0x14#8 s.total s.arg1)) ∧
    (ScalarValue s.arg0 → s.Absent s.arg0 → s.ft.length ≠ s.cfg.symCap → s.total.toNat + s.arg1.toNat < 2 ^ 32 →
      ∃ total : Word, total.toNat = s.total.toNat + s.arg1.toNat ∧
        exec .freqSet s = .next (State.succeeded
          { s with
            ft := s.ft ++ [{ sym := s.arg0.extractLsb' 0 21, count := s.arg1 }], total := total, nodes := [],
            status := { s.status with treeValid := false, codesValid := false } }
          s.arg1 (word s.ft.length) total))

/-- R123: FREQ_LOOKUP never fails: a present symbol gives (count, index, 1), an absent one (0, ALL1, 0); nothing else
changes. -/
def Obligations.FreqLookupReportsPresence : Prop :=
  encode .freqLookup = 0x00000013#32 ∧
  ∀ s : State, s.status.err = false →
    (∀ i e, s.EntryFor s.arg0 i e → exec .freqLookup s = .next (s.succeeded e.count (word i) 1#32)) ∧
    (s.Absent s.arg0 → exec .freqLookup s = .next (s.succeeded 0#32 0xFFFFFFFF#32 0#32))

/-- R124: FREQ_GET reads the entry at an index below NSYM, in insertion order, or fails with BAD_INDEX. -/
def Obligations.FreqGetReadsEntry : Prop :=
  encode .freqGet = 0x00000014#32 ∧
  ∀ s : State, s.status.err = false →
    (s.ft.length ≤ s.arg0.toNat → exec .freqGet s = .next (s.failed 0x14#8 0x15#8 s.arg0 (word s.ft.length))) ∧
    (∀ h : s.arg0.toNat < s.ft.length,
      exec .freqGet s = .next (s.succeeded (zext32 s.ft[s.arg0.toNat].sym) s.ft[s.arg0.toNat].count 0#32))

/-! ## Tree builder -/

/-- R140, R141: TREE_BUILD fails with EMPTY_ALPHABET on an empty table; otherwise the leaves are the table's entries
by ascending symbol, the arena is what merging the least pair under (frequency, index), first removed on the left,
makes of them, and the results are the root index and NODES. -/
def Obligations.TreeBuildMergesLeastPairs : Prop :=
  encode .treeBuild = 0x00000020#32 ∧
  ∀ s : State, s.status.err = false →
    (s.ft = [] → exec .treeBuild s = .next (s.failed 0x20#8 0x01#8 0#32 0#32)) ∧
    (s.ft ≠ [] →
      ∃ (sorted : List FreqEntry) (arena : List Node),
        sorted.Perm s.ft ∧ sorted.Pairwise (fun x y => x.sym.toNat ≤ y.sym.toNat) ∧
        Merges (sorted.map (fun e => .leaf e.sym e.count)) (List.range s.ft.length) arena ∧
        arena.length = 2 * s.ft.length - 1 ∧
        exec .treeBuild s = .next (State.succeeded
          { s with nodes := arena, status := { s.status with treeValid := true, codesValid := false } }
          (word (2 * s.ft.length - 2)) (word (2 * s.ft.length - 1)) 0#32))

/-- R143: NODE_GET reads one node: (freq, symbol, ALL1) of a leaf, (freq, left, right) of an internal node; it fails
with TREE_NOT_VALID, then BAD_INDEX. -/
def Obligations.NodeGetReadsNode : Prop :=
  encode .nodeGet = 0x00000021#32 ∧
  ∀ s : State, s.status.err = false →
    (s.status.treeValid = false → exec .nodeGet s = .next (s.failed 0x21#8 0x16#8 0#32 0#32)) ∧
    (s.status.treeValid = true → s.nodes.length ≤ s.arg0.toNat →
      exec .nodeGet s = .next (s.failed 0x21#8 0x15#8 s.arg0 (word s.nodes.length))) ∧
    (∀ sym f, s.status.treeValid = true → s.nodes[s.arg0.toNat]? = some (.leaf sym f) →
      exec .nodeGet s = .next (s.succeeded f (zext32 sym) 0xFFFFFFFF#32)) ∧
    (∀ f l r, s.status.treeValid = true → s.nodes[s.arg0.toNat]? = some (.internal f l r) →
      exec .nodeGet s = .next (s.succeeded f (word l) (word r)))

/-- R31, R142: the arena of a table whose counts sum below 2^32 is a strict binary tree with the leaves first:
children have smaller indices, every node but the root has exactly one parent, every frequency is the sum of its
children's. -/
def Obligations.ArenaIsStrictBinaryTree : Prop :=
  ∀ ft : List FreqEntry, ft ≠ [] → countSum ft < 2 ^ 32 → ArenaShape (buildArena ft) ft.length

/-- R142: the leaves of the arena are exactly the table's entries, each once, and the arena depends only on the set of
entries, not on their order. -/
def Obligations.ArenaIgnoresInsertionOrder : Prop :=
  ∀ ft ft' : List FreqEntry, UniqueSymbols ft → ft.Perm ft' →
    buildArena ft = buildArena ft' ∧
    ((buildArena ft).take ft.length).Perm (ft.map (fun e => .leaf e.sym e.count))

/-! ## Code table -/

/-- R160, R161: CODE_GEN fails with TREE_NOT_VALID; on the tree of the current table it gives a single leaf the code
"0" and every leaf of a larger tree the path from the root to it, and returns (NSYM, the longest length, 0). -/
def Obligations.CodeGenDerivesPaths : Prop :=
  encode .codeGen = 0x00000030#32 ∧
  ∀ s : State, s.status.err = false →
    (s.status.treeValid = false → exec .codeGen s = .next (s.failed 0x30#8 0x16#8 0#32 0#32)) ∧
    (s.status.treeValid = true → s.TreeOk →
      ∃ (codes : List Code) (longest : Nat),
        codes.length = s.ft.length ∧
        (s.nodes.length = 1 → codes = [[false]]) ∧
        (s.nodes.length ≠ 1 → ∀ k (h : k < codes.length), IsPath s.nodes (s.nodes.length - 1) k codes[k]) ∧
        (∀ c ∈ codes, c.length ≤ longest) ∧ (∃ c ∈ codes, c.length = longest) ∧
        exec .codeGen s = .next (State.succeeded
          { s with codes := codes, status := { s.status with codesValid := true } }
          (word s.ft.length) (word longest) 0#32))

/-- R163: CODE_GET returns the code's length, its word ARG1 (first bit of each 32-bit group in bit 31, 0 past the end)
and the leaf index; it fails with CODES_NOT_VALID, then UNKNOWN_SYMBOL. -/
def Obligations.CodeGetReadsCodeWord : Prop :=
  encode .codeGet = 0x00000031#32 ∧
  ∀ s : State, s.status.err = false →
    (s.status.codesValid = false → exec .codeGet s = .next (s.failed 0x31#8 0x17#8 0#32 0#32)) ∧
    (s.status.codesValid = true → s.NoLeaf s.arg0 →
      exec .codeGet s = .next (s.failed 0x31#8 0x02#8 s.arg0 0#32)) ∧
    (∀ k c, s.status.codesValid = true → s.LeafFor s.arg0 k → s.codes[k]? = some c →
      ∃ v : Word, (∀ j, j < 32 → v.getLsbD (31 - j) = c.getD (32 * s.arg1.toNat + j) false) ∧
        exec .codeGet s = .next (s.succeeded (word c.length) v (word k)))

/-- R162: the code table of any table has one code per symbol, each of length 1 to max(1, n-1), and no code is a
prefix of the code of another symbol. -/
def Obligations.CodesArePrefixFree : Prop :=
  ∀ ft : List FreqEntry, ft ≠ [] →
    (deriveCodes (buildArena ft) ft.length).length = ft.length ∧
    (∀ c ∈ deriveCodes (buildArena ft) ft.length, 1 ≤ c.length ∧ c.length ≤ max 1 (ft.length - 1)) ∧
    (deriveCodes (buildArena ft) ft.length).Pairwise (fun c d => ¬ c <+: d ∧ ¬ d <+: c)

/-! ## Codec -/

/-- R181: ENCODE_SYMBOL appends the code of the symbol's leaf and returns (length, new BITLEN, leaf index); it fails
with CODES_NOT_VALID, UNKNOWN_SYMBOL or BUFFER_OVERFLOW. The bytes it stores to start at byte BITLEN div 8. -/
def Obligations.EncodeSymbolAppendsCode : Prop :=
  encode .encodeSymbol = 0x00000040#32 ∧
  ∀ s : State, s.status.err = false →
    (s.status.codesValid = false → exec .encodeSymbol s = .next (s.failed 0x40#8 0x17#8 0#32 0#32)) ∧
    (s.status.codesValid = true → s.NoLeaf s.arg0 →
      exec .encodeSymbol s = .next (s.failed 0x40#8 0x02#8 s.arg0 0#32)) ∧
    (∀ k c, s.status.codesValid = true → s.LeafFor s.arg0 k → s.codes[k]? = some c →
      8 * s.cfg.pbufBytes < s.bitlen + c.length →
      exec .encodeSymbol s = .next (s.failed 0x40#8 0x19#8 (word s.bitlen) (word c.length))) ∧
    (∀ k c, s.status.codesValid = true → s.LeafFor s.arg0 k → s.codes[k]? = some c →
      s.bitlen + c.length ≤ 8 * s.cfg.pbufBytes →
      ∃ m, Appended s (s.withPbuf m) c ∧
        exec .encodeSymbol s = .next (State.succeeded
          { s with pbuf := m, bitlen := s.bitlen + c.length }
          (word c.length) (word (s.bitlen + c.length)) (word k)))

/-- R185: DECODE_SYMBOL: TREE_NOT_VALID; EOS at or past BITLEN; on a one-leaf tree a 0 bit is the symbol and a 1 bit
fails with INVALID_CODE_BIT; on a larger tree the stream bits of the path to a leaf give its symbol and move RDPTR
past them, and a stream that ends at an internal node fails with TRUNCATED_STREAM. -/
def Obligations.DecodeSymbolWalksTree : Prop :=
  encode .decodeSymbol = 0x00000041#32 ∧
  ∀ s : State, s.status.err = false →
    (s.status.treeValid = false → exec .decodeSymbol s = .next (s.failed 0x41#8 0x16#8 0#32 0#32)) ∧
    (s.status.treeValid = true → s.bitlen ≤ s.rdptr →
      exec .decodeSymbol s = .next (s.succeeded 0#32 0#32 1#32)) ∧
    (∀ sym f, s.status.treeValid = true → s.rdptr < s.bitlen →
      s.nodes[s.nodes.length - 1]? = some (.leaf sym f) → s.streamBit s.rdptr = false →
      exec .decodeSymbol s = .next (State.succeeded { s with rdptr := s.rdptr + 1 } (zext32 sym) 1#32 0#32)) ∧
    (∀ sym f, s.status.treeValid = true → s.rdptr < s.bitlen →
      s.nodes[s.nodes.length - 1]? = some (.leaf sym f) → s.streamBit s.rdptr = true →
      exec .decodeSymbol s = .next (s.failed 0x41#8 0x1B#8 (word s.rdptr) 1#32)) ∧
    (∀ k c sym f, s.status.treeValid = true → c ≠ [] → s.rdptr + c.length ≤ s.bitlen →
      IsPath s.nodes (s.nodes.length - 1) k c → s.nodes[k]? = some (.leaf sym f) → s.StreamHas s.rdptr c →
      exec .decodeSymbol s = .next (State.succeeded
        { s with rdptr := s.rdptr + c.length } (zext32 sym) (word c.length) 0#32)) ∧
    (∀ k c f l r, s.status.treeValid = true → c ≠ [] → s.rdptr + c.length = s.bitlen →
      IsPath s.nodes (s.nodes.length - 1) k c → s.nodes[k]? = some (.internal f l r) → s.StreamHas s.rdptr c →
      exec .decodeSymbol s = .next (s.failed 0x41#8 0x03#8 (word s.rdptr) (word c.length)))

/-- R185, padding is never decoded: the bits at and past BITLEN do not affect DECODE_SYMBOL. -/
def Obligations.DecodeNeverReadsPastBitlen : Prop :=
  ∀ (s t : State) (m : Memory), (∀ p, p < s.bitlen → (s.withPbuf m).streamBit p = s.streamBit p) →
    exec .decodeSymbol s = .next t → exec .decodeSymbol (s.withPbuf m) = .next (t.withPbuf m)

/-- R182: encoding a text into an empty stream leaves the concatenation of its symbols' codes, with BITLEN its length
and zero padding. -/
def Obligations.EncodedTextIsCodeConcatenation : Prop :=
  ∀ (s t : State) (text : List Word), s.Inv → s.status.err = false → s.bitlen = 0 →
    encodeText text s = some t →
    ∃ codes : List Code,
      List.Forall₂ (fun v c => ∃ k, s.LeafFor v k ∧ s.codes[k]? = some c) text codes ∧
      t.bitlen = codes.flatten.length ∧ t.StreamHas 0 codes.flatten ∧ t.PaddingZero

/-- R186, the round trip: a text encoded on one block decodes, on any block whose table holds the same entries in any
order and whose stream holds the same bits, to the same symbols, and the decoding ends there, at EOS. -/
def Obligations.DecodeOfEncodedTextIsText : Prop :=
  ∀ (s t u : State) (text : List Word) (rounds : Nat),
    s.Inv → s.status.err = false → s.bitlen = 0 → encodeText text s = some t →
    u.Inv → u.status.err = false → u.status.treeValid = true → u.ft.Perm s.ft →
    u.bitlen = t.bitlen → u.rdptr = 0 → (∀ p, p < t.bitlen → u.streamBit p = t.streamBit p) →
    text.length < rounds →
    ∃ v, decodeText rounds u = some (text, v) ∧ v.rdptr = t.bitlen ∧ v.res0 = 0#32

/-! ## Bit packer -/

/-- R200: STREAM_RESET sets BITLEN and RDPTR to 0 and changes nothing else. -/
def Obligations.StreamResetEmptiesStream : Prop :=
  encode .streamReset = 0x00000050#32 ∧
  ∀ s : State, s.status.err = false →
    exec .streamReset s = .next (State.succeeded { s with bitlen := 0, rdptr := 0 } 0#32 0#32 0#32)

/-- R201: PUT_BITS appends the n low bits of ARG0, most significant first, or fails with BAD_LENGTH, then
BUFFER_OVERFLOW. -/
def Obligations.PutBitsAppendsLowBits : Prop :=
  encode .putBits = 0x00000051#32 ∧
  ∀ s : State, s.status.err = false →
    (32 < s.arg1.toNat → exec .putBits s = .next (s.failed 0x51#8 0x18#8 s.arg1 32#32)) ∧
    (s.arg1.toNat ≤ 32 → 8 * s.cfg.pbufBytes < s.bitlen + s.arg1.toNat →
      exec .putBits s = .next (s.failed 0x51#8 0x19#8 (word s.bitlen) s.arg1)) ∧
    (s.arg1.toNat ≤ 32 → s.bitlen + s.arg1.toNat ≤ 8 * s.cfg.pbufBytes →
      ∃ (m : Memory) (bits : Code), bits.length = s.arg1.toNat ∧
        (∀ j (h : j < bits.length), bits[j] = s.arg0.getLsbD (s.arg1.toNat - 1 - j)) ∧
        Appended s (s.withPbuf m) bits ∧
        exec .putBits s = .next (State.succeeded
          { s with pbuf := m, bitlen := s.bitlen + s.arg1.toNat } (word (s.bitlen + s.arg1.toNat)) 0#32 0#32))

/-- R202: GET_BITS returns the n stream bits at RDPTR, the first one most significant, and moves RDPTR past them; it
fails with BAD_LENGTH, then READ_PAST_END beyond PADLEN. -/
def Obligations.GetBitsReadsStream : Prop :=
  encode .getBits = 0x00000052#32 ∧
  ∀ s : State, s.status.err = false →
    (32 < s.arg1.toNat → exec .getBits s = .next (s.failed 0x52#8 0x18#8 s.arg1 32#32)) ∧
    (s.arg1.toNat ≤ 32 → 8 * ((s.bitlen + 7) / 8) < s.rdptr + s.arg1.toNat →
      exec .getBits s = .next (s.failed 0x52#8 0x1A#8 (word s.rdptr) s.arg1)) ∧
    (s.arg1.toNat ≤ 32 → s.rdptr + s.arg1.toNat ≤ 8 * ((s.bitlen + 7) / 8) →
      ∃ v : Word,
        (∀ j, j < s.arg1.toNat → v.getLsbD (s.arg1.toNat - 1 - j) = s.streamBit (s.rdptr + j)) ∧
        (∀ j, s.arg1.toNat ≤ j → v.getLsbD j = false) ∧
        exec .getBits s = .next (State.succeeded
          { s with rdptr := s.rdptr + s.arg1.toNat } v (word (s.rdptr + s.arg1.toNat)) 0#32))

/-- R203: SET_BITLEN sets BITLEN, sets RDPTR to 0, zeroes the padding bits of the last partial byte and leaves every
other bit of PBUF; it fails with BAD_LENGTH above CAP_BITS. -/
def Obligations.SetBitlenZeroesPadding : Prop :=
  encode .setBitlen = 0x00000053#32 ∧
  ∀ s : State, s.status.err = false →
    (8 * s.cfg.pbufBytes < s.arg0.toNat →
      exec .setBitlen s = .next (s.failed 0x53#8 0x18#8 s.arg0 (word (8 * s.cfg.pbufBytes)))) ∧
    (s.arg0.toNat ≤ 8 * s.cfg.pbufBytes →
      ∃ m : Memory,
        (∀ p, s.arg0.toNat ≤ p → p < 8 * ((s.arg0.toNat + 7) / 8) → (s.withPbuf m).streamBit p = false) ∧
        (∀ p, p < s.arg0.toNat → (s.withPbuf m).streamBit p = s.streamBit p) ∧
        (∀ i, i ≠ s.arg0.toNat / 8 → (s.withPbuf m).readByte i = s.readByte i) ∧
        (s.arg0.toNat % 8 = 0 → m = s.pbuf) ∧
        exec .setBitlen s = .next (State.succeeded
          { s with pbuf := m, bitlen := s.arg0.toNat, rdptr := 0 } s.arg0 (word ((s.arg0.toNat + 7) / 8)) 0#32))

/-- R204: SEEK_RD moves RDPTR to a position up to BITLEN, or fails with BAD_LENGTH. -/
def Obligations.SeekRdMovesReadPointer : Prop :=
  encode .seekRd = 0x00000054#32 ∧
  ∀ s : State, s.status.err = false →
    (s.bitlen < s.arg0.toNat → exec .seekRd s = .next (s.failed 0x54#8 0x18#8 s.arg0 (word s.bitlen))) ∧
    (s.arg0.toNat ≤ s.bitlen →
      exec .seekRd s = .next (State.succeeded { s with rdptr := s.arg0.toNat } s.arg0 0#32 0#32))

/-- R66: StreamAppend puts one bit at position BITLEN, clears the byte it enters, and moves BITLEN by one. -/
def Obligations.StreamAppendWritesOneBit : Prop :=
  ∀ (s : State) (b : Bool), s.bitlen < s.cfg.capBits →
    ∃ m, s.streamAppend b = { s with pbuf := m, bitlen := s.bitlen + 1 } ∧
      (∀ i, i ≠ s.bitlen / 8 → (s.withPbuf m).readByte i = s.readByte i) ∧
      ∀ k, k < 8 → ((s.withPbuf m).readByte (s.bitlen / 8)).getLsbD k =
        if k = 7 - s.bitlen % 8 then b
        else if s.bitlen % 8 = 0 then false
        else (s.readByte (s.bitlen / 8)).getLsbD k

/-- R205: STREAM_RESET, then PUT_BITS commands: the stream is the concatenation of their bits, BITLEN is its length,
and the rest of the last byte is 0, whatever PBUF held before. -/
def Obligations.PutBitsSequencePacksItsBits : Prop :=
  ∀ (s s0 t : State) (chunks : List (Word × Word)), s.status.err = false →
    exec .streamReset s = .next s0 → putChunks chunks s0 = some t →
    t.bitlen = (chunkBits chunks).length ∧ t.StreamHas 0 (chunkBits chunks) ∧ t.PaddingZero

/-- R67: while the padding bits of the stream are 0, no command makes them anything else, and no step at all does but a
window write that the port performs. -/
def Obligations.CommandsKeepPaddingZero : Prop :=
  (∀ (w : Word) (s t : State), s.PaddingZero → performWord w s = .next t → t.PaddingZero) ∧
  ∀ s t : State, s.PaddingZero → ¬ s.windowWriteNext → step s = .next t → t.PaddingZero

/-! ## Errors, flags, interrupt -/

/-- R223: a failed command is precise: the state after it is the state before it, with ERR, ERRCODE (bits [7:0] of the
command word and a code of R221's table), EINFO0 and EINFO1 captured and BUSY and DONE changed. -/
def Obligations.FailedCommandIsPrecise : Prop :=
  ∀ (w : Word) (s t : State), s.status.err = false → performWord w s = .next t → t.status.err = true →
    ∃ code ∈ raisedCodes, ∃ info0 info1, t = s.failed (w.extractLsb' 0 8) code info0 info1

/-- Every command has a defined outcome from every state, and its end clears BUSY and sets DONE (R40, R253). -/
def Obligations.EveryCommandEndsNotBusyAndDone : Prop :=
  ∀ (w : Word) (s : State), ∃ t, performWord w s = .next t ∧ t.busy = false ∧ t.status.done = true

/-- R226: writing 1 to STATUS bit 2 while BUSY = 0 clears ERR, ERRCODE, EINFO0 and EINFO1, applies the DONE and WOB
bits of the same write, and changes nothing else; RESET and a hardware reset clear the same registers. -/
def Obligations.ErrorClearWrite : Prop :=
  (∀ (s : State) (l : List Input) (v : Word), s.busy = false → s.resetHeld = false → v.getLsbD 2 = true →
    step (s.withInputs (.write 0x010 4 v :: l)) = .next
      { s with
        errcode := 0#32, einfo0 := 0#32, einfo1 := 0#32,
        status :=
          { s.status with
            err := false, done := s.status.done && !v.getLsbD 1, wob := s.status.wob && !v.getLsbD 3 },
        env := { s.env with inputs := l } }) ∧
  (∀ s t : State, exec .reset s = .next t ∨ takeInput s .assertReset = .next t →
    t.status.err = false ∧ t.errcode = 0#32 ∧ t.einfo0 = 0#32 ∧ t.einfo1 = 0#32)

/-- A write to STATUS while BUSY = 0 clears DONE, ERR and WOB where its bits 1, 2 and 3 are 1, leaves them where the
bits are 0, clears the error registers with ERR, and changes nothing else: no other bit of STATUS and no other state
(R24, R38, R226). -/
def Obligations.StatusWriteOneToClear : Prop :=
  ∀ (s : State) (l : List Input) (v : Word), s.busy = false → s.resetHeld = false →
    ∃ t : State, step (s.withInputs (.write 0x010 4 v :: l)) = .next t ∧
      t =
        { s with
          status :=
            { s.status with
              done := s.status.done && !v.getLsbD 1
              err := s.status.err && !v.getLsbD 2
              wob := s.status.wob && !v.getLsbD 3 },
          errcode := if v.getLsbD 2 then 0#32 else s.errcode,
          einfo0 := if v.getLsbD 2 then 0#32 else s.einfo0,
          einfo1 := if v.getLsbD 2 then 0#32 else s.einfo1,
          env := { s.env with inputs := l } } ∧
      ∀ k, t.statusWord.getLsbD k = (s.statusWord.getLsbD k && !(decide (1 ≤ k ∧ k ≤ 3) && v.getLsbD k))

/-- The layout of STATUS: BUSY, DONE, ERR, WOB, TREE_VALID, CODES_VALID in bits 0 to 5, the rest 0; BUSY is 1 exactly
when a command is pending (R24, R35). -/
def Obligations.StatusBitLayout : Prop :=
  ∀ s : State,
    (s.statusWord.getLsbD 0 = true ↔ s.pending ≠ none) ∧
    s.statusWord.getLsbD 1 = s.status.done ∧ s.statusWord.getLsbD 2 = s.status.err ∧
    s.statusWord.getLsbD 3 = s.status.wob ∧ s.statusWord.getLsbD 4 = s.status.treeValid ∧
    s.statusWord.getLsbD 5 = s.status.codesValid ∧ ∀ k, 6 ≤ k → s.statusWord.getLsbD k = false

/-- R23: CTRL is 0 at reset; a write to it while BUSY = 0 sets IE_DONE and IE_ERR from bits 0 and 1 and changes nothing
else, its other bits are ignored, and CTRL reads them back with bits [31:2] 0; IE_DONE asserts IRQ while DONE = 1,
IE_ERR while ERR = 1. -/
def Obligations.CtrlWriteSetsEnables : Prop :=
  State.reset.ctrlWord = 0#32 ∧
  ∀ (s : State) (l : List Input) (v : Word), s.busy = false → s.resetHeld = false →
    ∃ t : State, step (s.withInputs (.write 0x00C 4 v :: l)) = .next t ∧
      t = { s with ctrl := { ieDone := v.getLsbD 0, ieErr := v.getLsbD 1 }, env := { s.env with inputs := l } } ∧
      t.ctrlWord = v &&& 3#32 ∧
      (t.irq = true ↔ (v.getLsbD 0 = true ∧ s.status.done = true) ∨ (v.getLsbD 1 = true ∧ s.status.err = true))

/-- The done interrupt: after any command but RESET ends, IRQ is asserted if IE_DONE = 1, or if IE_ERR = 1 and ERR =
1, and only then; after RESET it is not asserted (R230, R40, R111). -/
def Obligations.CommandEndRaisesIrq : Prop :=
  ∀ (i : Instr) (s t : State), exec i s = .next t →
    (i ≠ .reset → (t.irq = true ↔ s.ctrl.ieDone = true ∨ (s.ctrl.ieErr = true ∧ t.status.err = true))) ∧
    (i = .reset → t.irq = false)

/-- No command but RESET writes CTRL, ARG0 or ARG1, clears ERR or changes WOB, and none at all changes the
configuration or what the outside world does next (R28, R42, R24). -/
def Obligations.CommandsKeepOperandsAndControl : Prop :=
  ∀ (i : Instr) (s t : State), exec i s = .next t →
    t.cfg = s.cfg ∧ t.env = s.env ∧ t.resetHeld = s.resetHeld ∧
    (i ≠ .reset → t.arg0 = s.arg0 ∧ t.arg1 = s.arg1 ∧ t.ctrl = s.ctrl ∧ t.status.wob = s.status.wob ∧
      (s.status.err = true → t = s.rejected))

/-- The validity flags: a successful FREQ_CLEAR, FREQ_COUNT or FREQ_SET clears both and NODES; only a successful
TREE_BUILD sets TREE_VALID, and it clears CODES_VALID; only a successful CODE_GEN sets CODES_VALID; every other
command but RESET leaves both and the arena (R34). -/
def Obligations.OnlyTheirCommandsChangeValidity : Prop :=
  ∀ (i : Instr) (s t : State), i ≠ .reset → s.status.err = false → exec i s = .next t → t.status.err = false →
    (i = .freqClear ∨ i = .freqCount ∨ i = .freqSet →
      t.status.treeValid = false ∧ t.status.codesValid = false ∧ t.nodes = []) ∧
    (i = .treeBuild → t.status.treeValid = true ∧ t.status.codesValid = false) ∧
    (i = .codeGen → t.status.treeValid = s.status.treeValid ∧ t.status.codesValid = true ∧ t.nodes = s.nodes) ∧
    (i ∉ [Instr.freqClear, .freqCount, .freqSet, .treeBuild, .codeGen] →
      t.status.treeValid = s.status.treeValid ∧ t.status.codesValid = s.status.codesValid ∧
      t.nodes = s.nodes ∧ t.codes = s.codes ∧ t.ft = s.ft ∧ t.total = s.total)

/-! ## The host port -/

/-- While BUSY = 0 an admitted read of each register of the map returns that register and changes nothing of the block
(R20 to R29). -/
def Obligations.IdleReadReturnsRegister : Prop :=
  ∀ (s : State) (l : List Input), s.busy = false → s.resetHeld = false →
    ∀ off v, (off, v) ∈
      [(0x000, 0x48554631#32), (0x004, word s.cfg.symCap), (0x008, word s.cfg.pbufBytes), (0x00C, s.ctrlWord),
       (0x010, s.statusWord), (0x014, 0#32), (0x018, s.arg0), (0x01C, s.arg1), (0x020, s.res0), (0x024, s.res1),
       (0x028, s.res2), (0x02C, s.errcode), (0x030, s.einfo0), (0x034, s.einfo1), (0x038, word s.ft.length),
       (0x03C, s.total), (0x040, word s.bitlen), (0x044, word s.rdptr), (0x048, word s.nodes.length)] →
      step (s.withInputs (.read off 4 :: l)) =
        .next { s with env := { s.env with inputs := l, reply := some v } }

/-- R36: while BUSY = 1 an admitted read of ID, CAP_SYMS, CAP_BYTES, CTRL, STATUS, CMD, ARG0 or ARG1 returns its
value, and any other admitted read returns the next free value; neither changes the block. -/
def Obligations.BusyReadIsDefinedOrFresh : Prop :=
  ∀ (s : State) (l : List Input), s.busy = true → s.resetHeld = false →
    (∀ off v, (off, v) ∈
      [(0x000, 0x48554631#32), (0x004, word s.cfg.symCap), (0x008, word s.cfg.pbufBytes), (0x00C, s.ctrlWord),
       (0x010, s.statusWord), (0x014, 0#32), (0x018, s.arg0), (0x01C, s.arg1)] →
      step (s.withInputs (.read off 4 :: l)) =
        .next { s with env := { s.env with inputs := l, reply := some v } }) ∧
    (∀ off, 0x020 ≤ off → admitted s.cfg off 4 = true →
      step (s.withInputs (.read off 4 :: l)) =
        .next { s with env :=
          { s.env with inputs := l, reply := some (Config.busyRead s.env.draws), draws := s.env.draws + 1 } })

/-- R37: while BUSY = 1 an admitted write to any offset has no effect except STATUS.WOB <- 1. -/
def Obligations.BusyWriteIsDropped : Prop :=
  ∀ (s : State) (l : List Input) (off : Nat) (v : Word), s.busy = true → s.resetHeld = false →
    admitted s.cfg off 4 = true →
    step (s.withInputs (.write off 4 v :: l)) =
      .next { s with status := { s.status with wob := true }, env := { s.env with inputs := l } }

/-- While BUSY = 0 a write to ARG0 or ARG1 stores its 32 bits, and a write to a read-only register changes nothing
(R28, R38). -/
def Obligations.IdleWriteStoresOperandOrIsIgnored : Prop :=
  ∀ (s : State) (l : List Input) (v : Word), s.busy = false → s.resetHeld = false →
    step (s.withInputs (.write 0x018 4 v :: l)) = .next { s with arg0 := v, env := { s.env with inputs := l } } ∧
    step (s.withInputs (.write 0x01C 4 v :: l)) = .next { s with arg1 := v, env := { s.env with inputs := l } } ∧
    ∀ off ∈ [0x000, 0x004, 0x008, 0x020, 0x024, 0x028, 0x02C, 0x030, 0x034, 0x038, 0x03C, 0x040, 0x044, 0x048],
      step (s.withInputs (.write off 4 v :: l)) = .next (s.withInputs l)

/-- R41: a write of any word to CMD while BUSY = 0 makes it the pending command, sets BUSY, clears DONE and changes
nothing else. -/
def Obligations.CmdWriteAcceptsCommand : Prop :=
  ∀ (s : State) (l : List Input) (w : Word), s.busy = false → s.resetHeld = false →
    ∃ t : State, step (s.withInputs (.write 0x014 4 w :: l)) = .next t ∧ t.busy = true ∧
      t = { s with pending := some w, status := { s.status with done := false }, env := { s.env with inputs := l } }

/-- R62: a reserved offset reads 0 and ignores writes while BUSY = 0; while BUSY = 1 a read of it is unspecified and a
write is dropped with WOB; reserved fields of CTRL, STATUS and ERRCODE read 0. -/
def Obligations.ReservedReadsZeroIgnoresWrites : Prop :=
  ∀ (s : State) (l : List Input) (off : Nat) (v : Word), s.resetHeld = false →
    (0x04C ≤ off → off < 0x1000 → off % 4 = 0 →
      (s.busy = false →
        step (s.withInputs (.read off 4 :: l)) =
          .next { s with env := { s.env with inputs := l, reply := some 0#32 } } ∧
        step (s.withInputs (.write off 4 v :: l)) = .next (s.withInputs l)) ∧
      (s.busy = true →
        step (s.withInputs (.read off 4 :: l)) =
          .next { s with env :=
            { s.env with inputs := l, reply := some (Config.busyRead s.env.draws), draws := s.env.draws + 1 } } ∧
        step (s.withInputs (.write off 4 v :: l)) =
          .next { s with status := { s.status with wob := true }, env := { s.env with inputs := l } })) ∧
    (∀ k, 2 ≤ k → s.ctrlWord.getLsbD k = false) ∧
    (∀ k, 6 ≤ k → s.statusWord.getLsbD k = false) ∧
    (s.ErrorOk → ∀ k, 16 ≤ k → s.errcode.getLsbD k = false)

/-- R63: window word m is the bytes 4m to 4m+3 with the lower index in the lower bits; while BUSY = 0 a write of it
sets those four bytes and nothing else, and reads back. -/
def Obligations.WindowWordIsFourBytes : Prop :=
  ∀ (s : State) (l : List Input) (m : Nat) (v : Word), s.busy = false → s.resetHeld = false →
    m < s.cfg.pbufBytes / 4 →
    step (s.withInputs (.read (0x1000 + 4 * m) 4 :: l)) =
      .next { s with env :=
        { s.env with
          inputs := l,
          reply := some (s.readByte (4 * m + 3) ++ s.readByte (4 * m + 2) ++ s.readByte (4 * m + 1) ++ s.readByte (4 * m)) } } ∧
    ∃ p, step (s.withInputs (.write (0x1000 + 4 * m) 4 v :: l)) =
        .next { s with pbuf := p, env := { s.env with inputs := l } } ∧
      (s.withPbuf p).readByte (4 * m) = v.extractLsb' 0 8 ∧
      (s.withPbuf p).readByte (4 * m + 1) = v.extractLsb' 8 8 ∧
      (s.withPbuf p).readByte (4 * m + 2) = v.extractLsb' 16 8 ∧
      (s.withPbuf p).readByte (4 * m + 3) = v.extractLsb' 24 8 ∧
      (s.withPbuf p).windowWord m = v ∧
      ∀ i, i < 4 * m ∨ 4 * m + 4 ≤ i → (s.withPbuf p).readByte i = s.readByte i

/-- R64, R65: stream bit p is bit 7 - (p mod 8) of byte p div 8, and bit 8*((p mod 32) div 8) + 7 - (p mod 8) of
window word p div 32. -/
def Obligations.StreamBitInByteAndWindowWord : Prop :=
  ∀ (s : State) (p : Nat), p < s.cfg.capBits →
    s.streamBit p = (s.readByte (p / 8)).getLsbD (7 - p % 8) ∧
    s.streamBit p = (s.windowWord (p / 32)).getLsbD (8 * ((p % 32) / 8) + 7 - p % 8)

/-- R61: a read or write that is misaligned, not 4 bytes wide, or at or beyond APERTURE is stuck; every other one
outside a hardware reset has a step. -/
def Obligations.OnlyAlignedWordAccessesHaveAStep : Prop :=
  ∀ (s : State) (l : List Input) (off width : Nat) (v : Word), s.resetHeld = false →
    (off % 4 ≠ 0 ∨ width ≠ 4 ∨ 0x1000 + s.cfg.pbufBytes ≤ off →
      step (s.withInputs (.read off width :: l)) = .fault .accessNotAdmitted ∧
      step (s.withInputs (.write off width v :: l)) = .fault .accessNotAdmitted) ∧
    (off % 4 = 0 → width = 4 → off < 0x1000 + s.cfg.pbufBytes →
      (∃ t, step (s.withInputs (.read off width :: l)) = .next t) ∧
      ∃ t, step (s.withInputs (.write off width v :: l)) = .next t)

/-- R71, no host access between acceptance and the engine step changes what the step does: a dropped write before it
leaves only its WOB (which RESET clears), a read before it leaves only the read's own reply. -/
def Obligations.BusyAccessesDoNotAffectCommand : Prop :=
  ∀ (w : Word) (s t : State), s.pending = some w → performWord w s = .next t →
    (∀ tgt v, performWord w (s.hostWrite tgt v) =
      .next (if w = 0x00000001#32 then t else { t with status := { t.status with wob := true } })) ∧
    (∀ tgt, performWord w (s.hostRead tgt) = .next { t with env := (s.hostRead tgt).env })

/-- A bus address inside the aperture of a block placed at BASE reaches the offset addr - BASE, and no other address
reaches the block (R60, R69). -/
def Obligations.BusAddressReachesOffset : Prop :=
  ∀ (c : Params) (base addr off : Nat),
    busOffset c base addr = some off ↔ addr = base + off ∧ off < 0x1000 + c.pbufBytes

/-- R97, R98: a command statement in each operand form, on an idle block, makes its operand writes and its CMD write,
and its WAIT reads STATUS until the engine has had its turn: the command is performed on those operands, the last read
returns BUSY = 0 and the flags the command left, and while the engine has had no turn the statement is not complete. A
WAIT ends only when STATUS.BUSY reads 0, DECODEALL only when RES2 reads 1 or ERR is 1. Whatever a statement does on
whatever schedule (log 22) is a run of `step` whose inputs are the engine's turns and the host's accesses. -/
def Obligations.CommandStatementPerformsCommand : Prop :=
  (∀ (i : Instr) (a b : Option Word) (s : State) (pre : Schedule) (k : Nat), s.busy = false → s.resetHeld = false →
    pre.length = a.toList.length + b.toList.length + 1 →
    (∃ t : State, t.busy = false ∧
      exec i
        { s with
          arg0 := a.getD s.arg0, arg1 := b.getD s.arg1, pending := some (encode i),
          status := { s.status with done := false },
          env := { s.env with reply := if k = 0 then s.env.reply else some (s.acceptCommand (encode i)).statusWord } } =
        .next t ∧
      ∀ rest, (HostStmt.cmd i a b).run s (pre ++ List.replicate k false ++ true :: rest) =
        .complete { t with env := { t.env with reply := some t.statusWord } } rest) ∧
    ∃ u : State, (HostStmt.cmd i a b).run s (pre ++ List.replicate k false) = .unfinished u ∧
      u.pending = some (encode i)) ∧
  (∀ (s t : State) (sched rest : Schedule), (HostStmt.bus .wait).run s sched = .complete t rest →
    t.busy = false ∧ t.env.reply = some t.statusWord) ∧
  (∀ (s t : State) (sched rest : Schedule), HostStmt.decodeAll.run s sched = .complete t rest →
    t.env.reply = some t.res2 ∧ (t.res2 = 1#32 ∨ t.status.err = true)) ∧
  ∀ (b : HostStmt) (s t : State) (sched rest : Schedule), b.run s sched = .complete t rest →
    ∃ ops : List Input, (∀ x ∈ ops, x ≠ .assertReset ∧ x ≠ .releaseReset) ∧
      ∀ l, steps ops.length (s.withInputs (ops ++ l)) = .next (t.withInputs l)

/-! ## Reset -/

/-- Right after a hardware reset the host reads the reset values of R250's table: the constants, 0 everywhere else, no
command pending, IRQ deasserted, and in PBUF one arbitrary byte per index (the free value, log 6). -/
def Obligations.ResetStateReadsResetValues : Prop :=
  State.reset.pending = none ∧ State.reset.irq = false ∧
  (∀ r, State.reset.regValue r =
    match r with
    | .id => 0x48554631#32
    | .capSyms => 256#32
    | .capBytes => 4096#32
    | _ => 0#32) ∧
  ∀ i, State.reset.readByte i = Config.pbufByte 0 i

/-- R251: asserting the hardware reset abandons a pending command, gives every register its reset value and every byte
of PBUF a new arbitrary one; until it is released the host has no step, and then it has. -/
def Obligations.HardwareResetAbandonsCommand : Prop :=
  ∀ (s : State) (l : List Input),
    ∃ t : State, step (s.withInputs (.assertReset :: l)) = .next t ∧
      t = { cfg := s.cfg, ctrl := ⟨false, false⟩,
            status := { done := false, err := false, wob := false, treeValid := false, codesValid := false },
            arg0 := 0#32, arg1 := 0#32, res0 := 0#32, res1 := 0#32, res2 := 0#32,
            errcode := 0#32, einfo0 := 0#32, einfo1 := 0#32, ft := [], total := 0#32, nodes := [], codes := [],
            pbuf := [], bitlen := 0, rdptr := 0, pending := none, resetHeld := true,
            env := { s.env with inputs := l, epoch := s.env.epoch + 1 } } ∧
      (∀ i, t.readByte i = Config.pbufByte (s.env.epoch + 1) i) ∧
      (∀ off width v l', step (t.withInputs (.read off width :: l')) = .fault .accessDuringReset ∧
        step (t.withInputs (.write off width v :: l')) = .fault .accessDuringReset) ∧
      ∀ l', step (t.withInputs (.releaseReset :: l')) = .next { t.withInputs l' with resetHeld := false }

/-! ## Invariants and runs -/

/-- The invariant holds at reset. -/
def Obligations.InvariantHoldsAtReset : Prop := State.reset.Inv

/-- Every step from a state that satisfies the invariant ends in one that does: PBUF stays in canonical form and in
range, BITLEN ≤ CAP_BITS, RDPTR ≤ PADLEN, the table's symbols stay unique scalar values whose counts sum to TOTAL, a
valid tree is the tree of the current table and valid codes are its codes, the error registers are 0 exactly while ERR
= 0, and DONE = 0 while BUSY = 1; and every step but the engine step of a GET_BITS keeps RDPTR ≤ BITLEN (R30 to R34,
R26, R41). -/
def Obligations.StepKeepsInvariant : Prop :=
  ∀ s t : State, s.Inv → step s = .next t →
    t.Inv ∧ (s.rdptr ≤ s.bitlen → ¬ s.performsNext 0x00000052#32 → t.rdptr ≤ t.bitlen)

/-- A run whose inputs the port admits never gets stuck (R61, R251). -/
def Obligations.AdmittedInputsNeverStuck : Prop :=
  ∀ s : State, inputsAdmitted s.cfg s.resetHeld s.env.inputs = true →
    ∃ t, step s = .next t ∧ inputsAdmitted t.cfg t.resetHeld t.env.inputs = true

/-- A pending command is performed within as many steps as there are inputs, and one more, if the inputs are admitted
and hold no hardware reset: the model's form of R262's completion (log 3). -/
def Obligations.PendingCommandIsPerformed : Prop :=
  ∀ (s : State) (w : Word), s.pending = some w → s.resetHeld = false →
    inputsAdmitted s.cfg false s.env.inputs = true → .assertReset ∉ s.env.inputs →
    ∃ k s', k ≤ s.env.inputs.length ∧ steps k s = .next s' ∧ s'.pending = some w ∧
      ∃ l, step s' = performWord w (s'.withInputs l)
end

