-- ==== Sys2Proof/Laws/State.lean ====
section
/-! SUPPORT. For each update of State, each of its fields after the update: all true by rfl, so that no later proof
unfolds a record update. -/

namespace Sys2Proof.Machine

variable (s : State)

/-! ### endCommand -/

@[simp] theorem State.endCommand_cfg : (s.endCommand).cfg = s.cfg := rfl
@[simp] theorem State.endCommand_ctrl : (s.endCommand).ctrl = s.ctrl := rfl
@[simp] theorem State.endCommand_status : (s.endCommand).status = { s.status with done := true } := rfl
@[simp] theorem State.endCommand_arg0 : (s.endCommand).arg0 = s.arg0 := rfl
@[simp] theorem State.endCommand_arg1 : (s.endCommand).arg1 = s.arg1 := rfl
@[simp] theorem State.endCommand_res0 : (s.endCommand).res0 = s.res0 := rfl
@[simp] theorem State.endCommand_res1 : (s.endCommand).res1 = s.res1 := rfl
@[simp] theorem State.endCommand_res2 : (s.endCommand).res2 = s.res2 := rfl
@[simp] theorem State.endCommand_errcode : (s.endCommand).errcode = s.errcode := rfl
@[simp] theorem State.endCommand_einfo0 : (s.endCommand).einfo0 = s.einfo0 := rfl
@[simp] theorem State.endCommand_einfo1 : (s.endCommand).einfo1 = s.einfo1 := rfl
@[simp] theorem State.endCommand_ft : (s.endCommand).ft = s.ft := rfl
@[simp] theorem State.endCommand_total : (s.endCommand).total = s.total := rfl
@[simp] theorem State.endCommand_nodes : (s.endCommand).nodes = s.nodes := rfl
@[simp] theorem State.endCommand_codes : (s.endCommand).codes = s.codes := rfl
@[simp] theorem State.endCommand_pbuf : (s.endCommand).pbuf = s.pbuf := rfl
@[simp] theorem State.endCommand_bitlen : (s.endCommand).bitlen = s.bitlen := rfl
@[simp] theorem State.endCommand_rdptr : (s.endCommand).rdptr = s.rdptr := rfl
@[simp] theorem State.endCommand_pending : (s.endCommand).pending = none := rfl
@[simp] theorem State.endCommand_resetHeld : (s.endCommand).resetHeld = s.resetHeld := rfl
@[simp] theorem State.endCommand_env : (s.endCommand).env = s.env := rfl

/-! ### acceptCommand -/

@[simp] theorem State.acceptCommand_cfg (w : Word) : (s.acceptCommand w).cfg = s.cfg := rfl
@[simp] theorem State.acceptCommand_ctrl (w : Word) : (s.acceptCommand w).ctrl = s.ctrl := rfl
@[simp] theorem State.acceptCommand_status (w : Word) :
    (s.acceptCommand w).status = { s.status with done := false } := rfl
@[simp] theorem State.acceptCommand_arg0 (w : Word) : (s.acceptCommand w).arg0 = s.arg0 := rfl
@[simp] theorem State.acceptCommand_arg1 (w : Word) : (s.acceptCommand w).arg1 = s.arg1 := rfl
@[simp] theorem State.acceptCommand_res0 (w : Word) : (s.acceptCommand w).res0 = s.res0 := rfl
@[simp] theorem State.acceptCommand_res1 (w : Word) : (s.acceptCommand w).res1 = s.res1 := rfl
@[simp] theorem State.acceptCommand_res2 (w : Word) : (s.acceptCommand w).res2 = s.res2 := rfl
@[simp] theorem State.acceptCommand_errcode (w : Word) : (s.acceptCommand w).errcode = s.errcode := rfl
@[simp] theorem State.acceptCommand_einfo0 (w : Word) : (s.acceptCommand w).einfo0 = s.einfo0 := rfl
@[simp] theorem State.acceptCommand_einfo1 (w : Word) : (s.acceptCommand w).einfo1 = s.einfo1 := rfl
@[simp] theorem State.acceptCommand_ft (w : Word) : (s.acceptCommand w).ft = s.ft := rfl
@[simp] theorem State.acceptCommand_total (w : Word) : (s.acceptCommand w).total = s.total := rfl
@[simp] theorem State.acceptCommand_nodes (w : Word) : (s.acceptCommand w).nodes = s.nodes := rfl
@[simp] theorem State.acceptCommand_codes (w : Word) : (s.acceptCommand w).codes = s.codes := rfl
@[simp] theorem State.acceptCommand_pbuf (w : Word) : (s.acceptCommand w).pbuf = s.pbuf := rfl
@[simp] theorem State.acceptCommand_bitlen (w : Word) : (s.acceptCommand w).bitlen = s.bitlen := rfl
@[simp] theorem State.acceptCommand_rdptr (w : Word) : (s.acceptCommand w).rdptr = s.rdptr := rfl
@[simp] theorem State.acceptCommand_pending (w : Word) : (s.acceptCommand w).pending = some w := rfl
@[simp] theorem State.acceptCommand_resetHeld (w : Word) : (s.acceptCommand w).resetHeld = s.resetHeld := rfl
@[simp] theorem State.acceptCommand_env (w : Word) : (s.acceptCommand w).env = s.env := rfl

/-! ### dropWrite -/

@[simp] theorem State.dropWrite_cfg : (s.dropWrite).cfg = s.cfg := rfl
@[simp] theorem State.dropWrite_ctrl : (s.dropWrite).ctrl = s.ctrl := rfl
@[simp] theorem State.dropWrite_status : (s.dropWrite).status = { s.status with wob := true } := rfl
@[simp] theorem State.dropWrite_arg0 : (s.dropWrite).arg0 = s.arg0 := rfl
@[simp] theorem State.dropWrite_arg1 : (s.dropWrite).arg1 = s.arg1 := rfl
@[simp] theorem State.dropWrite_res0 : (s.dropWrite).res0 = s.res0 := rfl
@[simp] theorem State.dropWrite_res1 : (s.dropWrite).res1 = s.res1 := rfl
@[simp] theorem State.dropWrite_res2 : (s.dropWrite).res2 = s.res2 := rfl
@[simp] theorem State.dropWrite_errcode : (s.dropWrite).errcode = s.errcode := rfl
@[simp] theorem State.dropWrite_einfo0 : (s.dropWrite).einfo0 = s.einfo0 := rfl
@[simp] theorem State.dropWrite_einfo1 : (s.dropWrite).einfo1 = s.einfo1 := rfl
@[simp] theorem State.dropWrite_ft : (s.dropWrite).ft = s.ft := rfl
@[simp] theorem State.dropWrite_total : (s.dropWrite).total = s.total := rfl
@[simp] theorem State.dropWrite_nodes : (s.dropWrite).nodes = s.nodes := rfl
@[simp] theorem State.dropWrite_codes : (s.dropWrite).codes = s.codes := rfl
@[simp] theorem State.dropWrite_pbuf : (s.dropWrite).pbuf = s.pbuf := rfl
@[simp] theorem State.dropWrite_bitlen : (s.dropWrite).bitlen = s.bitlen := rfl
@[simp] theorem State.dropWrite_rdptr : (s.dropWrite).rdptr = s.rdptr := rfl
@[simp] theorem State.dropWrite_pending : (s.dropWrite).pending = s.pending := rfl
@[simp] theorem State.dropWrite_resetHeld : (s.dropWrite).resetHeld = s.resetHeld := rfl
@[simp] theorem State.dropWrite_env : (s.dropWrite).env = s.env := rfl

/-! ### writeCtrl -/

@[simp] theorem State.writeCtrl_cfg (v : Word) : (s.writeCtrl v).cfg = s.cfg := rfl
@[simp] theorem State.writeCtrl_ctrl (v : Word) :
    (s.writeCtrl v).ctrl = { ieDone := v.getLsbD 0, ieErr := v.getLsbD 1 } := rfl
@[simp] theorem State.writeCtrl_status (v : Word) : (s.writeCtrl v).status = s.status := rfl
@[simp] theorem State.writeCtrl_arg0 (v : Word) : (s.writeCtrl v).arg0 = s.arg0 := rfl
@[simp] theorem State.writeCtrl_arg1 (v : Word) : (s.writeCtrl v).arg1 = s.arg1 := rfl
@[simp] theorem State.writeCtrl_res0 (v : Word) : (s.writeCtrl v).res0 = s.res0 := rfl
@[simp] theorem State.writeCtrl_res1 (v : Word) : (s.writeCtrl v).res1 = s.res1 := rfl
@[simp] theorem State.writeCtrl_res2 (v : Word) : (s.writeCtrl v).res2 = s.res2 := rfl
@[simp] theorem State.writeCtrl_errcode (v : Word) : (s.writeCtrl v).errcode = s.errcode := rfl
@[simp] theorem State.writeCtrl_einfo0 (v : Word) : (s.writeCtrl v).einfo0 = s.einfo0 := rfl
@[simp] theorem State.writeCtrl_einfo1 (v : Word) : (s.writeCtrl v).einfo1 = s.einfo1 := rfl
@[simp] theorem State.writeCtrl_ft (v : Word) : (s.writeCtrl v).ft = s.ft := rfl
@[simp] theorem State.writeCtrl_total (v : Word) : (s.writeCtrl v).total = s.total := rfl
@[simp] theorem State.writeCtrl_nodes (v : Word) : (s.writeCtrl v).nodes = s.nodes := rfl
@[simp] theorem State.writeCtrl_codes (v : Word) : (s.writeCtrl v).codes = s.codes := rfl
@[simp] theorem State.writeCtrl_pbuf (v : Word) : (s.writeCtrl v).pbuf = s.pbuf := rfl
@[simp] theorem State.writeCtrl_bitlen (v : Word) : (s.writeCtrl v).bitlen = s.bitlen := rfl
@[simp] theorem State.writeCtrl_rdptr (v : Word) : (s.writeCtrl v).rdptr = s.rdptr := rfl
@[simp] theorem State.writeCtrl_pending (v : Word) : (s.writeCtrl v).pending = s.pending := rfl
@[simp] theorem State.writeCtrl_resetHeld (v : Word) : (s.writeCtrl v).resetHeld = s.resetHeld := rfl
@[simp] theorem State.writeCtrl_env (v : Word) : (s.writeCtrl v).env = s.env := rfl

/-! ### clearError -/

@[simp] theorem State.clearError_cfg : (s.clearError).cfg = s.cfg := rfl
@[simp] theorem State.clearError_ctrl : (s.clearError).ctrl = s.ctrl := rfl
@[simp] theorem State.clearError_status : (s.clearError).status = { s.status with err := false } := rfl
@[simp] theorem State.clearError_arg0 : (s.clearError).arg0 = s.arg0 := rfl
@[simp] theorem State.clearError_arg1 : (s.clearError).arg1 = s.arg1 := rfl
@[simp] theorem State.clearError_res0 : (s.clearError).res0 = s.res0 := rfl
@[simp] theorem State.clearError_res1 : (s.clearError).res1 = s.res1 := rfl
@[simp] theorem State.clearError_res2 : (s.clearError).res2 = s.res2 := rfl
@[simp] theorem State.clearError_errcode : (s.clearError).errcode = 0#32 := rfl
@[simp] theorem State.clearError_einfo0 : (s.clearError).einfo0 = 0#32 := rfl
@[simp] theorem State.clearError_einfo1 : (s.clearError).einfo1 = 0#32 := rfl
@[simp] theorem State.clearError_ft : (s.clearError).ft = s.ft := rfl
@[simp] theorem State.clearError_total : (s.clearError).total = s.total := rfl
@[simp] theorem State.clearError_nodes : (s.clearError).nodes = s.nodes := rfl
@[simp] theorem State.clearError_codes : (s.clearError).codes = s.codes := rfl
@[simp] theorem State.clearError_pbuf : (s.clearError).pbuf = s.pbuf := rfl
@[simp] theorem State.clearError_bitlen : (s.clearError).bitlen = s.bitlen := rfl
@[simp] theorem State.clearError_rdptr : (s.clearError).rdptr = s.rdptr := rfl
@[simp] theorem State.clearError_pending : (s.clearError).pending = s.pending := rfl
@[simp] theorem State.clearError_resetHeld : (s.clearError).resetHeld = s.resetHeld := rfl
@[simp] theorem State.clearError_env : (s.clearError).env = s.env := rfl

/-! ### clearDoneWob -/

@[simp] theorem State.clearDoneWob_cfg (v : Word) : (s.clearDoneWob v).cfg = s.cfg := rfl
@[simp] theorem State.clearDoneWob_ctrl (v : Word) : (s.clearDoneWob v).ctrl = s.ctrl := rfl
@[simp] theorem State.clearDoneWob_status (v : Word) :
    (s.clearDoneWob v).status =
      { s.status with done := s.status.done && !v.getLsbD 1, wob := s.status.wob && !v.getLsbD 3 } := rfl
@[simp] theorem State.clearDoneWob_arg0 (v : Word) : (s.clearDoneWob v).arg0 = s.arg0 := rfl
@[simp] theorem State.clearDoneWob_arg1 (v : Word) : (s.clearDoneWob v).arg1 = s.arg1 := rfl
@[simp] theorem State.clearDoneWob_res0 (v : Word) : (s.clearDoneWob v).res0 = s.res0 := rfl
@[simp] theorem State.clearDoneWob_res1 (v : Word) : (s.clearDoneWob v).res1 = s.res1 := rfl
@[simp] theorem State.clearDoneWob_res2 (v : Word) : (s.clearDoneWob v).res2 = s.res2 := rfl
@[simp] theorem State.clearDoneWob_errcode (v : Word) : (s.clearDoneWob v).errcode = s.errcode := rfl
@[simp] theorem State.clearDoneWob_einfo0 (v : Word) : (s.clearDoneWob v).einfo0 = s.einfo0 := rfl
@[simp] theorem State.clearDoneWob_einfo1 (v : Word) : (s.clearDoneWob v).einfo1 = s.einfo1 := rfl
@[simp] theorem State.clearDoneWob_ft (v : Word) : (s.clearDoneWob v).ft = s.ft := rfl
@[simp] theorem State.clearDoneWob_total (v : Word) : (s.clearDoneWob v).total = s.total := rfl
@[simp] theorem State.clearDoneWob_nodes (v : Word) : (s.clearDoneWob v).nodes = s.nodes := rfl
@[simp] theorem State.clearDoneWob_codes (v : Word) : (s.clearDoneWob v).codes = s.codes := rfl
@[simp] theorem State.clearDoneWob_pbuf (v : Word) : (s.clearDoneWob v).pbuf = s.pbuf := rfl
@[simp] theorem State.clearDoneWob_bitlen (v : Word) : (s.clearDoneWob v).bitlen = s.bitlen := rfl
@[simp] theorem State.clearDoneWob_rdptr (v : Word) : (s.clearDoneWob v).rdptr = s.rdptr := rfl
@[simp] theorem State.clearDoneWob_pending (v : Word) : (s.clearDoneWob v).pending = s.pending := rfl
@[simp] theorem State.clearDoneWob_resetHeld (v : Word) : (s.clearDoneWob v).resetHeld = s.resetHeld := rfl
@[simp] theorem State.clearDoneWob_env (v : Word) : (s.clearDoneWob v).env = s.env := rfl

/-! ### invalidate -/

@[simp] theorem State.invalidate_cfg : (s.invalidate).cfg = s.cfg := rfl
@[simp] theorem State.invalidate_ctrl : (s.invalidate).ctrl = s.ctrl := rfl
@[simp] theorem State.invalidate_status :
    (s.invalidate).status = { s.status with treeValid := false, codesValid := false } := rfl
@[simp] theorem State.invalidate_arg0 : (s.invalidate).arg0 = s.arg0 := rfl
@[simp] theorem State.invalidate_arg1 : (s.invalidate).arg1 = s.arg1 := rfl
@[simp] theorem State.invalidate_res0 : (s.invalidate).res0 = s.res0 := rfl
@[simp] theorem State.invalidate_res1 : (s.invalidate).res1 = s.res1 := rfl
@[simp] theorem State.invalidate_res2 : (s.invalidate).res2 = s.res2 := rfl
@[simp] theorem State.invalidate_errcode : (s.invalidate).errcode = s.errcode := rfl
@[simp] theorem State.invalidate_einfo0 : (s.invalidate).einfo0 = s.einfo0 := rfl
@[simp] theorem State.invalidate_einfo1 : (s.invalidate).einfo1 = s.einfo1 := rfl
@[simp] theorem State.invalidate_ft : (s.invalidate).ft = s.ft := rfl
@[simp] theorem State.invalidate_total : (s.invalidate).total = s.total := rfl
@[simp] theorem State.invalidate_nodes : (s.invalidate).nodes = [] := rfl
@[simp] theorem State.invalidate_codes : (s.invalidate).codes = s.codes := rfl
@[simp] theorem State.invalidate_pbuf : (s.invalidate).pbuf = s.pbuf := rfl
@[simp] theorem State.invalidate_bitlen : (s.invalidate).bitlen = s.bitlen := rfl
@[simp] theorem State.invalidate_rdptr : (s.invalidate).rdptr = s.rdptr := rfl
@[simp] theorem State.invalidate_pending : (s.invalidate).pending = s.pending := rfl
@[simp] theorem State.invalidate_resetHeld : (s.invalidate).resetHeld = s.resetHeld := rfl
@[simp] theorem State.invalidate_env : (s.invalidate).env = s.env := rfl

/-! ### writeByte -/

@[simp] theorem State.writeByte_cfg (i : Nat) (v : Byte) : (s.writeByte i v).cfg = s.cfg := rfl
@[simp] theorem State.writeByte_ctrl (i : Nat) (v : Byte) : (s.writeByte i v).ctrl = s.ctrl := rfl
@[simp] theorem State.writeByte_status (i : Nat) (v : Byte) : (s.writeByte i v).status = s.status := rfl
@[simp] theorem State.writeByte_arg0 (i : Nat) (v : Byte) : (s.writeByte i v).arg0 = s.arg0 := rfl
@[simp] theorem State.writeByte_arg1 (i : Nat) (v : Byte) : (s.writeByte i v).arg1 = s.arg1 := rfl
@[simp] theorem State.writeByte_res0 (i : Nat) (v : Byte) : (s.writeByte i v).res0 = s.res0 := rfl
@[simp] theorem State.writeByte_res1 (i : Nat) (v : Byte) : (s.writeByte i v).res1 = s.res1 := rfl
@[simp] theorem State.writeByte_res2 (i : Nat) (v : Byte) : (s.writeByte i v).res2 = s.res2 := rfl
@[simp] theorem State.writeByte_errcode (i : Nat) (v : Byte) : (s.writeByte i v).errcode = s.errcode := rfl
@[simp] theorem State.writeByte_einfo0 (i : Nat) (v : Byte) : (s.writeByte i v).einfo0 = s.einfo0 := rfl
@[simp] theorem State.writeByte_einfo1 (i : Nat) (v : Byte) : (s.writeByte i v).einfo1 = s.einfo1 := rfl
@[simp] theorem State.writeByte_ft (i : Nat) (v : Byte) : (s.writeByte i v).ft = s.ft := rfl
@[simp] theorem State.writeByte_total (i : Nat) (v : Byte) : (s.writeByte i v).total = s.total := rfl
@[simp] theorem State.writeByte_nodes (i : Nat) (v : Byte) : (s.writeByte i v).nodes = s.nodes := rfl
@[simp] theorem State.writeByte_codes (i : Nat) (v : Byte) : (s.writeByte i v).codes = s.codes := rfl
@[simp] theorem State.writeByte_pbuf (i : Nat) (v : Byte) : (s.writeByte i v).pbuf = Memory.store s.pbuf i v := rfl
@[simp] theorem State.writeByte_bitlen (i : Nat) (v : Byte) : (s.writeByte i v).bitlen = s.bitlen := rfl
@[simp] theorem State.writeByte_rdptr (i : Nat) (v : Byte) : (s.writeByte i v).rdptr = s.rdptr := rfl
@[simp] theorem State.writeByte_pending (i : Nat) (v : Byte) : (s.writeByte i v).pending = s.pending := rfl
@[simp] theorem State.writeByte_resetHeld (i : Nat) (v : Byte) : (s.writeByte i v).resetHeld = s.resetHeld := rfl
@[simp] theorem State.writeByte_env (i : Nat) (v : Byte) : (s.writeByte i v).env = s.env := rfl

/-! ### writeResults -/

@[simp] theorem State.writeResults_cfg (r0 r1 r2 : Word) : (s.writeResults r0 r1 r2).cfg = s.cfg := rfl
@[simp] theorem State.writeResults_ctrl (r0 r1 r2 : Word) : (s.writeResults r0 r1 r2).ctrl = s.ctrl := rfl
@[simp] theorem State.writeResults_status (r0 r1 r2 : Word) : (s.writeResults r0 r1 r2).status = s.status := rfl
@[simp] theorem State.writeResults_arg0 (r0 r1 r2 : Word) : (s.writeResults r0 r1 r2).arg0 = s.arg0 := rfl
@[simp] theorem State.writeResults_arg1 (r0 r1 r2 : Word) : (s.writeResults r0 r1 r2).arg1 = s.arg1 := rfl
@[simp] theorem State.writeResults_res0 (r0 r1 r2 : Word) : (s.writeResults r0 r1 r2).res0 = r0 := rfl
@[simp] theorem State.writeResults_res1 (r0 r1 r2 : Word) : (s.writeResults r0 r1 r2).res1 = r1 := rfl
@[simp] theorem State.writeResults_res2 (r0 r1 r2 : Word) : (s.writeResults r0 r1 r2).res2 = r2 := rfl
@[simp] theorem State.writeResults_errcode (r0 r1 r2 : Word) : (s.writeResults r0 r1 r2).errcode = s.errcode := rfl
@[simp] theorem State.writeResults_einfo0 (r0 r1 r2 : Word) : (s.writeResults r0 r1 r2).einfo0 = s.einfo0 := rfl
@[simp] theorem State.writeResults_einfo1 (r0 r1 r2 : Word) : (s.writeResults r0 r1 r2).einfo1 = s.einfo1 := rfl
@[simp] theorem State.writeResults_ft (r0 r1 r2 : Word) : (s.writeResults r0 r1 r2).ft = s.ft := rfl
@[simp] theorem State.writeResults_total (r0 r1 r2 : Word) : (s.writeResults r0 r1 r2).total = s.total := rfl
@[simp] theorem State.writeResults_nodes (r0 r1 r2 : Word) : (s.writeResults r0 r1 r2).nodes = s.nodes := rfl
@[simp] theorem State.writeResults_codes (r0 r1 r2 : Word) : (s.writeResults r0 r1 r2).codes = s.codes := rfl
@[simp] theorem State.writeResults_pbuf (r0 r1 r2 : Word) : (s.writeResults r0 r1 r2).pbuf = s.pbuf := rfl
@[simp] theorem State.writeResults_bitlen (r0 r1 r2 : Word) : (s.writeResults r0 r1 r2).bitlen = s.bitlen := rfl
@[simp] theorem State.writeResults_rdptr (r0 r1 r2 : Word) : (s.writeResults r0 r1 r2).rdptr = s.rdptr := rfl
@[simp] theorem State.writeResults_pending (r0 r1 r2 : Word) : (s.writeResults r0 r1 r2).pending = s.pending := rfl
@[simp] theorem State.writeResults_resetHeld (r0 r1 r2 : Word) :
    (s.writeResults r0 r1 r2).resetHeld = s.resetHeld := rfl
@[simp] theorem State.writeResults_env (r0 r1 r2 : Word) : (s.writeResults r0 r1 r2).env = s.env := rfl

/-! ### capture -/

@[simp] theorem State.capture_cfg (e : ErrName) (opc : Byte) (i0 i1 : Word) : (s.capture e opc i0 i1).cfg = s.cfg := rfl
@[simp] theorem State.capture_ctrl (e : ErrName) (opc : Byte) (i0 i1 : Word) :
    (s.capture e opc i0 i1).ctrl = s.ctrl := rfl
@[simp] theorem State.capture_status (e : ErrName) (opc : Byte) (i0 i1 : Word) :
    (s.capture e opc i0 i1).status = { s.status with err := true } := rfl
@[simp] theorem State.capture_arg0 (e : ErrName) (opc : Byte) (i0 i1 : Word) :
    (s.capture e opc i0 i1).arg0 = s.arg0 := rfl
@[simp] theorem State.capture_arg1 (e : ErrName) (opc : Byte) (i0 i1 : Word) :
    (s.capture e opc i0 i1).arg1 = s.arg1 := rfl
@[simp] theorem State.capture_res0 (e : ErrName) (opc : Byte) (i0 i1 : Word) :
    (s.capture e opc i0 i1).res0 = s.res0 := rfl
@[simp] theorem State.capture_res1 (e : ErrName) (opc : Byte) (i0 i1 : Word) :
    (s.capture e opc i0 i1).res1 = s.res1 := rfl
@[simp] theorem State.capture_res2 (e : ErrName) (opc : Byte) (i0 i1 : Word) :
    (s.capture e opc i0 i1).res2 = s.res2 := rfl
@[simp] theorem State.capture_errcode (e : ErrName) (opc : Byte) (i0 i1 : Word) :
    (s.capture e opc i0 i1).errcode = errcodeWord opc e := rfl
@[simp] theorem State.capture_einfo0 (e : ErrName) (opc : Byte) (i0 i1 : Word) :
    (s.capture e opc i0 i1).einfo0 = i0 := rfl
@[simp] theorem State.capture_einfo1 (e : ErrName) (opc : Byte) (i0 i1 : Word) :
    (s.capture e opc i0 i1).einfo1 = i1 := rfl
@[simp] theorem State.capture_ft (e : ErrName) (opc : Byte) (i0 i1 : Word) : (s.capture e opc i0 i1).ft = s.ft := rfl
@[simp] theorem State.capture_total (e : ErrName) (opc : Byte) (i0 i1 : Word) :
    (s.capture e opc i0 i1).total = s.total := rfl
@[simp] theorem State.capture_nodes (e : ErrName) (opc : Byte) (i0 i1 : Word) :
    (s.capture e opc i0 i1).nodes = s.nodes := rfl
@[simp] theorem State.capture_codes (e : ErrName) (opc : Byte) (i0 i1 : Word) :
    (s.capture e opc i0 i1).codes = s.codes := rfl
@[simp] theorem State.capture_pbuf (e : ErrName) (opc : Byte) (i0 i1 : Word) :
    (s.capture e opc i0 i1).pbuf = s.pbuf := rfl
@[simp] theorem State.capture_bitlen (e : ErrName) (opc : Byte) (i0 i1 : Word) :
    (s.capture e opc i0 i1).bitlen = s.bitlen := rfl
@[simp] theorem State.capture_rdptr (e : ErrName) (opc : Byte) (i0 i1 : Word) :
    (s.capture e opc i0 i1).rdptr = s.rdptr := rfl
@[simp] theorem State.capture_pending (e : ErrName) (opc : Byte) (i0 i1 : Word) :
    (s.capture e opc i0 i1).pending = s.pending := rfl
@[simp] theorem State.capture_resetHeld (e : ErrName) (opc : Byte) (i0 i1 : Word) :
    (s.capture e opc i0 i1).resetHeld = s.resetHeld := rfl
@[simp] theorem State.capture_env (e : ErrName) (opc : Byte) (i0 i1 : Word) : (s.capture e opc i0 i1).env = s.env := rfl

/-! ### replyWith -/

@[simp] theorem State.replyWith_cfg (v : Word) : (s.replyWith v).cfg = s.cfg := rfl
@[simp] theorem State.replyWith_ctrl (v : Word) : (s.replyWith v).ctrl = s.ctrl := rfl
@[simp] theorem State.replyWith_status (v : Word) : (s.replyWith v).status = s.status := rfl
@[simp] theorem State.replyWith_arg0 (v : Word) : (s.replyWith v).arg0 = s.arg0 := rfl
@[simp] theorem State.replyWith_arg1 (v : Word) : (s.replyWith v).arg1 = s.arg1 := rfl
@[simp] theorem State.replyWith_res0 (v : Word) : (s.replyWith v).res0 = s.res0 := rfl
@[simp] theorem State.replyWith_res1 (v : Word) : (s.replyWith v).res1 = s.res1 := rfl
@[simp] theorem State.replyWith_res2 (v : Word) : (s.replyWith v).res2 = s.res2 := rfl
@[simp] theorem State.replyWith_errcode (v : Word) : (s.replyWith v).errcode = s.errcode := rfl
@[simp] theorem State.replyWith_einfo0 (v : Word) : (s.replyWith v).einfo0 = s.einfo0 := rfl
@[simp] theorem State.replyWith_einfo1 (v : Word) : (s.replyWith v).einfo1 = s.einfo1 := rfl
@[simp] theorem State.replyWith_ft (v : Word) : (s.replyWith v).ft = s.ft := rfl
@[simp] theorem State.replyWith_total (v : Word) : (s.replyWith v).total = s.total := rfl
@[simp] theorem State.replyWith_nodes (v : Word) : (s.replyWith v).nodes = s.nodes := rfl
@[simp] theorem State.replyWith_codes (v : Word) : (s.replyWith v).codes = s.codes := rfl
@[simp] theorem State.replyWith_pbuf (v : Word) : (s.replyWith v).pbuf = s.pbuf := rfl
@[simp] theorem State.replyWith_bitlen (v : Word) : (s.replyWith v).bitlen = s.bitlen := rfl
@[simp] theorem State.replyWith_rdptr (v : Word) : (s.replyWith v).rdptr = s.rdptr := rfl
@[simp] theorem State.replyWith_pending (v : Word) : (s.replyWith v).pending = s.pending := rfl
@[simp] theorem State.replyWith_resetHeld (v : Word) : (s.replyWith v).resetHeld = s.resetHeld := rfl
@[simp] theorem State.replyWith_env (v : Word) : (s.replyWith v).env = { s.env with reply := some v } := rfl

/-! ### replyDraw -/

@[simp] theorem State.replyDraw_cfg : (s.replyDraw).cfg = s.cfg := rfl
@[simp] theorem State.replyDraw_ctrl : (s.replyDraw).ctrl = s.ctrl := rfl
@[simp] theorem State.replyDraw_status : (s.replyDraw).status = s.status := rfl
@[simp] theorem State.replyDraw_arg0 : (s.replyDraw).arg0 = s.arg0 := rfl
@[simp] theorem State.replyDraw_arg1 : (s.replyDraw).arg1 = s.arg1 := rfl
@[simp] theorem State.replyDraw_res0 : (s.replyDraw).res0 = s.res0 := rfl
@[simp] theorem State.replyDraw_res1 : (s.replyDraw).res1 = s.res1 := rfl
@[simp] theorem State.replyDraw_res2 : (s.replyDraw).res2 = s.res2 := rfl
@[simp] theorem State.replyDraw_errcode : (s.replyDraw).errcode = s.errcode := rfl
@[simp] theorem State.replyDraw_einfo0 : (s.replyDraw).einfo0 = s.einfo0 := rfl
@[simp] theorem State.replyDraw_einfo1 : (s.replyDraw).einfo1 = s.einfo1 := rfl
@[simp] theorem State.replyDraw_ft : (s.replyDraw).ft = s.ft := rfl
@[simp] theorem State.replyDraw_total : (s.replyDraw).total = s.total := rfl
@[simp] theorem State.replyDraw_nodes : (s.replyDraw).nodes = s.nodes := rfl
@[simp] theorem State.replyDraw_codes : (s.replyDraw).codes = s.codes := rfl
@[simp] theorem State.replyDraw_pbuf : (s.replyDraw).pbuf = s.pbuf := rfl
@[simp] theorem State.replyDraw_bitlen : (s.replyDraw).bitlen = s.bitlen := rfl
@[simp] theorem State.replyDraw_rdptr : (s.replyDraw).rdptr = s.rdptr := rfl
@[simp] theorem State.replyDraw_pending : (s.replyDraw).pending = s.pending := rfl
@[simp] theorem State.replyDraw_resetHeld : (s.replyDraw).resetHeld = s.resetHeld := rfl
@[simp] theorem State.replyDraw_env :
    (s.replyDraw).env = { s.env with reply := some (Config.busyRead s.env.draws), draws := s.env.draws + 1 } := rfl

/-! ### withInputs -/

@[simp] theorem State.withInputs_cfg (l : List Input) : (s.withInputs l).cfg = s.cfg := rfl
@[simp] theorem State.withInputs_ctrl (l : List Input) : (s.withInputs l).ctrl = s.ctrl := rfl
@[simp] theorem State.withInputs_status (l : List Input) : (s.withInputs l).status = s.status := rfl
@[simp] theorem State.withInputs_arg0 (l : List Input) : (s.withInputs l).arg0 = s.arg0 := rfl
@[simp] theorem State.withInputs_arg1 (l : List Input) : (s.withInputs l).arg1 = s.arg1 := rfl
@[simp] theorem State.withInputs_res0 (l : List Input) : (s.withInputs l).res0 = s.res0 := rfl
@[simp] theorem State.withInputs_res1 (l : List Input) : (s.withInputs l).res1 = s.res1 := rfl
@[simp] theorem State.withInputs_res2 (l : List Input) : (s.withInputs l).res2 = s.res2 := rfl
@[simp] theorem State.withInputs_errcode (l : List Input) : (s.withInputs l).errcode = s.errcode := rfl
@[simp] theorem State.withInputs_einfo0 (l : List Input) : (s.withInputs l).einfo0 = s.einfo0 := rfl
@[simp] theorem State.withInputs_einfo1 (l : List Input) : (s.withInputs l).einfo1 = s.einfo1 := rfl
@[simp] theorem State.withInputs_ft (l : List Input) : (s.withInputs l).ft = s.ft := rfl
@[simp] theorem State.withInputs_total (l : List Input) : (s.withInputs l).total = s.total := rfl
@[simp] theorem State.withInputs_nodes (l : List Input) : (s.withInputs l).nodes = s.nodes := rfl
@[simp] theorem State.withInputs_codes (l : List Input) : (s.withInputs l).codes = s.codes := rfl
@[simp] theorem State.withInputs_pbuf (l : List Input) : (s.withInputs l).pbuf = s.pbuf := rfl
@[simp] theorem State.withInputs_bitlen (l : List Input) : (s.withInputs l).bitlen = s.bitlen := rfl
@[simp] theorem State.withInputs_rdptr (l : List Input) : (s.withInputs l).rdptr = s.rdptr := rfl
@[simp] theorem State.withInputs_pending (l : List Input) : (s.withInputs l).pending = s.pending := rfl
@[simp] theorem State.withInputs_resetHeld (l : List Input) : (s.withInputs l).resetHeld = s.resetHeld := rfl
@[simp] theorem State.withInputs_env (l : List Input) : (s.withInputs l).env = { s.env with inputs := l } := rfl

/-! ### softReset -/

@[simp] theorem State.softReset_cfg : (s.softReset).cfg = s.cfg := rfl
@[simp] theorem State.softReset_ctrl : (s.softReset).ctrl = ⟨false, false⟩ := rfl
@[simp] theorem State.softReset_status : (s.softReset).status = ⟨false, false, false, false, false⟩ := rfl
@[simp] theorem State.softReset_arg0 : (s.softReset).arg0 = 0#32 := rfl
@[simp] theorem State.softReset_arg1 : (s.softReset).arg1 = 0#32 := rfl
@[simp] theorem State.softReset_res0 : (s.softReset).res0 = 0#32 := rfl
@[simp] theorem State.softReset_res1 : (s.softReset).res1 = 0#32 := rfl
@[simp] theorem State.softReset_res2 : (s.softReset).res2 = 0#32 := rfl
@[simp] theorem State.softReset_errcode : (s.softReset).errcode = 0#32 := rfl
@[simp] theorem State.softReset_einfo0 : (s.softReset).einfo0 = 0#32 := rfl
@[simp] theorem State.softReset_einfo1 : (s.softReset).einfo1 = 0#32 := rfl
@[simp] theorem State.softReset_ft : (s.softReset).ft = [] := rfl
@[simp] theorem State.softReset_total : (s.softReset).total = 0#32 := rfl
@[simp] theorem State.softReset_nodes : (s.softReset).nodes = [] := rfl
@[simp] theorem State.softReset_codes : (s.softReset).codes = [] := rfl
@[simp] theorem State.softReset_pbuf : (s.softReset).pbuf = s.pbuf := rfl
@[simp] theorem State.softReset_bitlen : (s.softReset).bitlen = 0 := rfl
@[simp] theorem State.softReset_rdptr : (s.softReset).rdptr = 0 := rfl
@[simp] theorem State.softReset_pending : (s.softReset).pending = none := rfl
@[simp] theorem State.softReset_resetHeld : (s.softReset).resetHeld = s.resetHeld := rfl
@[simp] theorem State.softReset_env : (s.softReset).env = s.env := rfl

/-! ### hardReset -/

@[simp] theorem State.hardReset_cfg : (s.hardReset).cfg = s.cfg := rfl
@[simp] theorem State.hardReset_ctrl : (s.hardReset).ctrl = ⟨false, false⟩ := rfl
@[simp] theorem State.hardReset_status : (s.hardReset).status = ⟨false, false, false, false, false⟩ := rfl
@[simp] theorem State.hardReset_arg0 : (s.hardReset).arg0 = 0#32 := rfl
@[simp] theorem State.hardReset_arg1 : (s.hardReset).arg1 = 0#32 := rfl
@[simp] theorem State.hardReset_res0 : (s.hardReset).res0 = 0#32 := rfl
@[simp] theorem State.hardReset_res1 : (s.hardReset).res1 = 0#32 := rfl
@[simp] theorem State.hardReset_res2 : (s.hardReset).res2 = 0#32 := rfl
@[simp] theorem State.hardReset_errcode : (s.hardReset).errcode = 0#32 := rfl
@[simp] theorem State.hardReset_einfo0 : (s.hardReset).einfo0 = 0#32 := rfl
@[simp] theorem State.hardReset_einfo1 : (s.hardReset).einfo1 = 0#32 := rfl
@[simp] theorem State.hardReset_ft : (s.hardReset).ft = [] := rfl
@[simp] theorem State.hardReset_total : (s.hardReset).total = 0#32 := rfl
@[simp] theorem State.hardReset_nodes : (s.hardReset).nodes = [] := rfl
@[simp] theorem State.hardReset_codes : (s.hardReset).codes = [] := rfl
@[simp] theorem State.hardReset_pbuf : (s.hardReset).pbuf = [] := rfl
@[simp] theorem State.hardReset_bitlen : (s.hardReset).bitlen = 0 := rfl
@[simp] theorem State.hardReset_rdptr : (s.hardReset).rdptr = 0 := rfl
@[simp] theorem State.hardReset_pending : (s.hardReset).pending = none := rfl
@[simp] theorem State.hardReset_resetHeld : (s.hardReset).resetHeld = true := rfl
@[simp] theorem State.hardReset_env : (s.hardReset).env = { s.env with epoch := s.env.epoch + 1 } := rfl

end Sys2Proof.Machine
end

