-- ==== Sys2Proof/Laws/Memory.lean ====
section
/-! SUPPORT. PBUF: a read after a write, and the canonical form kept by every memory operation. -/

namespace Sys2Proof.Machine

/-! ## One byte -/

@[simp] theorem Memory.byteAt_store_same (m : Memory) (i : Nat) (v : Byte) :
    Memory.byteAt (Memory.store m i v) i = some v := by
  induction m with
  | nil => simp [Memory.store, Memory.byteAt]
  | cons c m ih =>
    obtain ⟨a, w⟩ := c
    unfold Memory.store
    split
    · simp [Memory.byteAt]
    · split
      · simp [Memory.byteAt]
      · rename_i _ h
        simp [Memory.byteAt, Ne.symm h, ih]

theorem Memory.byteAt_store_other (m : Memory) {i j : Nat} (v : Byte) (h : j ≠ i) :
    Memory.byteAt (Memory.store m i v) j = Memory.byteAt m j := by
  induction m with
  | nil => simp [Memory.store, Memory.byteAt, Ne.symm h]
  | cons c m ih =>
    obtain ⟨a, w⟩ := c
    unfold Memory.store
    split
    · simp [Memory.byteAt, Ne.symm h]
    · split
      · subst_vars
        simp [Memory.byteAt, Ne.symm h]
      · simp [Memory.byteAt, ih]

theorem Memory.mem_store {m : Memory} {i : Nat} {v : Byte} {c : Host.Cell} (h : c ∈ Memory.store m i v) :
    c = (i, v) ∨ c ∈ m := by
  induction m with
  | nil => simpa [Memory.store] using h
  | cons d m ih =>
    obtain ⟨a, w⟩ := d
    unfold Memory.store at h
    split at h
    · simpa using h
    · split at h
      · rcases List.mem_cons.mp h with h | h
        · exact .inl h
        · exact .inr (List.mem_cons_of_mem _ h)
      · rcases List.mem_cons.mp h with h | h
        · exact .inr (h ▸ List.mem_cons_self)
        · exact (ih h).imp_right (List.mem_cons_of_mem _)

/-- A store keeps the canonical form. -/
theorem Memory.wf_store {m : Memory} (i : Nat) (v : Byte) (h : Memory.wf m) : Memory.wf (Memory.store m i v) := by
  induction m with
  | nil => simp [Memory.store, Memory.wf]
  | cons c m ih =>
    obtain ⟨a, w⟩ := c
    obtain ⟨hlt, hm⟩ := List.pairwise_cons.mp h
    unfold Memory.store
    split
    · rename_i hia
      refine List.pairwise_cons.mpr ⟨fun d hd => ?_, h⟩
      rcases List.mem_cons.mp hd with rfl | hd
      · exact hia
      · exact Nat.lt_trans hia (hlt d hd)
    · split
      · rename_i hia
        exact List.pairwise_cons.mpr ⟨fun d hd => hia ▸ hlt d hd, hm⟩
      · refine List.pairwise_cons.mpr ⟨fun d hd => ?_, ih hm⟩
        rcases Memory.mem_store hd with rfl | hd
        · show a < i; omega
        · exact hlt d hd

/-- Every index a store lists is the stored one or was listed before. -/
theorem Memory.bound_store {m : Memory} {i n : Nat} (v : Byte) (hi : i < n) (h : ∀ c ∈ m, c.1 < n) :
    ∀ c ∈ Memory.store m i v, c.1 < n := by
  intro c hc
  rcases Memory.mem_store hc with rfl | hc
  · exact hi
  · exact h c hc

/-! ## PBUF bytes of a state -/

theorem State.readByte_congr {s t : State} (hp : t.pbuf = s.pbuf) (he : t.env.epoch = s.env.epoch) (i : Nat) :
    t.readByte i = s.readByte i := by
  simp [State.readByte, hp, he]

@[simp] theorem State.readByte_writeByte_same (s : State) (i : Nat) (v : Byte) :
    (s.writeByte i v).readByte i = v := by
  simp [State.readByte]

theorem State.readByte_writeByte_other (s : State) {i j : Nat} (v : Byte) (h : j ≠ i) :
    (s.writeByte i v).readByte j = s.readByte j := by
  simp [State.readByte, Memory.byteAt_store_other _ _ h]

theorem State.readByte_writeByte (s : State) (i j : Nat) (v : Byte) :
    (s.writeByte i v).readByte j = if j = i then v else s.readByte j := by
  split
  · rename_i h; subst h; exact s.readByte_writeByte_same j v
  · rename_i h; exact s.readByte_writeByte_other v h

/-! ## Bits of a byte -/

theorem getLsbD_setBit (x : Byte) {k : Nat} (b : Bool) (hk : k < 8) (j : Nat) :
    (setBit x k b).getLsbD j = if j = k then b else x.getLsbD j := by
  unfold setBit
  by_cases hj : j < 8
  · have hones : ((1#8 <<< k).getLsbD j) = decide (j = k) := by
      rw [BitVec.getLsbD_shiftLeft]
      by_cases h : j < k
      · simp [h, Nat.ne_of_lt h]
      · by_cases h2 : j = k
        · subst h2; simp [hj]
        · have : j - k ≠ 0 := by omega
          simp [h2, this]
    cases b
    · rw [if_neg (by simp), BitVec.getLsbD_and, BitVec.getLsbD_not, hones]
      by_cases h2 : j = k <;> simp [h2, hj]
    · rw [if_pos rfl, BitVec.getLsbD_or, hones]
      by_cases h2 : j = k <;> simp [h2]
  · have hjk : j ≠ k := by omega
    rw [if_neg hjk, BitVec.getLsbD_of_ge _ _ (by omega), BitVec.getLsbD_of_ge _ _ (by omega)]

/-! ## The stream -/

theorem State.streamAppend_eq (s : State) (b : Bool) :
    s.streamAppend b =
      { s with
        pbuf := Memory.store s.pbuf (s.bitlen / 8)
          (setBit (if s.bitlen % 8 = 0 then 0#8 else s.readByte (s.bitlen / 8)) (7 - s.bitlen % 8) b),
        bitlen := s.bitlen + 1 } := rfl

@[simp] theorem State.streamAppend_bitlen (s : State) (b : Bool) : (s.streamAppend b).bitlen = s.bitlen + 1 := rfl

/-- StreamAppend changes PBUF and BITLEN only. -/
theorem State.streamAppend_frame (s : State) (b : Bool) :
    s.streamAppend b = { s with pbuf := (s.streamAppend b).pbuf, bitlen := s.bitlen + 1 } := rfl

/-- StreamAppend touches one byte only (20_memory.md R66). -/
theorem State.readByte_streamAppend (s : State) (b : Bool) (i : Nat) :
    (s.streamAppend b).readByte i =
      if i = s.bitlen / 8 then
        setBit (if s.bitlen % 8 = 0 then 0#8 else s.readByte (s.bitlen / 8)) (7 - s.bitlen % 8) b
      else s.readByte i := by
  rw [← State.readByte_writeByte]
  exact State.readByte_congr rfl rfl i

/-- StreamAppend changes no stream bit before BITLEN, and bit BITLEN becomes b (20_memory.md R66). -/
theorem State.streamBit_streamAppend (s : State) (b : Bool) {p : Nat} (hp : p ≤ s.bitlen) :
    (s.streamAppend b).streamBit p = if p = s.bitlen then b else s.streamBit p := by
  unfold State.streamBit
  rw [State.readByte_streamAppend]
  by_cases h8 : p / 8 = s.bitlen / 8
  · rw [if_pos h8, getLsbD_setBit _ _ (by omega)]
    by_cases hpe : p = s.bitlen
    · subst hpe; simp
    · have h1 : 7 - p % 8 ≠ 7 - s.bitlen % 8 := by omega
      have h2 : s.bitlen % 8 ≠ 0 := by omega
      rw [if_neg h1, if_neg hpe, if_neg h2, h8]
  · have hpe : p ≠ s.bitlen := fun h => h8 (h ▸ rfl)
    rw [if_neg h8, if_neg hpe]

@[simp] theorem State.streamAppendAll_nil (s : State) : s.streamAppendAll [] = s := rfl

@[simp] theorem State.streamAppendAll_cons (s : State) (b : Bool) (l : List Bool) :
    s.streamAppendAll (b :: l) = (s.streamAppend b).streamAppendAll l := rfl

/-- Appending a bit sequence changes PBUF and BITLEN only. -/
theorem State.streamAppendAll_frame (s : State) (l : List Bool) :
    s.streamAppendAll l = { s with pbuf := (s.streamAppendAll l).pbuf, bitlen := s.bitlen + l.length } := by
  induction l generalizing s with
  | nil => rfl
  | cons b l ih =>
    rw [State.streamAppendAll_cons, ih, State.streamAppend_frame]
    simp only [List.length_cons, Nat.add_comm l.length 1, Nat.add_assoc]

@[simp] theorem State.streamAppendAll_bitlen (s : State) (l : List Bool) :
    (s.streamAppendAll l).bitlen = s.bitlen + l.length := by
  rw [State.streamAppendAll_frame]

/-- Appending a bit sequence: the bits before BITLEN stay, the sequence follows (20_memory.md R66). -/
theorem State.streamBit_streamAppendAll (s : State) (l : List Bool) {p : Nat} (hp : p < s.bitlen + l.length) :
    (s.streamAppendAll l).streamBit p = if p < s.bitlen then s.streamBit p else l.getD (p - s.bitlen) false := by
  induction l generalizing s with
  | nil => simp at hp; simp [hp]
  | cons b l ih =>
    rw [State.streamAppendAll_cons, ih _ (by simp at hp ⊢; omega), State.streamAppend_bitlen]
    by_cases h1 : p < s.bitlen
    · rw [if_pos (by omega), if_pos h1, State.streamBit_streamAppend _ _ (by omega), if_neg (by omega)]
    · by_cases h2 : p = s.bitlen
      · subst h2
        rw [if_pos (by omega), if_neg h1, State.streamBit_streamAppend _ _ (le_refl _)]
        simp
      · have h3 : p - s.bitlen = (p - (s.bitlen + 1)) + 1 := by omega
        rw [if_neg (by omega), if_neg h1, h3, List.getD_cons_succ]

/-- Appending a bit sequence leaves every byte outside the bytes it touches (20_memory.md R66). -/
theorem State.readByte_streamAppendAll_other (s : State) (l : List Bool) {i : Nat}
    (h : i < s.bitlen / 8 ∨ s.bitlen + l.length ≤ 8 * i) : (s.streamAppendAll l).readByte i = s.readByte i := by
  induction l generalizing s with
  | nil => rfl
  | cons b l ih =>
    simp only [List.length_cons] at h
    rw [State.streamAppendAll_cons, ih _ (by simp only [State.streamAppend_bitlen]; omega),
      State.readByte_streamAppend, if_neg (by omega)]

/-! ## The canonical form is kept -/

theorem State.pbuf_wf_writeByte {s : State} (i : Nat) (v : Byte) (h : Memory.wf s.pbuf) :
    Memory.wf (s.writeByte i v).pbuf := Memory.wf_store i v h

theorem State.pbuf_wf_streamAppendAll {s : State} (l : List Bool) (h : Memory.wf s.pbuf) :
    Memory.wf (s.streamAppendAll l).pbuf := by
  induction l generalizing s with
  | nil => exact h
  | cons b l ih => exact ih (Memory.wf_store _ _ h)

theorem State.pbuf_wf_writeWindow {s : State} (m : Nat) (v : Word) (h : Memory.wf s.pbuf) :
    Memory.wf (s.writeWindow m v).pbuf :=
  Memory.wf_store _ _ (Memory.wf_store _ _ (Memory.wf_store _ _ (Memory.wf_store _ _ h)))

theorem State.pbuf_wf_softReset {s : State} (h : Memory.wf s.pbuf) : Memory.wf s.softReset.pbuf := h

theorem State.pbuf_wf_hardReset (s : State) : Memory.wf s.hardReset.pbuf := by simp

theorem State.pbuf_wf_reset : Memory.wf State.reset.pbuf := List.Pairwise.nil

/-! ## Window words -/

/-- A window write changes PBUF only (20_memory.md R63). -/
theorem State.writeWindow_frame (s : State) (m : Nat) (v : Word) :
    s.writeWindow m v = { s with pbuf := (s.writeWindow m v).pbuf } := rfl

end Sys2Proof.Machine
end

