-- ==== Sys2Proof/Laws/Engine.lean ====
section
/-! SUPPORT. What the engine and the port can do, said once: how a command ends, what any command leaves unchanged, what a
host access answers, and what one step is. -/

namespace Sys2Proof.Machine

/-! ## The end of a command -/

/-- While ERR = 1 a command is rejected (60_exceptions.md R224). -/
theorem runCommand_err {s : State} (opc : Byte) (rule : State → CmdResult) (h : s.status.err = true) :
    runCommand opc rule s = .next s.endCommand := by
  simp [runCommand, h]

/-- While ERR = 0 a command is performed and settled (10_state.md R40). -/
theorem runCommand_ready {s : State} (opc : Byte) (rule : State → CmdResult) (h : s.status.err = false) :
    runCommand opc rule s = .next (settle opc s (rule s)).endCommand := by
  simp [runCommand, h]

/-- Everything the engine step of a command can do: reject, succeed, or fail (60_exceptions.md R220). -/
theorem runCommand_cases {opc : Byte} {rule : State → CmdResult} {s t : State} (h : runCommand opc rule s = .next t) :
    (s.status.err = true ∧ t = s.endCommand) ∨
    (s.status.err = false ∧ ∃ u r0 r1 r2, rule s = .ok u r0 r1 r2 ∧ t = (u.writeResults r0 r1 r2).endCommand) ∨
    (s.status.err = false ∧ ∃ e i0 i1, rule s = .raise e i0 i1 ∧ t = (s.capture e opc i0 i1).endCommand) := by
  cases he : s.status.err
  · rw [runCommand_ready opc rule he, Host.Outcome.next.injEq] at h
    subst h
    cases hr : rule s with
    | ok u r0 r1 r2 => exact .inr (.inl ⟨rfl, u, r0, r1, r2, rfl, rfl⟩)
    | raise e i0 i1 => exact .inr (.inr ⟨rfl, e, i0, i1, rfl, rfl⟩)
  · rw [runCommand_err opc rule he, Host.Outcome.next.injEq] at h
    exact .inl ⟨rfl, h.symm⟩

/-- The rule a command's engine step performs. RESET is performed without one (40_control.md R111). -/
def ruleOf : Instr → State → CmdResult
  | .nop => nopRule
  | .reset => nopRule
  | .freqClear => freqClearRule
  | .freqCount => freqCountRule
  | .freqSet => freqSetRule
  | .freqLookup => freqLookupRule
  | .freqGet => freqGetRule
  | .treeBuild => treeBuildRule
  | .nodeGet => nodeGetRule
  | .codeGen => codeGenRule
  | .codeGet => codeGetRule
  | .encodeSymbol => encodeSymbolRule
  | .decodeSymbol => decodeSymbolRule
  | .streamReset => streamResetRule
  | .putBits => putBitsRule
  | .getBits => getBitsRule
  | .setBitlen => setBitlenRule
  | .seekRd => seekRdRule

/-- Every command but RESET is its rule, run. -/
theorem exec_eq_runCommand {i : Instr} (hi : i ≠ .reset) (s : State) : exec i s = runCommand i.opcode (ruleOf i) s := by
  cases i <;> first | rfl | exact absurd rfl hi

theorem exec_reset (s : State) : exec .reset s = .next s.softReset.endCommand := rfl

/-! ## What no rule changes -/

/-- The state t differs from s only in the table, the tree, the codes, the stream and the validity flags. -/
def SameOutside (s t : State) : Prop :=
  t = { s with
    ft := t.ft, total := t.total, nodes := t.nodes, codes := t.codes, pbuf := t.pbuf, bitlen := t.bitlen,
    rdptr := t.rdptr,
    status := { s.status with treeValid := t.status.treeValid, codesValid := t.status.codesValid } }

theorem SameOutside.refl (s : State) : SameOutside s s := rfl

theorem sameOutside_streamAppendAll (s : State) (l : List Bool) : SameOutside s (s.streamAppendAll l) := by
  rw [State.streamAppendAll_frame]; rfl

/-- A success of any rule leaves the configuration, CTRL, DONE, ERR, WOB, the operands, the results, the error registers,
the pending command and the model's own fields as they were. -/
theorem ruleOf_sameOutside {i : Instr} {s t : State} {r0 r1 r2 : Word} (h : ruleOf i s = .ok t r0 r1 r2) :
    SameOutside s t := by
  cases i
  case nop | reset => cases h; rfl
  case freqClear => cases h; rfl
  case freqCount =>
    simp only [ruleOf, freqCountRule] at h
    repeat' split at h
    all_goals first | (cases h; done) | (cases h; rfl)
  case freqSet =>
    simp only [ruleOf, freqSetRule] at h
    repeat' split at h
    all_goals first | (cases h; done) | (cases h; rfl)
  case freqLookup =>
    simp only [ruleOf, freqLookupRule] at h
    split at h <;> (cases h; rfl)
  case freqGet =>
    simp only [ruleOf, freqGetRule] at h
    split at h <;> first | (cases h; done) | (cases h; rfl)
  case treeBuild =>
    simp only [ruleOf, treeBuildRule] at h
    split at h <;> first | (cases h; done) | (cases h; rfl)
  case nodeGet =>
    simp only [ruleOf, nodeGetRule] at h
    repeat' split at h
    all_goals first | (cases h; done) | (cases h; rfl)
  case codeGen =>
    simp only [ruleOf, codeGenRule] at h
    split at h <;> first | (cases h; done) | (cases h; rfl)
  case codeGet =>
    simp only [ruleOf, codeGetRule] at h
    repeat' split at h
    all_goals first | (cases h; done) | (cases h; rfl)
  case encodeSymbol =>
    simp only [ruleOf, encodeSymbolRule] at h
    repeat' split at h
    all_goals first | (cases h; done) | (cases h; exact sameOutside_streamAppendAll s _)
  case decodeSymbol =>
    simp only [ruleOf, decodeSymbolRule] at h
    repeat' split at h
    all_goals first | (cases h; done) | (cases h; rfl)
  case streamReset => cases h; rfl
  case putBits =>
    simp only [ruleOf, putBitsRule] at h
    repeat' split at h
    all_goals first | (cases h; done) | (cases h; exact sameOutside_streamAppendAll s _)
  case getBits =>
    simp only [ruleOf, getBitsRule] at h
    repeat' split at h
    all_goals first | (cases h; done) | (cases h; rfl)
  case setBitlen =>
    simp only [ruleOf, setBitlenRule] at h
    repeat' split at h
    all_goals first | (cases h; done) | (cases h; rfl)
  case seekRd =>
    simp only [ruleOf, seekRdRule] at h
    split at h <;> first | (cases h; done) | (cases h; rfl)

/-! ## The port -/

/-- A host read changes the model's own fields only (20_memory.md R70). -/
theorem State.hostRead_frame (s : State) (tgt : PortTarget) :
    s.hostRead tgt = { s with env := (s.hostRead tgt).env } := by
  unfold State.hostRead
  split <;> rfl

/-- A host read takes nothing from the input list and starts no reset epoch. -/
theorem State.hostRead_env (s : State) (tgt : PortTarget) :
    (s.hostRead tgt).env.inputs = s.env.inputs ∧ (s.hostRead tgt).env.epoch = s.env.epoch := by
  unfold State.hostRead
  split <;> exact ⟨rfl, rfl⟩

theorem State.hostWrite_busy {s : State} (tgt : PortTarget) (v : Word) (h : s.busy = true) :
    s.hostWrite tgt v = s.dropWrite := by
  simp [State.hostWrite, h]

theorem State.hostWrite_idle {s : State} (tgt : PortTarget) (v : Word) (h : s.busy = false) :
    s.hostWrite tgt v = s.writeTarget v tgt := by
  simp [State.hostWrite, h]

/-- Everything a host access can answer (20_memory.md R61; 70_reset_and_hazards.md R251). -/
theorem hostAccess_cases (s : State) (off width : Nat) (effect : PortTarget → State) :
    (s.resetHeld = true ∧ hostAccess s off width effect = .fault .accessDuringReset) ∨
    (s.resetHeld = false ∧ admitted s.cfg off width = true ∧
      hostAccess s off width effect = .next (effect (portTarget off))) ∨
    (s.resetHeld = false ∧ admitted s.cfg off width = false ∧
      hostAccess s off width effect = .fault .accessNotAdmitted) := by
  unfold hostAccess
  cases s.resetHeld <;> cases admitted s.cfg off width <;> simp

theorem hostAccess_admitted {s : State} {off width : Nat} (effect : PortTarget → State) (hr : s.resetHeld = false)
    (ha : admitted s.cfg off width = true) : hostAccess s off width effect = .next (effect (portTarget off)) := by
  simp [hostAccess, hr, ha]

/-! ## One step -/

theorem engineTurn_idle {s : State} (h : s.pending = none) : engineTurn s = .next s := by
  simp [engineTurn, h]

theorem engineTurn_pending {s : State} {w : Word} (h : s.pending = some w) : engineTurn s = performWord w s := by
  simp [engineTurn, h]

theorem performWord_ok {w : Word} {i : Instr} (h : decode w = .ok i) (s : State) : performWord w s = exec i s := by
  simp [performWord, h]

theorem performWord_error {w : Word} {e : DecodeError} (h : decode w = .error e) (s : State) :
    performWord w s = execIllegal w s := by
  simp [performWord, h]

theorem step_nil {s : State} (h : s.env.inputs = []) : step s = engineTurn s := by
  simp [step, stepOnce, h]

theorem step_cons {s : State} {x : Input} {l : List Input} (h : s.env.inputs = x :: l) :
    step s = takeInput (s.withInputs l) x := by
  simp [step, stepOnce, h]

@[simp] theorem withInputs_withInputs (s : State) (l l' : List Input) :
    (s.withInputs l).withInputs l' = s.withInputs l' := rfl

@[simp] theorem withInputs_busy (s : State) (l : List Input) : (s.withInputs l).busy = s.busy := rfl

@[simp] theorem withInputs_inputs (s : State) (l : List Input) : (s.withInputs l).env.inputs = l := rfl

end Sys2Proof.Machine
end

