-- ==== Sys2Proof/Laws/Commands.lean ====
section
/-! SUPPORT. One lemma per shared operation a command's rule calls: how `exec` ends, what the searches answer, what the
records read, what a bit sequence is as a number, and what appending bits does to the stream. -/

namespace Sys2Proof.Machine

/-! ## How a command ends -/

/-- A rule that returns results makes the command succeed (00_scope.md R13; 10_state.md R40). -/
theorem exec_ok {i : Instr} (hi : i ≠ .reset) {s t : State} {r0 r1 r2 : Word} (he : s.status.err = false)
    (h : ruleOf i s = .ok t r0 r1 r2) : exec i s = .next (t.succeeded r0 r1 r2) := by
  rw [exec_eq_runCommand hi, runCommand_ready _ _ he, h]; rfl

/-- A rule that raises makes the command fail: the state before it, captured (60_exceptions.md R223). -/
theorem exec_raise {i : Instr} (hi : i ≠ .reset) {s : State} {e : ErrName} {i0 i1 : Word} (he : s.status.err = false)
    (h : ruleOf i s = .raise e i0 i1) : exec i s = .next (s.failed i.opcode e.code i0 i1) := by
  rw [exec_eq_runCommand hi, runCommand_ready _ _ he, h]; rfl

/-- While ERR = 1 every command but RESET is rejected (60_exceptions.md R224). -/
theorem exec_rejected {i : Instr} (hi : i ≠ .reset) {s : State} (he : s.status.err = true) :
    exec i s = .next s.rejected := by
  rw [exec_eq_runCommand hi, runCommand_err _ _ he]; rfl

/-- Every end of a command but RESET: rejected, succeeded or failed (60_exceptions.md R220). -/
theorem exec_cases {i : Instr} (hi : i ≠ .reset) {s t : State} (h : exec i s = .next t) :
    (s.status.err = true ∧ t = s.rejected) ∨
    (s.status.err = false ∧ ∃ u r0 r1 r2, ruleOf i s = .ok u r0 r1 r2 ∧ t = u.succeeded r0 r1 r2) ∨
    (s.status.err = false ∧ ∃ e i0 i1, ruleOf i s = .raise e i0 i1 ∧ t = s.failed i.opcode e.code i0 i1) :=
  runCommand_cases (exec_eq_runCommand hi s ▸ h)

/-! ## Searches and record reads -/

/-- IsScalar, as numbers (41_frequency.md R125). -/
theorem isScalar_iff (v : Word) : isScalar v = true ↔ ScalarValue v := by
  simp [isScalar, ScalarValue]; intro _; omega

/-- Find of an absent symbol (41_frequency.md R126). -/
theorem findSymbol_absent {s : State} {v} (h : s.Absent v) : s.findSymbol v = none := by
  simp [State.findSymbol, List.findIdx?_eq_none_iff]
  intro e he; exact h e he

/-- Find of a present symbol (41_frequency.md R126). -/
theorem findSymbol_entry {s : State} {v i e} (h : s.EntryFor v i e) : s.findSymbol v = some i := by
  obtain ⟨h1, h2, h3⟩ := h
  unfold State.findSymbol
  rw [List.findIdx?_eq_some_iff_getElem]
  obtain ⟨hl, rfl⟩ := List.getElem?_eq_some_iff.mp h1
  refine ⟨hl, by simp [h2], fun j hj => ?_⟩
  simp only [beq_iff_eq]
  intro hc
  have := h3 j _ (List.getElem?_eq_getElem (by omega)) hc
  omega

theorem absent_of_findSymbol {s : State} {v} (h : s.findSymbol v = none) : s.Absent v := by
  simpa [State.findSymbol, List.findIdx?_eq_none_iff, State.Absent] using h

/-- LeafOf of a symbol without a leaf (44_codec.md R180). -/
theorem leafOf_noLeaf {s : State} {v} (h2 : s.NoLeaf v) : s.leafOf v = none := by
  simp only [State.leafOf, List.findIdx?_eq_none_iff]
  intro x hx
  obtain ⟨j, hj, rfl⟩ := List.mem_iff_getElem.mp hx
  simp only [List.length_take] at hj
  cases hnode : (s.nodes.take s.ft.length)[j] with
  | internal f l r => rfl
  | leaf sym f =>
    simp only [List.getElem_take] at hnode
    have := h2 j sym f (by omega) (by rw [List.getElem?_eq_getElem (by omega), hnode])
    simpa [Node.holds] using this

/-- LeafOf of a symbol with a leaf (44_codec.md R180). -/
theorem leafOf_leafFor {s : State} {v k} (h : s.LeafFor v k) : s.leafOf v = some k := by
  obtain ⟨h1, ⟨sym, f, h2, h3⟩, h4⟩ := h
  obtain ⟨hl, hn⟩ := List.getElem?_eq_some_iff.mp h2
  unfold State.leafOf
  rw [List.findIdx?_eq_some_iff_getElem]
  refine ⟨by simp; omega, by simp [hn, Node.holds, h3], fun j hj => ?_⟩
  rw [List.getElem_take]
  cases hnode : s.nodes[j] with
  | internal f l r => simp [Node.holds]
  | leaf sym' f' =>
    simp only [Node.holds, beq_iff_eq]
    intro hc
    have := h4 j sym' f' (by omega) (by rw [List.getElem?_eq_getElem (by omega), hnode]) hc
    omega

theorem State.entryAt_of {s : State} {i e} (h : s.ft[i]? = some e) : s.entryAt i = e := by simp [State.entryAt, h]

theorem nodeAt_of {l : List Node} {i e} (h : l[i]? = some e) : nodeAt l i = e := by simp [nodeAt, h]

theorem State.codeAt_of {s : State} {k c} (h : s.codes[k]? = some c) : s.codeAt k = c := by simp [State.codeAt, h]

/-- No count exceeds the sum of the counts. -/
theorem count_le_countSum {ft : List FreqEntry} {i : Nat} {e : FreqEntry} (h : ft[i]? = some e) :
    e.count.toNat ≤ countSum ft := by
  unfold countSum
  have hm := List.mem_of_getElem? h
  exact List.le_sum_of_mem (List.mem_map.mpr ⟨e, hm, rfl⟩)

/-! ## Bit sequences -/

theorem bitsToNat_append (l : List Bool) (b : Bool) : bitsToNat (l ++ [b]) = 2 * bitsToNat l + b.toNat := by
  simp [bitsToNat]

theorem testBit_bitsToNat (l : List Bool) (j : Nat) :
    (bitsToNat l).testBit j = if j < l.length then l.getD (l.length - 1 - j) false else false := by
  induction l using List.reverseRecOn generalizing j with
  | nil => simp [bitsToNat]
  | append_singleton l b ih =>
    rw [bitsToNat_append]
    have hb : (2 * bitsToNat l + b.toNat) = Nat.bit b (bitsToNat l) := by cases b <;> simp [Nat.bit]
    rw [hb]
    cases j with
    | zero => simp
    | succ j =>
      rw [Nat.testBit_bit_succ, ih]
      simp only [List.length_append, List.length_cons, List.length_nil, Nat.zero_add, Nat.add_lt_add_iff_right]
      split
      · rw [show l.length + 1 - 1 - (j+1) = l.length - 1 - j by omega, List.getD_append _ _ _ _ (by omega)]
      · rfl

/-- Bit j of a sequence of up to 32 bits as a word: the first bit is the most significant (45_bitpack.md R202). -/
theorem getLsbD_word_bitsToNat (l : List Bool) (hl : l.length ≤ 32) (j : Nat) :
    (word (bitsToNat l)).getLsbD j = if j < l.length then l.getD (l.length - 1 - j) false else false := by
  rw [BitVec.getLsbD_ofNat, testBit_bitsToNat]
  by_cases h : j < l.length
  · simp [h]; omega
  · simp [h]

/-- SET_BITLEN keeps the top n mod 8 bits of the last byte and clears the rest (45_bitpack.md R203). -/
theorem getLsbD_zeroPadding (x : Byte) (n k : Nat) :
    (zeroPadding x n).getLsbD k = (decide (8 - n % 8 ≤ k) && x.getLsbD k) := by
  unfold zeroPadding
  rw [BitVec.getLsbD_and, BitVec.getLsbD_not, BitVec.getLsbD_ofNat, Nat.testBit_two_pow_sub_one]
  by_cases hk : k < 8
  · by_cases h : k < 8 - n % 8
    · rw [decide_eq_true h, decide_eq_false (show ¬ 8 - n % 8 ≤ k by omega)]; simp [hk]
    · rw [decide_eq_false h, decide_eq_true (show 8 - n % 8 ≤ k by omega)]; simp [hk]
  · have : x.getLsbD k = false := BitVec.getLsbD_of_ge _ _ (by omega)
    simp [this]

/-! ## The stream -/

/-- What appending bits does to the stream (20_memory.md R66). -/
theorem appended_streamAppendAll (s : State) (l : List Bool) : Appended s (s.streamAppendAll l) l := by
  refine ⟨fun p hp => ?_, fun j hj => ?_, fun p h1 h2 => ?_, fun i h => State.readByte_streamAppendAll_other s l h⟩
  · rw [State.streamBit_streamAppendAll s l (by omega), if_pos hp]
  · rw [State.streamBit_streamAppendAll s l (by omega), if_neg (by omega)]
    simp [List.getD_eq_getElem?_getD, hj]
  · induction l generalizing s with
    | nil => exact ⟨fun h => by simp only [List.length_nil, Nat.add_zero] at h2; omega, fun _ => rfl⟩
    | cons b l ih =>
      rw [State.streamAppendAll_cons]
      have := ih (s.streamAppend b) (by simp at h1 ⊢; omega) (by simpa [Nat.add_assoc, Nat.add_comm 1] using h2)
      simp only [State.streamAppend_bitlen] at this
      simp only [List.length_cons] at h1 h2
      have hrb : p / 8 = s.bitlen / 8 → p < padLen (s.bitlen + 1) → s.bitlen < p →
          (s.streamAppend b).streamBit p = if s.bitlen % 8 = 0 then false else s.streamBit p := by
        intro hq hp1 hp2
        unfold State.streamBit
        rw [State.readByte_streamAppend, if_pos hq, getLsbD_setBit _ _ (by omega), if_neg (by omega)]
        split
        · simp
        · rw [hq]
      constructor
      · intro hp
        by_cases hp1 : padLen (s.bitlen + 1) ≤ p
        · exact this.1 hp1
        · rw [this.2 (by omega), hrb (by simp only [padLen] at *; omega) (by omega) (by omega),
            if_pos (by simp only [padLen] at *; omega)]
      · intro hp
        have hp1 : p < padLen (s.bitlen + 1) := by simp only [padLen] at *; omega
        rw [this.2 hp1, hrb (by simp only [padLen] at *; omega) hp1 (by omega),
          if_neg (by simp only [padLen] at *; omega)]

theorem appended_withPbuf_streamAppendAll (s : State) (l : List Bool) :
    Appended s (s.withPbuf (s.streamAppendAll l).pbuf) l := by
  have h := appended_streamAppendAll s l
  have hr : ∀ i, (s.withPbuf (s.streamAppendAll l).pbuf).readByte i = (s.streamAppendAll l).readByte i := fun i =>
    State.readByte_congr (s := s.streamAppendAll l) (t := s.withPbuf (s.streamAppendAll l).pbuf) rfl
      (by rw [State.streamAppendAll_frame]; rfl) i
  have hb : ∀ p, (s.withPbuf (s.streamAppendAll l).pbuf).streamBit p = (s.streamAppendAll l).streamBit p := fun p => by
    simp [State.streamBit, hr]
  simpa only [Appended, State.StreamHas, hr, hb] using h

end Sys2Proof.Machine
end

