-- ==== Sys2Proof/Laws/Outside.lean ====
section
/-! SUPPORT. WOB and the model's own fields are outside what a command reads: a command performed with other values of them
does the same to the rest of the state. -/

namespace Sys2Proof.Machine

/-- The state with another WOB and other fields of the model's own. -/
def State.withOutside (b : Bool) (e : Env) (s : State) : State :=
  { s with status := { s.status with wob := b }, env := e }

theorem withOutside_wob {t : State} {b : Bool} {e : Env} (h : t.status.wob = b) :
    t.withOutside b e = { t with env := e } := by
  subst h; rfl

/-- A rule's result, its state taken through f. -/
def CmdResult.map (f : State → State) : CmdResult → CmdResult
  | .ok t r0 r1 r2 => .ok (f t) r0 r1 r2
  | .raise e i0 i1 => .raise e i0 i1

variable {b : Bool} {e : Env} {s : State}

theorem withOutside_readByte (h : e.epoch = s.env.epoch) (i : Nat) :
    (s.withOutside b e).readByte i = s.readByte i :=
  State.readByte_congr (s := s) (t := s.withOutside b e) rfl h i

theorem withOutside_streamBit (h : e.epoch = s.env.epoch) (p : Nat) :
    (s.withOutside b e).streamBit p = s.streamBit p := by
  simp [State.streamBit, withOutside_readByte h]

theorem withOutside_streamBits (h : e.epoch = s.env.epoch) (p n : Nat) :
    (s.withOutside b e).streamBits p n = s.streamBits p n := by
  simp [State.streamBits, withOutside_streamBit h]

theorem withOutside_streamAppend (h : e.epoch = s.env.epoch) (x : Bool) :
    (s.withOutside b e).streamAppend x = (s.streamAppend x).withOutside b e := by
  have hb : (s.withOutside b e).bitlen = s.bitlen := rfl
  have hp : (s.withOutside b e).pbuf = s.pbuf := rfl
  rw [State.streamAppend_eq, hb, hp, withOutside_readByte h]
  rfl

theorem withOutside_streamAppendAll (l : List Bool) : ∀ {s : State}, e.epoch = s.env.epoch →
    (s.withOutside b e).streamAppendAll l = (s.streamAppendAll l).withOutside b e := by
  induction l with
  | nil => intros; rfl
  | cons x l ih =>
    intro s h
    rw [State.streamAppendAll_cons, withOutside_streamAppend h]
    exact ih h

theorem withOutside_walk (h : e.epoch = s.env.epoch) (n l r p : Nat) :
    (s.withOutside b e).walk n l r p = s.walk n l r p := by
  induction n generalizing l r p with
  | zero => rfl
  | succ n ih =>
    have hn : (s.withOutside b e).nodes = s.nodes := rfl
    simp only [State.walk, withOutside_streamBit h, hn]
    split <;> simp [ih]

/-- No rule reads or writes WOB or the model's own fields, but for the reset epoch that names PBUF's unwritten bytes. -/
theorem ruleOf_withOutside (h : e.epoch = s.env.epoch) (i : Instr) :
    ruleOf i (s.withOutside b e) = (ruleOf i s).map (State.withOutside b e) := by
  have hft : (s.withOutside b e).ft = s.ft := rfl
  have hn : (s.withOutside b e).nodes = s.nodes := rfl
  have htv : (s.withOutside b e).status.treeValid = s.status.treeValid := rfl
  have hcv : (s.withOutside b e).status.codesValid = s.status.codesValid := rfl
  have hbl : (s.withOutside b e).bitlen = s.bitlen := rfl
  have hrd : (s.withOutside b e).rdptr = s.rdptr := rfl
  have h0 : (s.withOutside b e).arg0 = s.arg0 := rfl
  have h1 : (s.withOutside b e).arg1 = s.arg1 := rfl
  have ht : (s.withOutside b e).total = s.total := rfl
  have hcf : (s.withOutside b e).cfg = s.cfg := rfl
  have hfs : ∀ v, (s.withOutside b e).findSymbol v = s.findSymbol v := fun _ => rfl
  have hlf : ∀ v, (s.withOutside b e).leafOf v = s.leafOf v := fun _ => rfl
  have hca : ∀ k, (s.withOutside b e).codeAt k = s.codeAt k := fun _ => rfl
  have hea : ∀ k, (s.withOutside b e).entryAt k = s.entryAt k := fun _ => rfl
  cases i
  all_goals
    simp only [ruleOf, nopRule, streamResetRule, freqLookupRule, freqGetRule, nodeGetRule, codeGetRule, encodeSymbolRule,
      decodeSymbolRule, putBitsRule, getBitsRule, setBitlenRule, seekRdRule, freqClearRule, freqCountRule, freqSetRule,
      treeBuildRule, codeGenRule, State.symbolOperand, State.countOperand, State.indexOperand, State.wordIndexOperand,
      State.bitValueOperand, State.bitCountOperand, State.bitPositionOperand, hft, hn, htv, hcv, hbl, hrd, h0, h1, ht,
      hcf, hfs, hlf, hca, hea, withOutside_streamBit h, withOutside_streamBits h, withOutside_walk h,
      withOutside_readByte h, withOutside_streamAppendAll _ h]
  all_goals first | rfl | (repeat' split) <;> rfl

/-- A command but RESET does the same whatever WOB and the model's own fields are. -/
theorem runCommand_ruleOf_withOutside (h : e.epoch = s.env.epoch) {i : Instr} {opc : Byte} {t : State}
    (hx : runCommand opc (ruleOf i) s = .next t) :
    runCommand opc (ruleOf i) (s.withOutside b e) = .next (t.withOutside b e) := by
  obtain ⟨he, rfl⟩ | ⟨he, u, r0, r1, r2, hr, rfl⟩ | ⟨he, x, i0, i1, hr, rfl⟩ := runCommand_cases hx
  · rw [runCommand_err (s := s.withOutside b e) _ _ he]; rfl
  · rw [runCommand_ready (s := s.withOutside b e) _ _ he, ruleOf_withOutside h, hr]; rfl
  · rw [runCommand_ready (s := s.withOutside b e) _ _ he, ruleOf_withOutside h, hr]; rfl

theorem execIllegal_withOutside {w : Word} {t : State} (hx : execIllegal w s = .next t) :
    execIllegal w (s.withOutside b e) = .next (t.withOutside b e) := by
  unfold execIllegal at hx ⊢
  cases he : s.status.err
  · rw [runCommand_ready _ _ he] at hx
    cases hx
    rw [runCommand_ready (s := s.withOutside b e) _ _ he]; rfl
  · rw [runCommand_err _ _ he] at hx
    cases hx
    rw [runCommand_err (s := s.withOutside b e) _ _ he]; rfl

/-- A command word, performed with other fields of the model's own, does the same to the block. -/
theorem performWord_withEnv (h : e.epoch = s.env.epoch) {w : Word} {t : State} (hx : performWord w s = .next t) :
    performWord w { s with env := e } = .next { t with env := e } := by
  cases hd : decode w with
  | ok i =>
    rw [performWord_ok hd] at hx ⊢
    by_cases hi : i = .reset
    · subst hi
      cases hx
      rfl
    · have hwob : t.status.wob = s.status.wob := by
        obtain ⟨-, rfl⟩ | ⟨-, u, r0, r1, r2, hr, rfl⟩ | ⟨-, x, i0, i1, hr, rfl⟩ :=
          runCommand_cases (exec_eq_runCommand hi s ▸ hx)
        · rfl
        · rw [ruleOf_sameOutside hr]; rfl
        · rfl
      rw [exec_eq_runCommand hi] at hx ⊢
      have := runCommand_ruleOf_withOutside (b := s.status.wob) h hx
      exact this.trans (congrArg Host.Outcome.next (withOutside_wob hwob))
  | error x =>
    rw [performWord_error hd] at hx ⊢
    have hwob : t.status.wob = s.status.wob := by
      obtain ⟨-, rfl⟩ | ⟨-, u, r0, r1, r2, hr, rfl⟩ | ⟨-, x, i0, i1, hr, rfl⟩ := runCommand_cases hx
      · rfl
      · cases hr
      · rfl
    have := execIllegal_withOutside (b := s.status.wob) (e := e) hx
    exact this.trans (congrArg Host.Outcome.next (withOutside_wob hwob))

/-- The model's own fields are as a command word found them. -/
theorem performWord_env {w : Word} {t : State} (hx : performWord w s = .next t) : t.env = s.env := by
  cases hd : decode w with
  | ok i =>
    rw [performWord_ok hd] at hx
    by_cases hi : i = .reset
    · subst hi; cases hx; rfl
    · obtain ⟨-, rfl⟩ | ⟨-, u, r0, r1, r2, hr, rfl⟩ | ⟨-, x, i0, i1, hr, rfl⟩ :=
        runCommand_cases (exec_eq_runCommand hi s ▸ hx)
      · rfl
      · rw [ruleOf_sameOutside hr]; rfl
      · rfl
  | error x =>
    rw [performWord_error hd] at hx
    obtain ⟨-, rfl⟩ | ⟨-, u, r0, r1, r2, hr, rfl⟩ | ⟨-, x, i0, i1, hr, rfl⟩ := runCommand_cases hx
    · rfl
    · cases hr
    · rfl

end Sys2Proof.Machine
end

