-- ==== Sys2Proof/Laws/Port.lean ====
section
/-! SUPPORT. The port, said once: the bits of STATUS and CTRL, what an offset names, and what the step of an admitted
host access is. -/

namespace Sys2Proof.Machine

/-! ## Flag words -/

theorem getLsbD_flagBit {k : Nat} (hk : k < 32) (b : Bool) (j : Nat) :
    (flagBit k b).getLsbD j = (decide (j = k) && b) := by
  unfold flagBit
  cases b
  · simp
  · rw [if_pos rfl, BitVec.getLsbD_shiftLeft]
    by_cases h : j = k
    · subst h; simp [hk]
    · simp [h]; omega

/-- The bits of STATUS (10_state.md R24). -/
theorem State.getLsbD_statusWord (s : State) (k : Nat) : s.statusWord.getLsbD k =
    ([s.busy, s.status.done, s.status.err, s.status.wob, s.status.treeValid, s.status.codesValid].getD k false) := by
  unfold State.statusWord
  simp only [BitVec.getLsbD_or]
  repeat rw [getLsbD_flagBit (by omega)]
  rcases k with _ | _ | _ | _ | _ | _ | k <;> simp

/-- The bits of CTRL (10_state.md R23). -/
theorem State.getLsbD_ctrlWord (s : State) (k : Nat) :
    s.ctrlWord.getLsbD k = ([s.ctrl.ieDone, s.ctrl.ieErr].getD k false) := by
  unfold State.ctrlWord
  simp only [BitVec.getLsbD_or]
  repeat rw [getLsbD_flagBit (by omega)]
  rcases k with _ | _ | k <;> simp

/-! ## What an offset names -/

theorem admitted_iff (c : Params) (off width : Nat) :
    admitted c off width = true ↔ width = 4 ∧ off % 4 = 0 ∧ off < 0x1000 + c.pbufBytes := by
  simp only [admitted, Bool.and_eq_true, beq_iff_eq, decide_eq_true_eq, and_assoc]
  rfl

theorem portTarget_offset (r : Reg) : portTarget r.offset = .reg r := by cases r <;> rfl

theorem portTarget_reserved {off : Nat} (h1 : 0x04C ≤ off) (h2 : off < 0x1000) : portTarget off = .reserved := by
  unfold portTarget
  rw [if_neg (by omega)]
  split
  · rename_i r hf
    have := List.find?_some hf
    cases r <;> simp [Reg.offset] at this <;> omega
  · rfl

theorem portTarget_window (m : Nat) : portTarget (0x1000 + 4 * m) = .window m := by
  unfold portTarget
  rw [if_pos (by omega)]
  congr 1
  omega

/-! ## The step of an admitted access -/

theorem step_read (s : State) (l : List Input) {off : Nat} (hr : s.resetHeld = false) (h4 : off % 4 = 0)
    (ha : off < 0x1000 + s.cfg.pbufBytes) :
    step (s.withInputs (.read off 4 :: l)) = .next ((s.withInputs l).hostRead (portTarget off)) :=
  (step_cons (x := .read off 4) (l := l) rfl).trans
    (hostAccess_admitted (s := s.withInputs l) (fun tgt => (s.withInputs l).hostRead tgt) hr
      ((admitted_iff _ _ _).mpr ⟨rfl, h4, ha⟩))

theorem step_write (s : State) (l : List Input) {off : Nat} (v : Word) (hr : s.resetHeld = false) (h4 : off % 4 = 0)
    (ha : off < 0x1000 + s.cfg.pbufBytes) :
    step (s.withInputs (.write off 4 v :: l)) = .next ((s.withInputs l).hostWrite (portTarget off) v) :=
  (step_cons (x := .write off 4 v) (l := l) rfl).trans
    (hostAccess_admitted (s := s.withInputs l) (fun tgt => (s.withInputs l).hostWrite tgt v) hr
      ((admitted_iff _ _ _).mpr ⟨rfl, h4, ha⟩))

theorem State.hostRead_idle {s : State} (tgt : PortTarget) (h : s.busy = false) :
    s.hostRead tgt = s.replyWith (s.targetValue tgt) := by
  simp [State.hostRead, h]

theorem State.hostRead_busy {s : State} (tgt : PortTarget) (h : s.busy = true) :
    s.hostRead tgt = if tgt.busyStable then s.replyWith (s.targetValue tgt) else s.replyDraw := by
  cases ht : tgt.busyStable <;> simp [State.hostRead, h, ht]

end Sys2Proof.Machine
end

