-- ==== Sys2Proof/Laws/HostProgram.lean ====
section
/-! SUPPORT. Host programs, said once: what a completed part of a program says of its schedule, what ends a WAIT, and that
what one input does, does not depend on the inputs after it. -/

namespace Sys2Proof.Machine

/-! ## The parts of a program -/

@[simp] theorem HostEnd.andThen_complete (s : State) (rest : Schedule) (f : State → Schedule → HostEnd) :
    (HostEnd.complete s rest).andThen f = f s rest := rfl

@[simp] theorem HostEnd.andThen_unfinished (s : State) (f : State → Schedule → HostEnd) :
    (HostEnd.unfinished s).andThen f = .unfinished s := rfl

/-- Two parts are complete exactly when the first is and then the second. -/
theorem HostEnd.andThen_eq_complete {e : HostEnd} {f : State → Schedule → HostEnd} {t : State} {rest : Schedule}
    (h : e.andThen f = .complete t rest) : ∃ s sched, e = .complete s sched ∧ f s sched = .complete t rest := by
  cases e with
  | complete s sched => exact ⟨s, sched, rfl, h⟩
  | unfinished s => cases h
  | fault f => cases h
  | refused r => cases h

/-- A bus operation is the engine's turn, if it is scheduled, and then the access. -/
theorem busOp_eq_next {turn : Bool} {x : Input} {s t : State} (h : busOp turn x s = .next t) :
    ∃ u, (if turn then engineTurn s else .next s) = .next u ∧ takeInput u x = .next t := by
  unfold busOp at h
  split at h
  · exact ⟨_, by assumption, h⟩
  · cases h
  · cases h

theorem busOp_no_turn (x : Input) (s : State) : busOp false x s = takeInput s x := rfl

theorem busOp_turn {x : Input} {s t : State} (h : engineTurn s = .next t) : busOp true x s = takeInput t x := by
  simp [busOp, h]

/-- On an idle block it does not matter whether the engine has its turn. -/
theorem busOp_idle (turn : Bool) (x : Input) {s : State} (h : s.pending = none) : busOp turn x s = takeInput s x := by
  cases turn
  · rfl
  · exact busOp_turn (engineTurn_idle h)

theorem issue_eq_complete {x : Input} {s t : State} {sched rest : Schedule} (h : issue x s sched = .complete t rest) :
    ∃ turn, sched = turn :: rest ∧ busOp turn x s = .next t := by
  cases sched with
  | nil => cases h
  | cons turn l =>
    cases hb : busOp turn x s <;> simp only [issue, hb] at h <;> cases h
    exact ⟨turn, rfl, hb⟩

theorem issue_of_busOp {x : Input} {s t : State} {turn : Bool} (rest : Schedule) (h : busOp turn x s = .next t) :
    issue x s (turn :: rest) = .complete t rest := by
  simp [issue, h]

/-! ## Reads and writes -/

/-- A read of STATUS returns it, and changes nothing else (10_state.md R36). -/
theorem takeInput_readStatus {s t : State} (h : takeInput s (busRead Reg.status.offset) = .next t) :
    t = s.replyWith s.statusWord := by
  obtain ⟨-, h1⟩ | ⟨-, -, h1⟩ | ⟨-, -, h1⟩ :=
    hostAccess_cases s Reg.status.offset 4 (fun tgt => s.hostRead tgt)
  · rw [busRead, takeInput, h1] at h; cases h
  · rw [busRead, takeInput, h1] at h
    cases h
    show s.hostRead (.reg .status) = _
    unfold State.hostRead
    rw [if_neg (by simp [PortTarget.busyStable, Reg.busyStable])]
    rfl
  · rw [busRead, takeInput, h1] at h; cases h

/-- An access of a mapped register is admitted outside a hardware reset. -/
theorem admitted_reg (c : Params) (r : Reg) : admitted c r.offset 4 = true := by
  rw [admitted_iff]
  cases r <;> refine ⟨rfl, by decide, ?_⟩ <;> simp only [Reg.offset] <;> omega

theorem takeInput_readReg {s : State} (r : Reg) (h : s.resetHeld = false) :
    takeInput s (busRead r.offset) = .next (s.hostRead (.reg r)) := by
  rw [busRead, takeInput, hostAccess_admitted _ h (admitted_reg _ _), portTarget_offset]

theorem takeInput_writeReg {s : State} (r : Reg) (v : Word) (h : s.resetHeld = false) :
    takeInput s (busWrite r.offset v) = .next (s.hostWrite (.reg r) v) := by
  rw [busWrite, takeInput, hostAccess_admitted _ h (admitted_reg _ _), portTarget_offset]

/-- A completed WAIT has read BUSY = 0: the block is idle, and the last reply is STATUS (30_encoding.md R97). -/
theorem waitRun_eq_complete {s t : State} {sched rest : Schedule} (h : waitRun s sched = .complete t rest) :
    t.busy = false ∧ t.env.reply = some t.statusWord := by
  induction sched generalizing s with
  | nil => cases h
  | cons turn l ih =>
    unfold waitRun at h
    split at h
    · rename_i u hu
      split at h
      · exact ih h
      · rename_i hb
        cases h
        obtain ⟨v, -, hv⟩ := busOp_eq_next hu
        have := takeInput_readStatus hv
        subst this
        refine ⟨?_, rfl⟩
        have hl : (v.replyWith v.statusWord).lastReply = v.statusWord := rfl
        rw [hl, State.getLsbD_statusWord] at hb
        have hi : v.busy = false := by simpa using hb
        exact hi
    · cases h
    · cases h

/-! ## One input after another -/

theorem hostRead_withInputs (s : State) (tgt : PortTarget) (l : List Input) :
    (s.withInputs l).hostRead tgt = (s.hostRead tgt).withInputs l := by
  have hv : (s.withInputs l).targetValue tgt = s.targetValue tgt := by cases tgt <;> rfl
  simp only [State.hostRead, withInputs_busy, hv]
  split <;> rfl

theorem hostWrite_withInputs (s : State) (tgt : PortTarget) (v : Word) (l : List Input) :
    (s.withInputs l).hostWrite tgt v = (s.hostWrite tgt v).withInputs l := by
  cases hb : s.busy
  · rw [State.hostWrite_idle (s := s.withInputs l) _ _ hb, State.hostWrite_idle _ _ hb]
    cases tgt with
    | reg r =>
      cases r
      case status =>
        simp only [State.writeTarget, State.writeReg, State.writeStatus]
        split <;> rfl
      all_goals rfl
    | window m => rfl
    | reserved => rfl
  · rw [State.hostWrite_busy (s := s.withInputs l) _ _ hb, State.hostWrite_busy _ _ hb]
    rfl

/-- What one input does, does not depend on the inputs after it, and leaves them. -/
theorem takeInput_withInputs {s t : State} {x : Input} (h : takeInput s x = .next t) (l : List Input) :
    takeInput (s.withInputs l) x = .next (t.withInputs l) := by
  cases x with
  | engine =>
    cases hp : s.pending with
    | none =>
      rw [takeInput, engineTurn_idle hp] at h
      cases h
      exact engineTurn_idle hp
    | some w =>
      rw [takeInput, engineTurn_pending hp] at h
      rw [takeInput, engineTurn_pending (s := s.withInputs l) hp, State.withInputs]
      rw [performWord_withEnv (by rfl) h, State.withInputs, performWord_env h]
  | read off width =>
    obtain ⟨-, h1⟩ | ⟨hr, ha, h1⟩ | ⟨-, -, h1⟩ := hostAccess_cases s off width (fun tgt => s.hostRead tgt)
    · rw [takeInput, h1] at h; cases h
    · rw [takeInput, h1] at h
      cases h
      rw [takeInput, hostAccess_admitted (s := s.withInputs l) _ hr ha, hostRead_withInputs]
    · rw [takeInput, h1] at h; cases h
  | write off width v =>
    obtain ⟨-, h1⟩ | ⟨hr, ha, h1⟩ | ⟨-, -, h1⟩ := hostAccess_cases s off width (fun tgt => s.hostWrite tgt v)
    · rw [takeInput, h1] at h; cases h
    · rw [takeInput, h1] at h
      cases h
      rw [takeInput, hostAccess_admitted (s := s.withInputs l) _ hr ha, hostWrite_withInputs]
    · rw [takeInput, h1] at h; cases h
  | assertReset => cases h; rfl
  | releaseReset => cases h; rfl

/-- Steps, and then more steps. -/
theorem steps_add {m n : Nat} {s t : State} (h : steps m s = .next t) : steps (m + n) s = steps n t := by
  induction m generalizing s with
  | zero => cases h; rw [Nat.zero_add]
  | succ m ih =>
    rw [Nat.add_right_comm, steps]
    rw [steps] at h
    split at h
    · exact ih h
    · cases h
    · cases h

end Sys2Proof.Machine
end

