-- ==== Sys2Proof/Laws/PerInstr.lean ====
section
/-! SUPPORT. Statements about every command as syntax, one lemma per constructor. -/

namespace Sys2Proof.Laws.EncodingShape

/-- The command word has RSV = 0 and carries the opcode, which is an assigned one (30_encoding.md R90, R93). -/
def Statement (i : Instr) : Prop :=
  rsvField (encode i) = 0#24 ∧ opField (encode i) = i.opcode ∧ i.opcode ∈ assignedOpcodes

theorem nop : Statement .nop := by unfold Statement; decide
theorem reset : Statement .reset := by unfold Statement; decide
theorem freqClear : Statement .freqClear := by unfold Statement; decide
theorem freqCount : Statement .freqCount := by unfold Statement; decide
theorem freqSet : Statement .freqSet := by unfold Statement; decide
theorem freqLookup : Statement .freqLookup := by unfold Statement; decide
theorem freqGet : Statement .freqGet := by unfold Statement; decide
theorem treeBuild : Statement .treeBuild := by unfold Statement; decide
theorem nodeGet : Statement .nodeGet := by unfold Statement; decide
theorem codeGen : Statement .codeGen := by unfold Statement; decide
theorem codeGet : Statement .codeGet := by unfold Statement; decide
theorem encodeSymbol : Statement .encodeSymbol := by unfold Statement; decide
theorem decodeSymbol : Statement .decodeSymbol := by unfold Statement; decide
theorem streamReset : Statement .streamReset := by unfold Statement; decide
theorem putBits : Statement .putBits := by unfold Statement; decide
theorem getBits : Statement .getBits := by unfold Statement; decide
theorem setBitlen : Statement .setBitlen := by unfold Statement; decide
theorem seekRd : Statement .seekRd := by unfold Statement; decide

end Sys2Proof.Laws.EncodingShape
end

