-- ==== Sys2Proof/Laws/Tree.lean ====
section
/-! SUPPORT. The tree, the codes and the walk: what sorting, taking the least element, the merge loop, a path search and a
tree walk answer. -/

namespace Sys2Proof.Machine

/-! ## Leaves (42_tree.md R140, R141) -/

theorem insertBySym_perm (e : FreqEntry) (l) : (insertBySym e l).Perm (e :: l) := by
  induction l with
  | nil => rfl
  | cons x l ih =>
    unfold insertBySym; split
    · rfl
    · exact (List.Perm.cons x ih).trans (List.Perm.swap e x l)

theorem sortBySym_perm (ft) : (sortBySym ft).Perm ft := by
  induction ft with
  | nil => rfl
  | cons e l ih => exact (insertBySym_perm e _).trans (ih.cons e)

theorem insertBySym_sorted {e : FreqEntry} {l} (h : l.Pairwise (fun x y : FreqEntry => x.sym.toNat ≤ y.sym.toNat)) :
    (insertBySym e l).Pairwise (fun x y => x.sym.toNat ≤ y.sym.toNat) := by
  induction l with
  | nil => simp [insertBySym]
  | cons x l ih =>
    obtain ⟨h1, h2⟩ := List.pairwise_cons.mp h
    unfold insertBySym; split
    · rename_i hx
      refine List.pairwise_cons.mpr ⟨fun y hy => ?_, h⟩
      rcases List.mem_cons.mp hy with rfl | hy
      · exact hx
      · have := h1 y hy; omega
    · refine List.pairwise_cons.mpr ⟨fun y hy => ?_, ih h2⟩
      rcases List.mem_cons.mp ((insertBySym_perm e l).mem_iff.mp hy) with rfl | hy
      · omega
      · exact h1 y hy

theorem sortBySym_sorted (ft) : (sortBySym ft).Pairwise (fun x y => x.sym.toNat ≤ y.sym.toNat) := by
  induction ft with
  | nil => exact List.Pairwise.nil
  | cons e l ih => exact insertBySym_sorted ih

theorem leavesOf_length (ft) : (leavesOf ft).length = ft.length := by simp [leavesOf, (sortBySym_perm ft).length_eq]

/-- The sorted table depends on the set of entries only (42_tree.md R142). -/
theorem sortBySym_unique {ft ft' : List FreqEntry} (hu : UniqueSymbols ft) (hp : ft.Perm ft') : sortBySym ft =
    sortBySym ft' := by
  have hnd : ∀ l : List FreqEntry, UniqueSymbols l → (sortBySym l).Pairwise (fun x y => x.sym.toNat < y.sym.toNat) := by
    intro l hl
    have h1 : ((sortBySym l).map (fun e => e.sym)).Nodup := ((sortBySym_perm l).map _).nodup_iff.mpr hl
    have h2 := sortBySym_sorted l
    have h3 := List.pairwise_map.mp h1
    exact (h2.and h3).imp fun ⟨h4, h5⟩ => by
      have : (_ : Nat) ≠ _ := fun h => h5 (BitVec.eq_of_toNat_eq h)
      omega
  have hu' : UniqueSymbols ft' := (hp.map _).nodup_iff.mp hu
  have hpp : (sortBySym ft).Perm (sortBySym ft') := ((sortBySym_perm ft).trans hp).trans (sortBySym_perm ft').symm
  exact hpp.eq_of_pairwise (fun a b _ _ h1 h2 => absurd h1 (by omega)) (hnd ft hu) (hnd ft' hu')

/-! ## The priority collection (42_tree.md R140) -/

theorem precedes_trans {nodes a b c} (h1 : precedes nodes a b = true) (h2 : precedes nodes b c = true) :
    precedes nodes a c = true := by
  simp [precedes] at *; omega

theorem precedes_total {nodes a b} (h : a ≠ b) (h1 : precedes nodes a b = false) : precedes nodes b a = true := by
  simp [precedes] at *; omega

theorem leastOf_spec (nodes) (q) : ∀ j, leastOf nodes j q ∈ j :: q ∧ ∀ b ∈ j :: q, b ≠ leastOf nodes j q →
    precedes nodes (leastOf nodes j q) b = true := by
  induction q with
  | nil => intro j; exact ⟨by simp [leastOf], by simp [leastOf]⟩
  | cons x q ih =>
    intro j
    have hstep : leastOf nodes j (x :: q) = leastOf nodes (if precedes nodes x j then x else j) q := rfl
    rw [hstep]
    cases hx : precedes nodes x j
    · simp only [Bool.false_eq_true, if_false]
      obtain ⟨h1, h2⟩ := ih j
      refine ⟨?_, fun b hb hne => ?_⟩
      · rcases List.mem_cons.mp h1 with h | h
        · rw [h]; simp
        · simp [h]
      · by_cases hbx : b = x
        · subst hbx
          by_cases hj : j = leastOf nodes j q
          · rw [← hj]; exact precedes_total (fun h => hne (h.trans hj)) hx
          · by_cases hjx : j = b
            · subst hjx; exact h2 _ List.mem_cons_self hne
            · exact precedes_trans (h2 j List.mem_cons_self hj) (precedes_total (Ne.symm hjx) hx)
        · exact h2 b (by simp at hb ⊢; tauto) hne
    · simp only [if_true]
      obtain ⟨h1, h2⟩ := ih x
      refine ⟨by simp at h1 ⊢; tauto, fun b hb hne => ?_⟩
      by_cases hbj : b = j
      · subst hbj
        by_cases hxl : x = leastOf nodes x q
        · rw [← hxl]; exact hx
        · exact precedes_trans (h2 x List.mem_cons_self hxl) hx
      · exact h2 b (by simp at hb ⊢; tauto) hne

theorem isLeast_leastOf (nodes j q) : IsLeast nodes (j :: q) (leastOf nodes j q) := by
  obtain ⟨h1, h2⟩ := leastOf_spec nodes q j
  refine ⟨h1, fun b hb hne => ?_⟩
  have := h2 b hb hne
  simpa [precedes] using this

/-! ## The merge loop (42_tree.md R141) -/

theorem mergeLoop_merges : ∀ rounds q nodes, q ≠ [] → q.length ≤ rounds → Merges nodes q (mergeLoop rounds q nodes) := by
  intro rounds
  induction rounds with
  | zero => intro q nodes h1 h2; exact absurd (List.length_eq_zero_iff.mp (by omega)) h1
  | succ rounds ih =>
    intro q nodes h1 h2
    obtain ⟨j, q, rfl⟩ := List.exists_cons_of_ne_nil h1
    have ha := isLeast_leastOf nodes j q
    simp only [mergeLoop, takeLeast]
    have hlen : ((j :: q).erase (leastOf nodes j q)).length = q.length := by
      rw [List.length_erase_of_mem ha.1]; simp
    generalize hq1 : (j :: q).erase (leastOf nodes j q) = q1 at *
    cases q1 with
    | nil =>
      have : q = [] := List.length_eq_zero_iff.mp (by simpa using hlen.symm)
      subst this; simp only; exact Merges.finished _ _
    | cons j2 q2 =>
      simp only
      have hb := isLeast_leastOf nodes j2 q2
      refine Merges.round nodes _ (nodes.length :: (j2 ::
        q2).erase (leastOf nodes j2 q2)) _ _ _ ha (by rw [hq1]; exact hb) (by rw [hq1]) ?_
      refine ih _ _ (by simp) ?_
      simp only [List.length_cons] at *
      rw [List.length_erase_of_mem hb.1]; simp; omega

theorem mergeLoop_length : ∀ rounds q nodes, q ≠ [] → q.length ≤ rounds → (mergeLoop rounds q nodes).length =
    nodes.length + q.length - 1 := by
  intro rounds
  induction rounds with
  | zero => intro q nodes h1 h2; exact absurd (List.length_eq_zero_iff.mp (by omega)) h1
  | succ rounds ih =>
    intro q nodes h1 h2
    obtain ⟨j, q, rfl⟩ := List.exists_cons_of_ne_nil h1
    have ha := isLeast_leastOf nodes j q
    simp only [mergeLoop, takeLeast]
    have hlen : ((j :: q).erase (leastOf nodes j q)).length = q.length := by
      rw [List.length_erase_of_mem ha.1]; simp
    generalize hq1 : (j :: q).erase (leastOf nodes j q) = q1 at *
    cases q1 with
    | nil =>
      have : q = [] := List.length_eq_zero_iff.mp (by simpa using hlen.symm)
      subst this; simp
    | cons j2 q2 =>
      simp only
      have hb := isLeast_leastOf nodes j2 q2
      have hl2 : ((j2 :: q2).erase (leastOf nodes j2 q2)).length = q2.length := by
        rw [List.length_erase_of_mem hb.1]; simp
      simp only [List.length_cons] at hlen h2
      rw [ih _ _ (by simp) (by simp only [List.length_cons, hl2]; omega)]
      simp only [List.length_append, List.length_cons, hl2, List.length_nil]; omega

theorem mergeLoop_prefix : ∀ rounds q nodes, nodes <+: mergeLoop rounds q nodes := by
  intro rounds
  induction rounds with
  | zero => intro q nodes; exact List.prefix_rfl
  | succ rounds ih =>
    intro q nodes
    simp only [mergeLoop]
    split
    · exact List.prefix_rfl
    · split
      · exact List.prefix_rfl
      · exact (List.prefix_append _ _).trans (ih _ _)

theorem buildArena_length {ft} (h : ft ≠ []) : (buildArena ft).length = 2 * ft.length - 1 := by
  unfold buildArena
  have : 0 < ft.length := List.length_pos_iff.mpr h
  rw [mergeLoop_length _ _ _ (by simp; exact h) (by simp), leavesOf_length]; simp; omega

theorem nodeAt_append_left {nodes l : List Node} {j : Nat} (h : j < nodes.length) : nodeAt (nodes ++ l) j =
    nodeAt nodes j := by
  simp [nodeAt, List.getElem?_append_left h]

/-! ## Paths (43_codes.md R160) -/

theorem IsPath.append {nodes j k c} (h : IsPath nodes j k c) : ∀ {m d}, IsPath nodes k m d →
    IsPath nodes j m (c ++ d) := by
  induction h with
  | here j => intro m d h; exact h
  | left j k f l r c hj rest ih => intro m d h; exact .left _ _ f l r _ hj (ih h)
  | right j k f l r c hj rest ih => intro m d h; exact .right _ _ f l r _ hj (ih h)

theorem IsPath.of_append {nodes j k c} (h : IsPath nodes j k c) : ∀ {m d}, IsPath nodes j m (c ++ d) →
    IsPath nodes k m d := by
  induction h with
  | here j => intro m d h; exact h
  | left j k f l r c hj rest ih =>
    intro m d h
    cases h with
    | left _ _ f2 l2 r2 _ hj2 rest2 => rw [hj] at hj2; cases hj2; exact ih rest2
  | right j k f l r c hj rest ih =>
    intro m d h
    cases h with
    | right _ _ f2 l2 r2 _ hj2 rest2 => rw [hj] at hj2; cases hj2; exact ih rest2

theorem IsPath.of_leaf {nodes k m d sym f} (hk : nodes[k]? = some (.leaf sym f)) (h : IsPath nodes k m d) : d = [] ∧
    m = k := by
  cases h with
  | here => exact ⟨rfl, rfl⟩
  | left _ _ f2 l2 r2 _ hj2 rest2 => rw [hk] at hj2; cases hj2
  | right _ _ f2 l2 r2 _ hj2 rest2 => rw [hk] at hj2; cases hj2

theorem IsPath.eq_of_prefix {nodes root k1 k2 c1 c2 sym f} (h1 : IsPath nodes root k1 c1) (h2 :
    IsPath nodes root k2 c2) (hl : nodes[k1]? = some (.leaf sym f)) (hp : c1 <+: c2) : k1 = k2 ∧ c1 = c2 := by
  obtain ⟨d, rfl⟩ := hp
  obtain ⟨rfl, h⟩ := IsPath.of_leaf hl (IsPath.of_append h1 h2)
  simp [h]

theorem pathFrom_sound {nodes : List Node} : ∀ d j k c, pathFrom nodes d j k = some c → j < nodes.length → (∀ (i :
    Nat) (f : Word) (l r : Nat), nodes[i]? = some (Node.internal f l r) → l < nodes.length ∧ r < nodes.length) →
      IsPath nodes j k c := by
  intro d
  induction d with
  | zero => intro j k c h; simp [pathFrom] at h
  | succ d ih =>
    intro j k c h hj hch
    simp only [pathFrom] at h
    split at h
    · rename_i hjk; cases h; subst hjk; exact .here _
    · have hget : nodes[j]? = some nodes[j] := List.getElem?_eq_getElem hj
      rw [nodeAt_of hget] at h
      cases hn : nodes[j] with
      | leaf sym f => rw [hn] at h; simp at h
      | internal f l r =>
        rw [hn] at h hget
        simp only at h
        obtain ⟨hl, hr⟩ := hch j f l r hget
        split at h
        · rename_i p hp
          cases h
          exact .left _ _ f l r _ hget (ih _ _ _ hp hl hch)
        · obtain ⟨p, hp, rfl⟩ := Option.map_eq_some_iff.mp h
          exact .right _ _ f l r _ hget (ih _ _ _ hp hr hch)

theorem pathFrom_complete {nodes j k c} (h : IsPath nodes j k c) : ∀ d, c.length < d → ∃ c', pathFrom nodes d j k =
    some c' := by
  induction h with
  | here j => intro d hd; obtain ⟨d, rfl⟩ : ∃ m, d = m+1 := ⟨d-1, by omega⟩; exact ⟨[], by simp [pathFrom]⟩
  | left j k f l r c hj rest ih =>
    intro d hd; obtain ⟨d, rfl⟩ : ∃ m, d = m+1 := ⟨d-1, by omega⟩
    simp only [pathFrom, nodeAt_of hj]
    split
    · exact ⟨_, rfl⟩
    · obtain ⟨c', hc⟩ := ih d (by simp at hd; omega)
      rw [hc]; exact ⟨_, rfl⟩
  | right j k f l r c hj rest ih =>
    intro d hd; obtain ⟨d, rfl⟩ : ∃ m, d = m+1 := ⟨d-1, by omega⟩
    simp only [pathFrom, nodeAt_of hj]
    split
    · exact ⟨_, rfl⟩
    · obtain ⟨c', hc⟩ := ih d (by simp at hd; omega)
      rw [hc]; split <;> exact ⟨_, rfl⟩

theorem longestCode_spec (codes : List Code) : (∀ c ∈ codes, c.length ≤ longestCode codes) ∧ (codes ≠ [] → ∃ c ∈ codes,
    c.length = longestCode codes) := by
  have key : ∀ (l : List Code) (m : Nat), m ≤ l.foldl (fun m c => max m c.length) m ∧ (∀ c ∈ l,
    c.length ≤ l.foldl (fun m c => max m c.length) m) ∧ (l.foldl (fun m c => max m c.length) m = m ∨ ∃ c ∈ l,
      c.length = l.foldl (fun m c => max m c.length) m) := by
    intro l
    induction l with
    | nil => intro m; simp
    | cons c l ih =>
      intro m
      obtain ⟨h1, h2, h3⟩ := ih (max m c.length)
      simp only [List.foldl_cons]
      refine ⟨by omega, fun d hd => ?_, ?_⟩
      · rcases List.mem_cons.mp hd with rfl | hd
        · omega
        · exact h2 d hd
      · rcases h3 with h3 | ⟨d, hd, h3⟩
        · rw [h3]
          by_cases hm : c.length ≤ m
          · left; omega
          · right; exact ⟨c, by simp, by omega⟩
        · right; exact ⟨d, by simp [hd], h3⟩
  obtain ⟨h1, h2, h3⟩ := key codes 0
  refine ⟨h2, fun hne => ?_⟩
  rcases h3 with h3 | h3
  · obtain ⟨c, l, rfl⟩ := List.exists_cons_of_ne_nil hne
    have := h2 c (by simp)
    exact ⟨c, by simp, by unfold longestCode; omega⟩
  · exact h3

/-! ## The tree walk (44_codec.md R185) -/

theorem IsPath.internal_of_ne_nil {nodes j k c} (h : IsPath nodes j k c) (hc : c ≠ []) : ∃ f l r, nodes[j]? =
    some (.internal f l r) := by
  cases h with
  | here => exact absurd rfl hc
  | left _ _ f l r c hj rest => exact ⟨_, _, _, hj⟩
  | right _ _ f l r c hj rest => exact ⟨_, _, _, hj⟩

theorem State.walk_atLeaf {s : State} {k sym f'} (hk : s.nodes[k]? = some (.leaf sym f')) : ∀ {c j f l r p n},
    s.nodes[j]? = some (.internal f l r) → IsPath s.nodes j k c → c ≠ [] → c.length ≤ n → s.StreamHas p c →
      s.walk n l r p = .atLeaf sym (p + c.length) := by
  intro c
  induction c with
  | nil => intros; contradiction
  | cons b c ih =>
    intro j f l r p n hj hp _ hn hs
    obtain ⟨n, rfl⟩ : ∃ m, n = m + 1 := ⟨n - 1, by simp at hn; omega⟩
    have hb : s.streamBit p = b := hs 0 (by simp)
    have hs' : s.StreamHas (p+1) c := fun i hi => by
      have := hs (i+1) (by simp; omega)
      rw [show p + 1 + i = p + (i+1) by omega, this]; rfl
    have hch : IsPath s.nodes (if b then r else l) k c := by
      cases hp with
      | left _ _ f2 l2 r2 _ hj2 rest => rw [hj] at hj2; cases hj2; exact rest
      | right _ _ f2 l2 r2 _ hj2 rest => rw [hj] at hj2; cases hj2; exact rest
    rw [State.walk, hb]
    generalize (if b = true then r else l) = ch at hch
    by_cases hc : c = []
    · subst hc
      cases hch
      rw [nodeAt_of hk]; rfl
    · obtain ⟨f2, l2, r2, h2⟩ := IsPath.internal_of_ne_nil hch hc
      rw [nodeAt_of h2]
      have := ih (n := n) h2 hch hc (by simp at hn; omega) hs'
      simp only
      rw [this]; congr 1; simp; omega

theorem State.walk_exhausted {s : State} {k g l' r'} (hk : s.nodes[k]? = some (.internal g l' r')) : ∀ {c j f l r p n},
    s.nodes[j]? = some (.internal f l r) → IsPath s.nodes j k c → c.length = n → s.StreamHas p c → s.walk n l r p =
      .exhausted (p + c.length) := by
  intro c
  induction c with
  | nil => intro j f l r p n hj hp hn hs; subst hn; rfl
  | cons b c ih =>
    intro j f l r p n hj hp hn hs
    obtain ⟨n, rfl⟩ : ∃ m, n = m + 1 := ⟨n - 1, by simp at hn; omega⟩
    have hb : s.streamBit p = b := hs 0 (by simp)
    have hs' : s.StreamHas (p+1) c := fun i hi => by
      have := hs (i+1) (by simp; omega)
      rw [show p + 1 + i = p + (i+1) by omega, this]; rfl
    have hch : IsPath s.nodes (if b then r else l) k c := by
      cases hp with
      | left _ _ f2 l2 r2 _ hj2 rest => rw [hj] at hj2; cases hj2; exact rest
      | right _ _ f2 l2 r2 _ hj2 rest => rw [hj] at hj2; cases hj2; exact rest
    rw [State.walk, hb]
    generalize (if b = true then r else l) = ch at hch
    have : ∃ f l r, s.nodes[ch]? = some (.internal f l r) := by
      by_cases hc : c = []
      · subst hc; cases hch; exact ⟨_, _, _, hk⟩
      · exact IsPath.internal_of_ne_nil hch hc
    obtain ⟨f2, l2, r2, h2⟩ := this
    rw [nodeAt_of h2]
    have := ih (n := n) h2 hch (by simp at hn; omega) hs'
    simp only
    rw [this]; congr 1; simp; omega

theorem State.walk_congr {s t : State} (hn : t.nodes = s.nodes) : ∀ n l r p, (∀ q, p ≤ q → q < p + n → t.streamBit q =
    s.streamBit q) → t.walk n l r p = s.walk n l r p := by
  intro n
  induction n with
  | zero => intros; rfl
  | succ n ih =>
    intro l r p h
    simp only [State.walk, hn, h p (by omega) (by omega)]
    split
    · rfl
    · exact ih _ _ _ fun q h1 h2 => h q (by omega) (by omega)

end Sys2Proof.Machine
end

