-- ==== Sys2Proof/Tests/Slice0.lean ====
section
/-! SUPPORT. The model's own tests. Expected values are those of spec/95_test_vectors.md (named in each docstring) or
worked out by hand from the rule named. The last part holds one witness theorem for every obligation with hypotheses. -/

namespace Sys2Proof.Tests

open Sys2Proof Sys2Proof.Machine

/-! ## Well-formedness smoke: one ill-formed term for each check, refused -/

/-- R90: RSV must be 0. -/
theorem test_wf_refuses_reserved_bits : wfCommandWord 0x00000100#32 = false := by decide

/-- R93: 0x55 is the first unassigned value after SEEK_RD. -/
theorem test_wf_refuses_unassigned_opcode : wfCommandWord 0x00000055#32 = false := by decide

theorem test_wf_refuses_no_symbols : Params.wf { symCap := 0, pbufBytes := 4 } = false := by decide

theorem test_wf_refuses_too_many_symbols : Params.wf { symCap := 65537, pbufBytes := 4 } = false := by decide

theorem test_wf_refuses_odd_buffer : Params.wf { symCap := 1, pbufBytes := 6 } = false := by decide

theorem test_wf_refuses_empty_buffer : Params.wf { symCap := 1, pbufBytes := 0 } = false := by decide

theorem test_wf_refuses_large_buffer : Params.wf { symCap := 1, pbufBytes := 2 ^ 28 + 4 } = false := by decide

theorem test_wf_accepts_reference : Params.reference.wf = true := by decide

theorem test_wf_refuses_unaligned_base : wfBase Params.reference 0x3000 = false := by decide

/-- T-PRT-11: a misaligned access. -/
theorem test_port_refuses_misaligned : admitted Params.reference 0x002 4 = false := by decide

/-- T-PRT-11: a 16-bit access. -/
theorem test_port_refuses_halfword : admitted Params.reference 0x000 2 = false := by decide

/-- R61: the first offset beyond the aperture 0x1000 + 4096. -/
theorem test_port_refuses_beyond_aperture : admitted Params.reference 0x2000 4 = false := by decide

/-! ## Decoding: every command's word, written out bit by bit (R90: RSV then OP; R93: the value of OP) -/

theorem test_decode_nop : decode (0b000000000000000000000000#24 ++ 0b00000000#8) = .ok .nop := by decide
theorem test_decode_reset : decode (0b000000000000000000000000#24 ++ 0b00000001#8) = .ok .reset := by decide
theorem test_decode_freqClear : decode (0b000000000000000000000000#24 ++ 0b00010000#8) = .ok .freqClear := by decide
theorem test_decode_freqCount : decode (0b000000000000000000000000#24 ++ 0b00010001#8) = .ok .freqCount := by decide
theorem test_decode_freqSet : decode (0b000000000000000000000000#24 ++ 0b00010010#8) = .ok .freqSet := by decide
theorem test_decode_freqLookup : decode (0b000000000000000000000000#24 ++ 0b00010011#8) = .ok .freqLookup := by decide
theorem test_decode_freqGet : decode (0b000000000000000000000000#24 ++ 0b00010100#8) = .ok .freqGet := by decide
theorem test_decode_treeBuild : decode (0b000000000000000000000000#24 ++ 0b00100000#8) = .ok .treeBuild := by decide
theorem test_decode_nodeGet : decode (0b000000000000000000000000#24 ++ 0b00100001#8) = .ok .nodeGet := by decide
theorem test_decode_codeGen : decode (0b000000000000000000000000#24 ++ 0b00110000#8) = .ok .codeGen := by decide
theorem test_decode_codeGet : decode (0b000000000000000000000000#24 ++ 0b00110001#8) = .ok .codeGet := by decide
theorem test_decode_encodeSymbol : decode (0b000000000000000000000000#24 ++ 0b01000000#8) = .ok .encodeSymbol := by decide
theorem test_decode_decodeSymbol : decode (0b000000000000000000000000#24 ++ 0b01000001#8) = .ok .decodeSymbol := by decide
theorem test_decode_streamReset : decode (0b000000000000000000000000#24 ++ 0b01010000#8) = .ok .streamReset := by decide
theorem test_decode_putBits : decode (0b000000000000000000000000#24 ++ 0b01010001#8) = .ok .putBits := by decide
theorem test_decode_getBits : decode (0b000000000000000000000000#24 ++ 0b01010010#8) = .ok .getBits := by decide
theorem test_decode_setBitlen : decode (0b000000000000000000000000#24 ++ 0b01010011#8) = .ok .setBitlen := by decide
theorem test_decode_seekRd : decode (0b000000000000000000000000#24 ++ 0b01010100#8) = .ok .seekRd := by decide

/-- R94: a reserved bit is looked at before OP. -/
theorem test_decode_reserved : decode 0x80000055#32 = .error .reservedBits := by decide

theorem test_decode_unassigned : decode 0x00000002#32 = .error .unassignedOpcode := by decide

/-- No word matches two rows of the opcode table. -/
theorem test_rows_disjoint : opcodeRows.Pairwise (fun r r' => r.pattern &&& r'.mask ≠ r'.pattern) := by decide

theorem test_table_word : decodeTableWord 32 0x12 = some .freqSet := by decide

/-! ## The states of the vectors -/

/-- What a command leaves, asked one question; false if the command stops. -/
def after (i : Instr) (s : State) (ask : State → Bool) : Bool :=
  match exec i s with
  | .next t => ask t
  | _ => false

/-- RES = (r0, r1, r2) and no error. -/
def gives (i : Instr) (s : State) (r0 r1 r2 : Word) : Bool :=
  after i s (fun t => t.res0 == r0 && t.res1 == r1 && t.res2 == r2 && !t.status.err)

/-- ERRCODE and EINFO = (i0, i1), with the error set. -/
def raises (i : Instr) (s : State) (code i0 i1 : Word) : Bool :=
  after i s (fun t => t.errcode == code && t.einfo0 == i0 && t.einfo1 == i1 && t.status.err)

/-- A state with operands. -/
def withArgs (s : State) (a b : Word) : State := { s with arg0 := a, arg1 := b }

/-- Fresh: right after a hardware reset. -/
abbrev fresh : State := State.reset

/-- V9: the table of "abracadabra" in insertion order. -/
def abraTable : List FreqEntry := [⟨0x61#21, 5#32⟩, ⟨0x62#21, 2#32⟩, ⟨0x72#21, 2#32⟩, ⟨0x63#21, 1#32⟩, ⟨0x64#21, 1#32⟩]

/-- V9: its arena. -/
def abraArena : List Node :=
  [.leaf 0x61#21 5#32, .leaf 0x62#21 2#32, .leaf 0x63#21 1#32, .leaf 0x64#21 1#32, .leaf 0x72#21 2#32] ++
  [.internal 2#32 2 3, .internal 4#32 1 4, .internal 6#32 5 6, .internal 11#32 0 7]

/-- V9: its codes, by leaf index. -/
def abraCodes : List Code :=
  [[false], [true, true, false], [true, false, false], [true, false, true], [true, true, true]]

/-- The table loaded, nothing built. -/
def abraCounted : State := { fresh with ft := abraTable, total := 11#32 }

/-- "abra-built" without a stream. -/
def abraEmpty : State :=
  { abraCounted with
    nodes := abraArena, codes := abraCodes
    status := { done := false, err := false, wob := false, treeValid := true, codesValid := true } }

/-- "abra-built": the stream 6E 8A DC of 23 bits. -/
def abra : State := { abraEmpty with pbuf := [(0, 0x6E#8), (1, 0x8A#8), (2, 0xDC#8)], bitlen := 23 }

/-- V7: the one-symbol table {'a': 1}, built. -/
def single : State :=
  { fresh with
    ft := [⟨0x61#21, 1#32⟩], total := 1#32, nodes := [.leaf 0x61#21 1#32], codes := [[false]]
    status := { done := false, err := false, wob := false, treeValid := true, codesValid := true } }

/-- A state whose ERR is set by an illegal word, ERRCODE = 0xFF10. -/
def failing : State :=
  { fresh with errcode := 0xFF10#32, status := { fresh.status with err := true } }

/-! ## Commands, one step each -/

/-- T-CTL-1. -/
theorem test_nop_clears_results :
    after .nop { fresh with res0 := 1#32, res2 := 1#32 } (fun t => t.res0 == 0#32 && t.statusWord == 0x02#32) = true := by
  decide

/-- T-CTL-4. -/
theorem test_nop_rejected :
    after .nop failing (fun t => t.errcode == 0xFF10#32 && t.statusWord == 0x06#32) = true := by decide

/-- T-CTL-3. -/
theorem test_reset_keeps_pbuf :
    after .reset { abra with arg1 := 7#32, ctrl := ⟨true, true⟩ } (fun t =>
      t.statusWord == 0x02#32 && t.ctrlWord == 0#32 && t.arg1 == 0#32 && t.bitlen == 0 && t.pbuf == abra.pbuf) =
        true := by
  decide

/-- T-CTL-5. -/
theorem test_reset_clears_error :
    after .reset failing (fun t => t.statusWord == 0x02#32 && t.errcode == 0#32) = true := by decide

/-- T-CTL-2, T-CTL-6. -/
theorem test_illegal_word :
    (match performWord 0x00000100#32 fresh with
      | .next t => t.errcode == 0x0010#32 && t.einfo0 == 0x100#32
      | _ => false) = true := by decide

/-- T-FRQ-22. -/
theorem test_freqClear : after .freqClear abra (fun t => t.ft == [] && t.total == 0#32 && t.statusWord == 0x02#32) =
    true := by
  decide

/-- T-FRQ-2: the largest scalar value. -/
theorem test_freqCount_new : gives .freqCount (withArgs fresh 0x10FFFF#32 0#32) 1#32 0#32 1#32 = true := by decide

/-- T-FRQ-20: invalidates. -/
theorem test_freqCount_present :
    (gives .freqCount (withArgs abra 0x61#32 0#32) 6#32 0#32 12#32 &&
      after .freqCount (withArgs abra 0x61#32 0#32) (fun t => t.statusWord == 0x02#32 && t.nodes == [])) = true :=
        by decide

/-- T-FRQ-8. -/
theorem test_freqSet :
    gives .freqSet (withArgs { fresh with ft := [⟨0x10FFFF#21, 1#32⟩], total := 1#32 } 0x41#32 0xFFFFFFFE#32)
      0xFFFFFFFE#32 1#32 0xFFFFFFFF#32 = true := by decide

/-- T-FRQ-7. -/
theorem test_freqSet_overflow :
    raises .freqSet (withArgs { fresh with ft := [⟨0x10FFFF#21, 1#32⟩], total := 1#32 } 0x41#32 0xFFFFFFFF#32)
      0x1214#32 1#32 0xFFFFFFFF#32 = true := by decide

/-- T-FRQ-15. -/
theorem test_freqLookup : gives .freqLookup (withArgs abra 0x62#32 0#32) 2#32 1#32 1#32 = true := by decide

/-- T-FRQ-17: all 32 bits are compared. -/
theorem test_freqLookup_absent :
    gives .freqLookup (withArgs { fresh with ft := [⟨0x41#21, 1#32⟩], total := 1#32 } 0x00100041#32 0#32)
      0#32 0xFFFFFFFF#32 0#32 = true := by decide

/-- T-FRQ-18. -/
theorem test_freqGet : gives .freqGet (withArgs abra 4#32 0#32) 0x64#32 1#32 0#32 = true := by decide

/-- T-FRQ-19. -/
theorem test_freqGet_bad_index : raises .freqGet fresh 0x1415#32 0#32 0#32 = true := by decide

/-- V9: the merges of "abracadabra". -/
theorem test_treeBuild :
    (gives .treeBuild abraCounted 8#32 9#32 0#32 && after .treeBuild abraCounted (fun t => t.nodes == abraArena)) =
      true := by
  decide

/-- T-TRE-3: a zero count, and a tie between a leaf and an earlier index. -/
theorem test_treeBuild_zero_counts :
    after .treeBuild { fresh with ft := [⟨0x41#21, 0#32⟩, ⟨0x42#21, 0#32⟩, ⟨0x43#21, 3#32⟩], total := 3#32 } (fun t =>
      t.nodes.drop 3 == [.internal 0#32 0 1, .internal 3#32 3 2]) = true := by decide

/-- T-TRE-5. -/
theorem test_nodeGet_internal : gives .nodeGet (withArgs abra 8#32 0#32) 11#32 0#32 7#32 = true := by decide

/-- T-TRE-6. -/
theorem test_nodeGet_leaf : gives .nodeGet (withArgs abra 0#32 0#32) 5#32 0x61#32 0xFFFFFFFF#32 = true := by decide

/-- V9. -/
theorem test_codeGen :
    (gives .codeGen abra 5#32 3#32 0#32 && after .codeGen { abra with codes := [] } (fun t => t.codes == abraCodes)) =
      true := by
  decide

/-- V7. -/
theorem test_codeGen_single : after .codeGen { single with codes := [] } (fun t => t.codes == [[false]]) = true :=
    by decide

/-- T-COD-3. -/
theorem test_codeGet : gives .codeGet (withArgs abra 0x63#32 0#32) 3#32 0x80000000#32 2#32 = true := by decide

/-- T-COD-10 on "abra-built". -/
theorem test_codeGet_unknown : raises .codeGet (withArgs abra 0x7A#32 0#32) 0x3102#32 0x7A#32 0#32 = true := by decide

/-- R181, R66: 'r' = 111 after the 23 bits of V9 fills byte 2 and enters byte 3. -/
theorem test_encodeSymbol :
    (gives .encodeSymbol (withArgs abra 0x72#32 0#32) 3#32 26#32 4#32 &&
      after .encodeSymbol (withArgs abra 0x72#32 0#32) (fun t => t.pbuf.drop 2 == [(2, 0xDD#8), (3, 0xC0#8)])) =
        true := by
  decide

/-- T-CDC-2, with 'b' (3 bits) on "abra-built". -/
theorem test_encodeSymbol_overflow :
    raises .encodeSymbol { withArgs abra 0x62#32 0#32 with bitlen := 32766 } 0x4019#32 0x7FFE#32 3#32 = true := by decide

/-- V9: after 'a' the stream continues with 110 = 'b'. -/
theorem test_decodeSymbol : gives .decodeSymbol { abra with rdptr := 1 } 0x62#32 3#32 0#32 = true := by decide

/-- R185: the stream cut inside the code 110. -/
theorem test_decodeSymbol_truncated :
    raises .decodeSymbol { abra with rdptr := 1, bitlen := 3 } 0x4103#32 1#32 2#32 = true := by decide

/-- T-PAK-15's first command. -/
theorem test_streamReset :
    after .streamReset { abra with rdptr := 5 } (fun t => t.bitlen == 0 && t.rdptr == 0 && t.pbuf == abra.pbuf) =
      true := by
  decide

/-- T-PAK-7. -/
theorem test_putBits : after .putBits (withArgs fresh 0x3FF#32 10#32) (fun t => t.pbuf == [(0, 0xFF#8), (1, 0xC0#8)]) =
    true := by
  decide

/-- T-PAK-9. -/
theorem test_putBits_overflow :
    raises .putBits { withArgs fresh 7#32 3#32 with bitlen := 32766 } 0x5119#32 32766#32 3#32 = true := by decide

/-- T-PAK-3: a read into the padding. -/
theorem test_getBits :
    gives .getBits { withArgs fresh 0#32 8#32 with pbuf := [(0, 0xA0#8)], bitlen := 3 } 0xA0#32 8#32 0#32 = true :=
      by decide

/-- T-PAK-4. -/
theorem test_getBits_past_end :
    raises .getBits { withArgs fresh 0#32 1#32 with pbuf := [(0, 0xA0#8)], bitlen := 3, rdptr := 8 } 0x521A#32 8#32 1#32 =
      true := by decide

/-- T-PAK-12. -/
theorem test_setBitlen :
    after .setBitlen { withArgs fresh 12#32 0#32 with pbuf := [(0, 0xFF#8), (1, 0xFF#8), (2, 0xFF#8)], rdptr :=
      3 } (fun t =>
      t.pbuf == [(0, 0xFF#8), (1, 0xF0#8), (2, 0xFF#8)] && t.res0 == 12#32 && t.res1 == 2#32 && t.rdptr == 0) = true := by
  decide

/-- T-PAK-11. -/
theorem test_setBitlen_too_long :
    raises .setBitlen (withArgs fresh 32769#32 0#32) 0x5318#32 0x8001#32 0x8000#32 = true := by decide

/-- T-PAK-14's first command, on "abra-built". -/
theorem test_seekRd : gives .seekRd (withArgs abra 4#32 0#32) 4#32 0#32 0#32 = true := by decide

/-- T-PAK-13, on "abra-built" (BITLEN = 23). -/
theorem test_seekRd_past_bitlen : raises .seekRd (withArgs abra 24#32 0#32) 0x5418#32 24#32 23#32 = true := by decide

/-! ## The port -/

/-- One step over one input, asked one question. -/
def afterInput (x : Input) (s : State) (ask : State → Bool) : Bool :=
  match step (s.withInputs [x]) with
  | .next t => ask t
  | _ => false

/-- T-PRT-1. -/
theorem test_read_id : afterInput (.read 0x000 4) fresh (fun t => t.env.reply == some 0x48554631#32) = true := by decide

/-- T-PRT-4. -/
theorem test_write_ctrl : afterInput (.write 0x00C 4 0xFFFFFFFF#32) fresh (fun t => t.ctrlWord == 3#32) = true :=
    by decide

/-- T-PRT-10. -/
theorem test_busy_write_dropped :
    afterInput (.write 0x018 4 0x42#32) { fresh with pending := some 0x11#32, arg0 := 0x41#32 } (fun t =>
      t.arg0 == 0x41#32 && t.statusWord == 0x09#32) = true := by decide

/-- T-PRT-11. -/
theorem test_misaligned_stuck :
    (match step (fresh.withInputs [.read 0x002 4]) with
      | .fault .accessNotAdmitted => true
      | _ => false) = true := by decide

/-- T-PAK-16's first access: little-endian in the window word. -/
theorem test_window_write :
    afterInput (.write 0x1000 4 0x11223344#32) fresh (fun t =>
      t.pbuf == [(0, 0x44#8), (1, 0x33#8), (2, 0x22#8), (3, 0x11#8)]) = true := by decide

/-- T-PRT-9: IE_ERR and a failed command. -/
theorem test_irq_on_error : after .treeBuild { fresh with ctrl := ⟨false, true⟩ } (fun t => t.irq) = true := by decide

/-- The first step from reset with a word placed runs it. -/
theorem test_fetch_word :
    (match step (State.reset.withFetchWord 32 0x20) with
      | .next t => t.errcode == 0x2001#32
      | _ => false) = true := by decide

/-! ## Host programs -/

/-- A part of a host program is complete, with `left` entries of the schedule left. -/
def completes (e : HostEnd) (left : Nat) (ask : State → Bool) : Bool :=
  match e with
  | .complete t rest => rest.length == left && ask t
  | _ => false

/-- R97: two reads see BUSY = 1, the third comes after the engine's turn and sees BUSY = 0, and WAIT ends. -/
theorem test_wait_reads_until_idle :
    completes ((HostStmt.bus .wait).run { fresh with pending := some 0x00000050#32 } [false, false, true, false]) 1
      (fun t => t.lastReply == 0x02#32) = true := by decide

/-- R97: without the engine's turn WAIT does not end. -/
theorem test_wait_does_not_end :
    (HostStmt.bus .wait).run { fresh with pending := some 0x00000050#32 } [false, false] =
      .unfinished
        { fresh with pending := some 0x00000050#32, env := { fresh.env with reply := some 0x01#32 } } := by decide

/-- R98: the stream "0" of the one-symbol table is one symbol and then EOS, at which DECODEALL ends: two rounds of three
bus operations. -/
theorem test_decodeall_ends_at_eos :
    completes (HostStmt.decodeAll.run { single with pbuf := [(0, 0x00#8)], bitlen := 1 } (List.replicate 8 true)) 2
      (fun t => t.lastReply == 1#32 && t.rdptr == 1 && t.statusWord == 0x32#32) = true := by decide

/-- R98: in the stream "01" of the one-symbol table the second symbol fails with INVALID_CODE_BIT, and DECODEALL ends. -/
theorem test_decodeall_ends_at_error :
    completes (HostStmt.decodeAll.run { single with pbuf := [(0, 0x40#8)], bitlen := 2 } (List.replicate 8 true)) 2
      (fun t => t.lastReply == 0#32 && t.rdptr == 1 && t.errcode == 0x411B#32) = true := by decide

/-! ## Witnesses: each hypothesis of each obligation can be met, all of one clause together

A witness is named after its obligation. -/

theorem entryFor_of {s : State} {v : Word} {i : Nat} {e : FreqEntry}
    (h : s.ft[i]? = some e ∧ zext32 e.sym = v ∧ ∀ j, j < s.ft.length → (s.ft[j]?.any (fun x => zext32 x.sym == v)) =
      true → j = i) :
    s.EntryFor v i e :=
  ⟨h.1, h.2.1, fun j e' hj hv => h.2.2 j (List.getElem?_eq_some_iff.mp hj).1 (by simp [hj, hv])⟩

theorem leafFor_of {s : State} {v : Word} {k : Nat} {sym : Sym} {f : Word}
    (h : k < s.ft.length ∧ s.nodes[k]? = some (.leaf sym f) ∧ zext32 sym = v ∧
      ∀ j, j < s.ft.length → (s.nodes[j]?.any (Node.holds v)) = true → j = k) :
    s.LeafFor v k :=
  ⟨h.1, ⟨sym, f, h.2.1, h.2.2.1⟩, fun j sym' f' hj hn hv => h.2.2.2 j hj (by simp [hn, Node.holds, hv])⟩

theorem noLeaf_of {s : State} {v : Word} (h : ∀ j, j < s.ft.length → (s.nodes[j]?.any (Node.holds v)) = false) :
    s.NoLeaf v := by
  intro j sym f hj hn hv
  have := h j hj
  simp [hn, Node.holds, hv] at this

theorem scalar_of {v : Word} (h : isScalar v = true) : ScalarValue v := (isScalar_iff v).mp h

theorem notScalar_of {v : Word} (h : isScalar v = false) : ¬ ScalarValue v := fun hc => by
  rw [← isScalar_iff, h] at hc; cases hc

/-- The built state of V9 satisfies the invariant. -/
theorem abra_inv : abra.Inv where
  cfg := by decide
  pbuf := ⟨by decide, by decide⟩
  stream := ⟨by decide, by decide⟩
  table := ⟨by decide, by unfold UniqueSymbols; decide, by decide, by decide⟩
  tree := ⟨fun _ => ⟨by decide, by decide⟩, fun h => absurd h (by decide)⟩
  codes := fun _ => ⟨by decide, by decide⟩
  error := ⟨fun _ => ⟨by decide, by decide, by decide⟩, fun h => absurd h (by decide)⟩
  handshake := fun h => absurd rfl h

theorem abraEmpty_inv : abraEmpty.Inv where
  cfg := by decide
  pbuf := ⟨by decide, by decide⟩
  stream := ⟨by decide, by decide⟩
  table := ⟨by decide, by unfold UniqueSymbols; decide, by decide, by decide⟩
  tree := ⟨fun _ => ⟨by decide, by decide⟩, fun h => absurd h (by decide)⟩
  codes := fun _ => ⟨by decide, by decide⟩
  error := ⟨fun _ => ⟨by decide, by decide, by decide⟩, fun h => absurd h (by decide)⟩
  handshake := fun h => absurd rfl h

/-- A state with another BITLEN and RDPTR. -/
def atBits (s : State) (bitlen rdptr : Nat) : State := { s with bitlen := bitlen, rdptr := rdptr }

/-- A command is pending and the port is busy. -/
def busyState : State := { fresh with pending := some 0x00000054#32 }

theorem witness_DecodeAgreesWithEncode : Instr.seekRd.wf = true ∧ decode 0x00000054#32 = .ok .seekRd := by decide

theorem witness_EveryWordIsOneCommandOrIllegal :
    wfCommandWord 0x00000054#32 = true ∧
    (wfCommandWord 0x00000055#32 = false ∧ wfCommandWord 0x00000100#32 = false ∧ wfCommandWord 0xFFFFFFFF#32 = false ∧
      fresh.status.err = false) := by decide

theorem witness_ErrorStateRejectsAllButReset : failing.status.err = true ∧ (0x00000101#32 : Word) ≠ 0x00000001#32 :=
    by decide

theorem witness_StepRunsDecodedCommand :
    decode 0x00000054#32 = .ok .seekRd ∧ (busyState.pending = some 0x00000054#32 ∧ busyState.env.inputs = []) ∧
    ((busyState.withInputs [.engine]).pending = some 0x00000054#32 ∧
      (busyState.withInputs [.engine]).env.inputs = [.engine]) := by decide

theorem witness_IdleBlockKeepsState : fresh.pending = none ∧ fresh.env.inputs = [] := by decide

theorem witness_NopClearsResultsOnly : fresh.status.err = false ∧ failing.status.err = true := by decide

theorem witness_ResetCommandRestoresAllButPbuf :
    fresh.status.err = false ∧ failing.status.err = true ∧
    ({ fresh with pending := some 0x00000001#32 } : State).pending = some 0x00000001#32 := by decide

theorem witness_FreqClearEmptiesTable : abra.status.err = false := by decide

/-- A full table of one symbol. -/
def fullTable : State := { fresh with cfg := { symCap := 1, pbufBytes := 4 }, ft := [⟨0x61#21, 1#32⟩], total := 1#32 }

/-- The table of T-FRQ-8, whose TOTAL is the largest value. -/
def totalAtLimit : State :=
  { fresh with ft := [⟨0x10FFFF#21, 1#32⟩, ⟨0x41#21, 0xFFFFFFFE#32⟩], total := 0xFFFFFFFF#32 }

theorem totalAtLimit_tableOk : totalAtLimit.TableOk :=
  ⟨by decide, by unfold UniqueSymbols; decide, by decide, by decide⟩

theorem witness_FreqCountCountsOneSymbol :
    fresh.status.err = false ∧
    (¬ ScalarValue 0xD800#32 ∧ ¬ ScalarValue 0xDFFF#32 ∧ ¬ ScalarValue 0x110000#32) ∧
    (ScalarValue 0xE000#32 ∧ fullTable.Absent 0xE000#32 ∧ fullTable.ft.length = fullTable.cfg.symCap) ∧
    (ScalarValue 0x41#32 ∧ ¬ (totalAtLimit.Absent 0x41#32 ∧ totalAtLimit.ft.length = totalAtLimit.cfg.symCap) ∧
      totalAtLimit.total = 0xFFFFFFFF#32) ∧
    (ScalarValue 0x61#32 ∧ fullTable.EntryFor 0x61#32 0 ⟨0x61#21, 1#32⟩ ∧ fullTable.total ≠ 0xFFFFFFFF#32 ∧
      fullTable.TableOk) ∧
    (ScalarValue 0xD7FF#32 ∧ ScalarValue 0x10FFFF#32 ∧ fresh.Absent 0x10FFFF#32 ∧ fresh.ft.length ≠ fresh.cfg.symCap ∧
      fresh.total ≠ 0xFFFFFFFF#32) :=
  ⟨by decide, ⟨notScalar_of (by decide), notScalar_of (by decide), notScalar_of (by decide)⟩,
    ⟨scalar_of (by decide), by unfold State.Absent; decide, by decide⟩,
    ⟨scalar_of (by decide), fun h => absurd h.2 (by decide), by decide⟩,
    ⟨scalar_of (by decide), entryFor_of (by decide), by decide,
      ⟨by decide, by unfold UniqueSymbols; decide, by decide, by decide⟩⟩,
    ⟨scalar_of (by decide), scalar_of (by decide), by unfold State.Absent; decide, by decide, by decide⟩⟩

/-- T-FRQ-7's table. -/
def oneCounted : State := { fresh with ft := [⟨0x10FFFF#21, 1#32⟩], total := 1#32 }

theorem witness_FreqSetInsertsOneEntry :
    fresh.status.err = false ∧ ¬ ScalarValue 0xDFFF#32 ∧
    (ScalarValue 0x10FFFF#32 ∧ oneCounted.EntryFor 0x10FFFF#32 0 ⟨0x10FFFF#21, 1#32⟩) ∧
    (ScalarValue 0x100#32 ∧ fullTable.Absent 0x100#32 ∧ fullTable.ft.length = fullTable.cfg.symCap) ∧
    (ScalarValue 0x41#32 ∧ oneCounted.Absent 0x41#32 ∧ oneCounted.ft.length ≠ oneCounted.cfg.symCap ∧
      2 ^ 32 ≤ oneCounted.total.toNat + (0xFFFFFFFF#32).toNat ∧
      oneCounted.total.toNat + (0xFFFFFFFE#32).toNat < 2 ^ 32) :=
  ⟨by decide, notScalar_of (by decide), ⟨scalar_of (by decide), entryFor_of (by decide)⟩,
    ⟨scalar_of (by decide), by unfold State.Absent; decide, by decide⟩,
    ⟨scalar_of (by decide), by unfold State.Absent; decide, by decide, by decide, by decide⟩⟩

theorem witness_FreqLookupReportsPresence :
    abra.status.err = false ∧ abra.EntryFor 0x62#32 1 ⟨0x62#21, 2#32⟩ ∧ abra.Absent 0x7A#32 :=
  ⟨by decide, entryFor_of (by decide), by unfold State.Absent; decide⟩

theorem witness_FreqGetReadsEntry :
    abra.status.err = false ∧ abra.ft.length ≤ (5#32 : Word).toNat ∧ (4#32 : Word).toNat < abra.ft.length := by decide

theorem witness_TreeBuildMergesLeastPairs :
    fresh.status.err = false ∧ fresh.ft = [] ∧ abraCounted.status.err = false ∧ abraCounted.ft ≠ [] := by decide

theorem witness_NodeGetReadsNode :
    (fresh.status.err = false ∧ fresh.status.treeValid = false) ∧
    (abra.status.err = false ∧ abra.status.treeValid = true ∧ abra.nodes.length ≤ (9#32 : Word).toNat ∧
      abra.nodes[(4#32 : Word).toNat]? = some (.leaf 0x72#21 2#32) ∧
      abra.nodes[(8#32 : Word).toNat]? = some (.internal 11#32 0 7)) := by decide

theorem witness_ArenaIsStrictBinaryTree : abraTable ≠ [] ∧ countSum abraTable < 2 ^ 32 := by decide

theorem witness_ArenaIgnoresInsertionOrder : UniqueSymbols abraTable ∧ abraTable.Perm abraTable.reverse :=
  ⟨by unfold UniqueSymbols; decide, (List.reverse_perm _).symm⟩

theorem witness_CodeGenDerivesPaths :
    (fresh.status.err = false ∧ fresh.status.treeValid = false) ∧
    (abra.status.err = false ∧ abra.status.treeValid = true ∧ abra.TreeOk ∧ abra.nodes.length ≠ 1) ∧
    (single.status.treeValid = true ∧ single.TreeOk ∧ single.nodes.length = 1) :=
  ⟨by decide, ⟨by decide, by decide, abra_inv.tree, by decide⟩,
    by decide, ⟨fun _ => ⟨by decide, by decide⟩, fun h => absurd h (by decide)⟩, by decide⟩

theorem witness_CodeGetReadsCodeWord :
    (fresh.status.err = false ∧ fresh.status.codesValid = false) ∧
    (abra.status.err = false ∧ abra.status.codesValid = true ∧ abra.NoLeaf 0x7A#32 ∧
      abra.LeafFor 0x63#32 2 ∧ abra.codes[2]? = some [true, false, false]) :=
  ⟨by decide, by decide, by decide, noLeaf_of (by decide),
    leafFor_of (sym := 0x63#21) (f := 1#32) (by decide), by decide⟩

theorem witness_CodesArePrefixFree : abraTable ≠ [] := by decide

theorem witness_EncodeSymbolAppendsCode :
    (fresh.status.err = false ∧ fresh.status.codesValid = false) ∧
    (abra.status.err = false ∧ abra.status.codesValid = true ∧ abra.NoLeaf 0x7A#32 ∧
      abra.LeafFor 0x72#32 4 ∧ abra.codes[4]? = some [true, true, true] ∧
      8 * abra.cfg.pbufBytes < (atBits abra 32766 0).bitlen + [true, true, true].length ∧
      (atBits abra 32765 0).bitlen + [true, true, true].length ≤ 8 * abra.cfg.pbufBytes) :=
  ⟨by decide, by decide, by decide, noLeaf_of (by decide),
    leafFor_of (sym := 0x72#21) (f := 2#32) (by decide), by decide, by decide, by decide⟩

theorem abra_path : IsPath abra.nodes (abra.nodes.length - 1) 1 [true, true, false] :=
  .right 8 1 11#32 0 7 _ (by decide) (.right 7 1 6#32 5 6 _ (by decide) (.left 6 1 4#32 1 4 _ (by decide) (.here 1)))

theorem abra_path_cut : IsPath abra.nodes (abra.nodes.length - 1) 6 [true, true] :=
  .right 8 6 11#32 0 7 _ (by decide) (.right 7 6 6#32 5 6 _ (by decide) (.here 6))

/-- The one-symbol block with the stream 01. -/
def singleStream : State := { single with pbuf := [(0, 0x40#8)], bitlen := 2 }

/-- `abra` from RDPTR = 1 has 'b' = 110 next; with BITLEN = 3 as well, the stream ends inside it. -/
theorem witness_DecodeSymbolWalksTree :
    (fresh.status.err = false ∧ fresh.status.treeValid = false) ∧
    (abra.status.err = false ∧ abra.status.treeValid = true ∧ (atBits abra 23 23).bitlen ≤ (atBits abra 23 23).rdptr) ∧
    (singleStream.status.err = false ∧ singleStream.status.treeValid = true ∧ singleStream.rdptr < singleStream.bitlen ∧
      singleStream.nodes[singleStream.nodes.length - 1]? = some (.leaf 0x61#21 1#32) ∧
      singleStream.streamBit singleStream.rdptr = false) ∧
    ((atBits singleStream 2 1).rdptr < (atBits singleStream 2 1).bitlen ∧
      (atBits singleStream 2 1).streamBit (atBits singleStream 2 1).rdptr = true) ∧
    ([true, true, false] ≠ [] ∧
      (atBits abra 23 1).rdptr + [true, true, false].length ≤ (atBits abra 23 1).bitlen ∧
      IsPath (atBits abra 23 1).nodes ((atBits abra 23 1).nodes.length - 1) 1 [true, true, false] ∧
      (atBits abra 23 1).nodes[1]? = some (.leaf 0x62#21 2#32) ∧
      (atBits abra 23 1).StreamHas (atBits abra 23 1).rdptr [true, true, false]) ∧
    ((atBits abra 3 1).rdptr + [true, true].length = (atBits abra 3 1).bitlen ∧
      IsPath (atBits abra 3 1).nodes ((atBits abra 3 1).nodes.length - 1) 6 [true, true] ∧
      (atBits abra 3 1).nodes[6]? = some (.internal 4#32 1 4) ∧
      (atBits abra 3 1).StreamHas (atBits abra 3 1).rdptr [true, true]) := by
  refine ⟨by decide, by decide, by decide, by decide, ⟨by decide, by decide, abra_path, by decide, ?_⟩, by decide,
    abra_path_cut,
    by decide, ?_⟩ <;> (unfold State.StreamHas; decide)

/-- The padding bit after the 23 bits differs. -/
theorem witness_DecodeNeverReadsPastBitlen :
    (∀ p, p < abra.bitlen →
      (abra.withPbuf [(0, 0x6E#8), (1, 0x8A#8), (2, 0xDD#8)]).streamBit p = abra.streamBit p) ∧
    ∃ t, exec .decodeSymbol abra = .next t :=
  ⟨by decide, _, rfl⟩

/-- "ar" encoded on the codes of V9: 0 then 111. -/
def encodedState : State :=
  { abraEmpty with
    arg0 := 0x72#32, pbuf := [(0, 0x70#8)], bitlen := 4, res0 := 3#32, res1 := 4#32, res2 := 4#32,
    status := { abraEmpty.status with done := true } }

theorem witness_EncodedTextIsCodeConcatenation :
    abraEmpty.Inv ∧ abraEmpty.status.err = false ∧ abraEmpty.bitlen = 0 ∧
    encodeText [0x61#32, 0x72#32] abraEmpty = some encodedState :=
  ⟨abraEmpty_inv, by decide, by decide, by decide⟩

/-- The decoder's block: the same table in reverse order, the tree built, no codes. -/
def decoderState : State :=
  { abraEmpty with
    ft := abraTable.reverse, codes := [], pbuf := [(0, 0x70#8)], bitlen := 4,
    status := { abraEmpty.status with codesValid := false } }

theorem decoderState_inv : decoderState.Inv where
  cfg := by decide
  pbuf := ⟨by decide, by decide⟩
  stream := ⟨by decide, by decide⟩
  table := ⟨by decide, by unfold UniqueSymbols; decide, by decide, by decide⟩
  tree := ⟨fun _ => ⟨by decide, by decide⟩, fun h => absurd h (by decide)⟩
  codes := fun h => absurd h (by decide)
  error := ⟨fun _ => ⟨by decide, by decide, by decide⟩, fun h => absurd h (by decide)⟩
  handshake := fun h => absurd rfl h

theorem witness_DecodeOfEncodedTextIsText :
    (abraEmpty.Inv ∧ abraEmpty.status.err = false ∧ abraEmpty.bitlen = 0 ∧
      encodeText [0x61#32, 0x72#32] abraEmpty = some encodedState) ∧
    (decoderState.Inv ∧ decoderState.status.err = false ∧ decoderState.status.treeValid = true ∧
      decoderState.ft.Perm abraEmpty.ft ∧ decoderState.bitlen = encodedState.bitlen ∧ decoderState.rdptr = 0 ∧
      (∀ p, p < encodedState.bitlen → decoderState.streamBit p = encodedState.streamBit p) ∧
      ([0x61#32, 0x72#32] : List Word).length < 3) :=
  ⟨witness_EncodedTextIsCodeConcatenation, decoderState_inv, by decide, by decide, List.reverse_perm _, by decide,
    by decide, by decide, by decide⟩

theorem witness_StreamResetEmptiesStream : abra.status.err = false := by decide

theorem witness_PutBitsAppendsLowBits :
    fresh.status.err = false ∧ 32 < (33#32 : Word).toNat ∧ (32#32 : Word).toNat ≤ 32 ∧
    8 * fresh.cfg.pbufBytes < (atBits fresh 32737 0).bitlen + (32#32 : Word).toNat ∧
    (atBits fresh 32736 0).bitlen + (32#32 : Word).toNat ≤ 8 * fresh.cfg.pbufBytes := by
  decide

theorem witness_GetBitsReadsStream :
    abra.status.err = false ∧ 32 < (33#32 : Word).toNat ∧ (24#32 : Word).toNat ≤ 32 ∧
    8 * ((abra.bitlen + 7) / 8) < (atBits abra 23 1).rdptr + (24#32 : Word).toNat ∧
    abra.rdptr + (24#32 : Word).toNat ≤ 8 * ((abra.bitlen + 7) / 8) := by decide

theorem witness_SetBitlenZeroesPadding :
    fresh.status.err = false ∧ 8 * fresh.cfg.pbufBytes < (32769#32 : Word).toNat ∧
    (32768#32 : Word).toNat ≤ 8 * fresh.cfg.pbufBytes := by decide

theorem witness_SeekRdMovesReadPointer :
    abra.status.err = false ∧ abra.bitlen < (24#32 : Word).toNat ∧ (23#32 : Word).toNat ≤ abra.bitlen := by decide

theorem witness_StreamAppendWritesOneBit : ({ fresh with bitlen := 32767 } : State).bitlen < fresh.cfg.capBits :=
    by decide

theorem witness_PutBitsSequencePacksItsBits :
    fresh.status.err = false ∧ ∃ s0 t, exec .streamReset fresh = .next s0 ∧ putChunks [(5#32, 3#32)] s0 = some t :=
  ⟨by decide, _, _, rfl, rfl⟩

theorem abra_padding : abra.PaddingZero := fun p h1 h2 => by
  have hp : p = 23 := by
    have hb : abra.bitlen = 23 := rfl
    rw [hb] at h1 h2; simp only [padLen] at h2; omega
  subst hp; decide

theorem witness_CommandsKeepPaddingZero :
    (abra.PaddingZero ∧ ∃ t, performWord 0x00000054#32 abra = .next t) ∧
    (abra.withInputs [.write 0x00C 4 3#32]).PaddingZero ∧ ¬ (abra.withInputs [.write 0x00C 4 3#32]).windowWriteNext ∧
    ∃ t, step (abra.withInputs [.write 0x00C 4 3#32]) = .next t :=
  ⟨⟨abra_padding, _, rfl⟩, abra_padding, fun ⟨_, off, _, _, _, h, hoff⟩ => by
    cases h; exact absurd hoff (by decide), _, rfl⟩

theorem witness_FailedCommandIsPrecise :
    fresh.status.err = false ∧ (∃ t, performWord 0x00000020#32 fresh = .next t ∧ t.status.err = true) ∧
    ∃ t, performWord 0xFFFFFFFF#32 fresh = .next t ∧ t.status.err = true :=
  ⟨by decide, ⟨_, rfl, by decide⟩, _, rfl, by decide⟩

theorem witness_ErrorClearWrite :
    (failing.busy = false ∧ failing.resetHeld = false ∧ (4#32 : Word).getLsbD 2 = true) ∧ (∃ t, exec .reset failing = .next t) ∧
    ∃ t, takeInput failing .assertReset = .next t :=
  ⟨by decide, ⟨_, rfl⟩, _, rfl⟩

theorem witness_StatusWriteOneToClear : failing.busy = false ∧ failing.resetHeld = false := by decide

theorem witness_StatusBitLayout : (6 : Nat) ≤ 6 := by decide

theorem witness_CtrlWriteSetsEnables : fresh.busy = false ∧ fresh.resetHeld = false := by decide

theorem witness_CommandEndRaisesIrq :
    (∃ t, exec .nop fresh = .next t ∧ Instr.nop ≠ .reset) ∧ ∃ t, exec .reset fresh = .next t :=
  ⟨⟨_, rfl, by decide⟩, _, rfl⟩

theorem witness_CommandsKeepOperandsAndControl :
    (∃ t, exec .seekRd failing = .next t) ∧ Instr.seekRd ≠ .reset ∧ failing.status.err = true :=
  ⟨⟨_, rfl⟩, by decide, by decide⟩

theorem witness_OnlyTheirCommandsChangeValidity :
    (∃ t, exec .freqClear abra = .next t ∧ t.status.err = false) ∧ (∃ t, exec .treeBuild abra = .next t ∧
      t.status.err = false) ∧
    (∃ t, exec .codeGen abra = .next t ∧ t.status.err = false) ∧ (∃ t, exec .streamReset abra = .next t ∧
      t.status.err = false) ∧
    abra.status.err = false :=
  ⟨⟨_, rfl, by decide⟩, ⟨_, rfl, by decide⟩, ⟨_, rfl, by decide⟩, ⟨_, rfl, by decide⟩, by decide⟩

theorem witness_IdleReadReturnsRegister : fresh.busy = false ∧ fresh.resetHeld = false := by decide

theorem witness_BusyReadIsDefinedOrFresh :
    busyState.busy = true ∧ busyState.resetHeld = false ∧ 0x020 ≤ 0x020 ∧ admitted busyState.cfg 0x020 4 = true ∧
    admitted busyState.cfg 0x1FFC 4 = true := by decide

theorem witness_BusyWriteIsDropped :
    busyState.busy = true ∧ busyState.resetHeld = false ∧ admitted busyState.cfg 0x000 4 = true ∧
    admitted busyState.cfg 0x1FFC 4 = true := by decide

theorem witness_IdleWriteStoresOperandOrIsIgnored : fresh.busy = false ∧ fresh.resetHeld = false := by decide

theorem witness_CmdWriteAcceptsCommand : fresh.busy = false ∧ fresh.resetHeld = false := by decide

theorem witness_ReservedReadsZeroIgnoresWrites :
    (fresh.resetHeld = false ∧ 0x04C ≤ 0x04C ∧ 0xFFC < 0x1000 ∧ 0x04C % 4 = 0 ∧ 0xFFC % 4 = 0 ∧ fresh.busy = false) ∧
    (busyState.resetHeld = false ∧ busyState.busy = true) ∧ abra.ErrorOk :=
  ⟨by decide, by decide, abra_inv.error⟩

theorem witness_WindowWordIsFourBytes : fresh.busy = false ∧ fresh.resetHeld = false ∧
    1023 < fresh.cfg.pbufBytes / 4 := by decide

theorem witness_StreamBitInByteAndWindowWord : 32767 < fresh.cfg.capBits := by decide

theorem witness_OnlyAlignedWordAccessesHaveAStep :
    fresh.resetHeld = false ∧ 0x002 % 4 ≠ 0 ∧ (2 : Nat) ≠ 4 ∧ 0x1000 + fresh.cfg.pbufBytes ≤ 0x2000 ∧
    (0x1FFC % 4 = 0 ∧ 0x1FFC < 0x1000 + fresh.cfg.pbufBytes) := by decide

theorem witness_BusyAccessesDoNotAffectCommand :
    busyState.pending = some 0x00000054#32 ∧ ∃ t, performWord 0x00000054#32 busyState = .next t :=
  ⟨by decide, _, rfl⟩

theorem witness_CommandStatementPerformsCommand :
    (fresh.busy = false ∧ fresh.resetHeld = false ∧
      [false].length = (none : Option Word).toList.length + (none : Option Word).toList.length + 1 ∧
      [true, false, true].length = (some 5#32).toList.length + (some 3#32).toList.length + 1) ∧
    (∃ t, (HostStmt.bus .wait).run fresh [true] = .complete t []) ∧
    ∃ t, HostStmt.decodeAll.run { single with bitlen := 0 } (List.replicate 3 true) = .complete t [] :=
  ⟨by decide, ⟨_, rfl⟩, _, rfl⟩

theorem witness_StepKeepsInvariant :
    (abra.withInputs [.write 0x1FFC 4 5#32]).Inv ∧
    (∃ t, step (abra.withInputs [.write 0x1FFC 4 5#32]) = .next t) ∧
    (abra.withInputs [.write 0x1FFC 4 5#32]).rdptr ≤ (abra.withInputs [.write 0x1FFC 4 5#32]).bitlen ∧
    ¬ (abra.withInputs [.write 0x1FFC 4 5#32]).performsNext 0x00000052#32 :=
  ⟨⟨abra_inv.cfg, abra_inv.pbuf, abra_inv.stream, abra_inv.table, abra_inv.tree, abra_inv.codes, abra_inv.error,
    abra_inv.handshake⟩, ⟨_, rfl⟩, by decide, fun h => by cases h.1⟩

theorem witness_AdmittedInputsNeverStuck :
    inputsAdmitted fresh.cfg fresh.resetHeld
      (fresh.withInputs [.write 0x014 4 0#32, .engine, .assertReset, .releaseReset, .read 0x1FFC 4]).env.inputs =
      true := by decide

theorem witness_PendingCommandIsPerformed :
    busyState.pending = some 0x00000054#32 ∧ busyState.resetHeld = false ∧
    inputsAdmitted busyState.cfg false [.read 0x010 4, .engine] = true ∧
    .assertReset ∉ ([.read 0x010 4, .engine] : List Input) := by decide

end Sys2Proof.Tests
end

/-! SUPPORT. What a rule can answer, said once for all commands: a success has one of nine effects on the state, and a
failure raises an error that R221 lists as raised. -/

namespace Sys2Proof.Machine

/-! ## The effects of a success -/

/-- Everything the success of a command's rule can make of the state `s`, with the checks it has passed. -/
inductive RuleEffect (s : State) : Instr → State → Prop where
  /-- nothing changes; for DECODE_SYMBOL this is EOS (44_codec.md R185) -/
  | reads {i : Instr} (hi : i ∈ [.nop, .freqLookup, .freqGet, .nodeGet, .codeGet, .decodeSymbol]) : RuleEffect s i s
  /-- the table is emptied (41_frequency.md R120) -/
  | clears : RuleEffect s .freqClear (State.invalidate { s with ft := [], total := 0#32 })
  /-- a present symbol is counted (41_frequency.md R121) -/
  | counts {k : Nat} (hfound : s.findSymbol s.arg0 = some k) (htotal : s.total ≠ all1) :
      RuleEffect s .freqCount (State.invalidate { s with ft := countUp s.ft k, total := s.total + 1#32 })
  /-- an absent symbol gets an entry (41_frequency.md R121, R122) -/
  | inserts {i : Instr} {c : Word} (hi : i ∈ [.freqCount, .freqSet]) (hscalar : isScalar s.arg0 = true)
      (habsent : s.findSymbol s.arg0 = none) (hroom : s.ft.length ≠ s.cfg.symCap)
      (htotal : s.total.toNat + c.toNat < 2 ^ 32) :
      RuleEffect s i (State.invalidate { s with ft := s.ft ++ [newEntry s.arg0 c], total := s.total + c })
  /-- the tree of the table is built (42_tree.md R141) -/
  | builds (hne : s.ft ≠ []) :
      RuleEffect s .treeBuild
        { s with nodes := buildArena s.ft, status := { s.status with treeValid := true, codesValid := false } }
  /-- the codes of the tree are derived (43_codes.md R161) -/
  | derives (hvalid : s.status.treeValid = true) :
      RuleEffect s .codeGen
        { s with codes := deriveCodes s.nodes s.ft.length, status := { s.status with codesValid := true } }
  /-- bits are appended to the stream (44_codec.md R181; 45_bitpack.md R201) -/
  | appends {i : Instr} {l : List Bool} (hi : i ∈ [.encodeSymbol, .putBits])
      (hroom : s.bitlen + l.length ≤ s.cfg.capBits) : RuleEffect s i (s.streamAppendAll l)
  /-- RDPTR moves: only GET_BITS can leave it in the padding (44_codec.md R185; 45_bitpack.md R202, R204) -/
  | seeks {i : Instr} {r : Nat} (hi : i ∈ [.decodeSymbol, .getBits, .seekRd]) (hpad : r ≤ padLen s.bitlen)
      (hlen : i ≠ .getBits → r ≤ s.bitlen) : RuleEffect s i { s with rdptr := r }
  /-- BITLEN is set and RDPTR goes back to 0; SET_BITLEN may store one byte (45_bitpack.md R200, R203) -/
  | restarts {i : Instr} {n : Nat} {m : Memory} (hi : i ∈ [.streamReset, .setBitlen]) (hn : n ≤ s.cfg.capBits)
      (hm : m = s.pbuf ∨ ∃ k v, k < s.cfg.pbufBytes ∧ m = Memory.store s.pbuf k v) :
      RuleEffect s i { s with pbuf := m, bitlen := n, rdptr := 0 }

/-- A rule's answer is one of the effects above, or an error that some command raises (60_exceptions.md R221). -/
inductive CmdResult.Sound (s : State) (i : Instr) : CmdResult → Prop where
  | ok {t : State} {r0 r1 r2 : Word} (h : RuleEffect s i t) : Sound s i (.ok t r0 r1 r2)
  | raise {e : ErrName} {i0 i1 : Word} (h : e ≠ .corruptContainer) : Sound s i (.raise e i0 i1)

theorem ErrName.code_mem_raisedCodes {e : ErrName} (h : e ≠ .corruptContainer) : e.code ∈ raisedCodes := by
  cases e
  case corruptContainer => exact absurd rfl h
  all_goals decide

/-! ## The shared operations of the rules -/

theorem le_padLen (n : Nat) : n ≤ padLen n := by unfold padLen; omega

/-- A word other than ALL1 can be counted up without a wrap (41_frequency.md R121). -/
theorem toNat_add_one_lt {v : Word} (h : v ≠ all1) : v.toNat + 1 < 2 ^ 32 := by
  have hne : v.toNat ≠ all1.toNat := fun heq => h (BitVec.eq_of_toNat_eq heq)
  simp at hne
  omega

/-- Counting the entry that FREQ_COUNT has just appended gives it the count 1 (41_frequency.md R121). -/
theorem countUp_append_newEntry (ft : List FreqEntry) (v : Word) :
    countUp (ft ++ [newEntry v 0#32]) ft.length = ft ++ [newEntry v 1#32] := by
  simp [countUp, List.modify_eq_set_getElem?, newEntry]

/-- A tree walk that ends at a leaf has not passed the end of the stream (44_codec.md R185). -/
theorem State.walk_atLeaf_le {s : State} {n left right p q : Nat} {sym : Sym}
    (h : s.walk n left right p = .atLeaf sym q) : q ≤ p + n := by
  induction n generalizing left right p with
  | zero => cases h
  | succ n ih =>
    unfold State.walk at h
    split at h
    · cases h; omega
    · have := ih h; omega

/-! ## Each rule -/

/-- A check of a rule: it raises an error that some command raises, or the rule goes on with the check passed. -/
theorem CmdResult.Sound.check {s : State} {i : Instr} {p : Prop} [Decidable p] {e : ErrName} {i0 i1 : Word}
    {r : CmdResult} (h : ¬ p → r.Sound s i) (he : e ≠ .corruptContainer := by decide) :
    (if p then .raise e i0 i1 else r : CmdResult).Sound s i := by
  split
  · exact .raise he
  · exact h ‹_›

theorem freqCountRule_sound (s : State) : (freqCountRule s).Sound s .freqCount := by
  simp only [freqCountRule]
  refine .check fun hscalar => .check fun hroom => .check fun htotal => ?_
  split
  · rename_i hfound
    exact .ok (.counts hfound htotal)
  · rename_i habsent
    unfold State.countEntry
    rw [countUp_append_newEntry]
    exact .ok (.inserts (by decide) (by simpa using hscalar) habsent (fun h => hroom ⟨habsent, h⟩)
      (toNat_add_one_lt htotal))

theorem freqSetRule_sound (s : State) : (freqSetRule s).Sound s .freqSet := by
  simp only [freqSetRule]
  refine .check fun hscalar => ?_
  split
  · exact .raise (by decide)
  · rename_i habsent
    exact .check fun hroom => .check fun htotal =>
      .ok (.inserts (by decide) (by simpa using hscalar) habsent hroom (by omega))

theorem treeBuildRule_sound (s : State) : (treeBuildRule s).Sound s .treeBuild :=
  .check fun hne => .ok (.builds fun h => hne (by simp [h]))

theorem codeGenRule_sound (s : State) : (codeGenRule s).Sound s .codeGen :=
  .check fun hvalid => .ok (.derives (by simpa using hvalid))

theorem encodeSymbolRule_sound (s : State) : (encodeSymbolRule s).Sound s .encodeSymbol := by
  refine .check fun _ => ?_
  split
  · exact .raise (by decide)
  · exact .check fun hroom => .ok (.appends (by decide) (by omega))

theorem putBitsRule_sound (s : State) : (putBitsRule s).Sound s .putBits :=
  .check fun _ => .check fun hroom =>
    .ok (.appends (by decide) (by simp only [lowBits, List.length_map, List.length_range]; omega))

theorem decodeSymbolRule_sound (s : State) : (decodeSymbolRule s).Sound s .decodeSymbol := by
  have seeks {r : Nat} (hr : r ≤ s.bitlen) : RuleEffect s .decodeSymbol { s with rdptr := r } :=
    .seeks (by decide) (hr.trans (le_padLen _)) fun _ => hr
  refine .check fun _ => ?_
  split
  · exact .ok (.reads (by decide))
  · split
    · exact .check fun _ => .ok (seeks (by omega))
    · split
      · rename_i hwalk
        have := State.walk_atLeaf_le hwalk
        exact .ok (seeks (by omega))
      · exact .raise (by decide)

theorem getBitsRule_sound (s : State) : (getBitsRule s).Sound s .getBits :=
  .check fun _ => .check fun hpad => .ok (.seeks (by decide) (by omega) fun h => absurd rfl h)

theorem setBitlenRule_sound (s : State) : (setBitlenRule s).Sound s .setBitlen := by
  refine .check fun hn => .ok ?_
  have hn : s.bitPositionOperand ≤ s.cfg.capBits := Nat.le_of_not_lt hn
  by_cases h8 : s.bitPositionOperand % 8 = 0
  · simp only [if_pos h8]
    exact .restarts (by decide) hn (.inl rfl)
  · simp only [if_neg h8]
    exact .restarts (by decide) hn (.inr ⟨_, _, by unfold Params.capBits at hn; omega, rfl⟩)

theorem seekRdRule_sound (s : State) : (seekRdRule s).Sound s .seekRd :=
  .check fun hr => .ok (.seeks (by decide) (le_trans (by omega) (le_padLen _)) fun _ => by omega)

/-- The commands that only read: their rules leave the state as it is. -/
theorem readRule_sound {i : Instr} (hi : i ∈ [.nop, .freqLookup, .freqGet, .nodeGet, .codeGet]) (s : State) :
    (ruleOf i s).Sound s i := by
  have same : RuleEffect s i s := .reads (List.mem_of_mem_dropLast hi)
  simp only [List.mem_cons, List.not_mem_nil, or_false] at hi
  obtain rfl | rfl | rfl | rfl | rfl := hi
  · exact .ok same
  · simp only [ruleOf, freqLookupRule]
    split <;> exact .ok same
  · exact .check fun _ => .ok same
  · refine .check fun _ => .check fun _ => ?_
    split <;> exact .ok same
  · refine .check fun _ => ?_
    split
    · exact .raise (by decide)
    · exact .ok same

/-- Every rule answers with one of the effects, or with an error that some command raises. -/
theorem ruleOf_sound {i : Instr} (hi : i ≠ .reset) (s : State) : (ruleOf i s).Sound s i := by
  cases i
  case reset => exact absurd rfl hi
  case nop | freqLookup | freqGet | nodeGet | codeGet => exact readRule_sound (by decide) s
  case freqClear => exact .ok .clears
  case freqCount => exact freqCountRule_sound s
  case freqSet => exact freqSetRule_sound s
  case treeBuild => exact treeBuildRule_sound s
  case codeGen => exact codeGenRule_sound s
  case encodeSymbol => exact encodeSymbolRule_sound s
  case decodeSymbol => exact decodeSymbolRule_sound s
  case streamReset => exact .ok (.restarts (by decide) (Nat.zero_le _) (.inl rfl))
  case putBits => exact putBitsRule_sound s
  case getBits => exact getBitsRule_sound s
  case setBitlen => exact setBitlenRule_sound s
  case seekRd => exact seekRdRule_sound s

/-- Every end of a command but RESET, with what its success can have done: rejected, succeeded or failed
(60_exceptions.md R220). -/
theorem exec_effects {i : Instr} (hi : i ≠ .reset) {s t : State} (h : exec i s = .next t) :
    (s.status.err = true ∧ t = s.rejected) ∨
    (s.status.err = false ∧ ∃ u r0 r1 r2, RuleEffect s i u ∧ SameOutside s u ∧ t = u.succeeded r0 r1 r2) ∨
    (s.status.err = false ∧ ∃ code ∈ raisedCodes, ∃ i0 i1, t = s.failed i.opcode code i0 i1) := by
  have hsound := ruleOf_sound hi s
  obtain hrej | ⟨he, u, r0, r1, r2, hok, rfl⟩ | ⟨he, e, i0, i1, hraise, rfl⟩ := exec_cases hi h
  · exact .inl hrej
  · rw [hok] at hsound
    obtain heff | _ := hsound
    exact .inr (.inl ⟨he, u, r0, r1, r2, heff, ruleOf_sameOutside hok, rfl⟩)
  · rw [hraise] at hsound
    obtain _ | hne := hsound
    exact .inr (.inr ⟨he, e.code, ErrName.code_mem_raisedCodes hne, i0, i1, rfl⟩)

end Sys2Proof.Machine

/-! SUPPORT. The parts of the invariant `State.Inv` that a command's rule can touch, kept by every effect of a rule. -/

namespace Sys2Proof.Machine

/-! ## The frequency table (10_state.md R30) -/

/-- The 21 bits a new entry keeps are the whole symbol (41_frequency.md R125). -/
theorem zext32_newEntry_sym {v : Word} (c : Word) (h : isScalar v = true) : zext32 (newEntry v c).sym = v := by
  obtain ⟨hle, -⟩ := (isScalar_iff v).mp h
  apply BitVec.eq_of_toNat_eq
  simp only [newEntry, BitVec.toNat_setWidth, BitVec.extractLsb'_toNat, Nat.shiftRight_zero]
  omega

theorem countSum_append_singleton (ft : List FreqEntry) (e : FreqEntry) :
    countSum (ft ++ [e]) = countSum ft + e.count.toNat := by
  simp [countSum]

/-- Counting an entry keeps every symbol in its place. -/
theorem map_sym_countUp (ft : List FreqEntry) (k : Nat) :
    (countUp ft k).map (fun e => e.sym) = ft.map (fun e => e.sym) := by
  induction ft generalizing k with
  | nil => simp [countUp]
  | cons e ft ih =>
    cases k with
    | zero => rfl
    | succ k => simpa [countUp] using ih k

@[simp] theorem countUp_length (ft : List FreqEntry) (k : Nat) : (countUp ft k).length = ft.length :=
  List.length_modify _ _ _

/-- Counting an entry adds 1 to the sum of the counts while that sum fits 32 bits (log 13). -/
theorem countSum_countUp {ft : List FreqEntry} {k : Nat} (hk : k < ft.length) (hsum : countSum ft + 1 < 2 ^ 32) :
    countSum (countUp ft k) = countSum ft + 1 := by
  induction ft generalizing k with
  | nil => cases hk
  | cons e ft ih =>
    have hcons (x : FreqEntry) (l : List FreqEntry) : countSum (x :: l) = x.count.toNat + countSum l := by
      simp [countSum]
    rw [hcons] at hsum
    cases k with
    | zero =>
      have hup : countUp (e :: ft) 0 = { e with count := e.count + 1#32 } :: ft := rfl
      rw [hup, hcons, hcons, BitVec.toNat_add, BitVec.toNat_ofNat]
      omega
    | succ k =>
      have hup : countUp (e :: ft) (k + 1) = e :: countUp ft k := rfl
      rw [hup, hcons, hcons, ih (Nat.lt_of_succ_lt_succ hk) (by omega)]
      omega

/-- The symbols of a table are scalar values: a property of the list of symbols. -/
theorem scalars_iff (ft : List FreqEntry) :
    (∀ e ∈ ft, isScalar (zext32 e.sym) = true) ↔ ∀ v ∈ ft.map (fun e => e.sym), isScalar (zext32 v) = true := by
  simp

/-- FREQ_COUNT of a present symbol keeps the table's invariant (41_frequency.md R121). -/
theorem State.TableOk.counts {s : State} {k : Nat} (h : s.TableOk) (hfound : s.findSymbol s.arg0 = some k)
    (htotal : s.total ≠ all1) :
    (State.invalidate { s with ft := countUp s.ft k, total := s.total + 1#32 }).TableOk := by
  obtain ⟨hlen, huniq, hscalar, hsum⟩ := h
  have hk : k < s.ft.length := (List.findIdx?_eq_some_iff_getElem.mp hfound).1
  have hmax := toNat_add_one_lt htotal
  refine ⟨?_, ?_, ?_, ?_⟩
  · simpa using hlen
  · simpa only [UniqueSymbols, State.invalidate_ft, map_sym_countUp] using huniq
  · rw [scalars_iff] at hscalar ⊢
    simpa only [State.invalidate_ft, map_sym_countUp] using hscalar
  · simp only [State.invalidate_total, State.invalidate_ft, BitVec.toNat_add, BitVec.toNat_ofNat]
    rw [countSum_countUp hk (by omega)]
    omega

/-- A new entry keeps the table's invariant (41_frequency.md R121, R122). -/
theorem State.TableOk.inserts {s : State} {c : Word} (h : s.TableOk) (hscalar : isScalar s.arg0 = true)
    (habsent : s.findSymbol s.arg0 = none) (hroom : s.ft.length ≠ s.cfg.symCap)
    (htotal : s.total.toNat + c.toNat < 2 ^ 32) :
    (State.invalidate { s with ft := s.ft ++ [newEntry s.arg0 c], total := s.total + c }).TableOk := by
  obtain ⟨hlen, huniq, hscalars, hsum⟩ := h
  have hsym := zext32_newEntry_sym c hscalar
  refine ⟨?_, ?_, ?_, ?_⟩
  · simp only [State.invalidate_ft, State.invalidate_cfg, List.length_append, List.length_singleton]
    omega
  · simp only [UniqueSymbols, State.invalidate_ft, List.map_append, List.map_singleton]
    refine List.Nodup.append huniq (List.nodup_singleton _) fun v hv hnew => ?_
    obtain ⟨e, he, rfl⟩ := List.mem_map.mp hv
    exact absent_of_findSymbol habsent e he ((congrArg zext32 (List.mem_singleton.mp hnew)).trans hsym)
  · intro e he
    rcases List.mem_append.mp he with he | he
    · exact hscalars e he
    · rw [List.mem_singleton.mp he, hsym]
      exact hscalar
  · simp only [State.invalidate_total, State.invalidate_ft, countSum_append_singleton, BitVec.toNat_add, newEntry]
    omega

/-! ## PBUF and the stream (10_state.md R33) -/

/-- Storing a byte the buffer has keeps PBUF in canonical form and in range. -/
theorem State.PbufOk.writeByte {s : State} {i : Nat} (v : Byte) (h : s.PbufOk) (hi : i < s.cfg.pbufBytes) :
    (s.writeByte i v).PbufOk :=
  ⟨Memory.wf_store i v h.1, Memory.bound_store v hi h.2⟩

/-- Appending bits that fit keeps PBUF in canonical form and in range. -/
theorem State.PbufOk.streamAppendAll {s : State} {l : List Bool} (h : s.PbufOk)
    (hroom : s.bitlen + l.length ≤ s.cfg.capBits) : (s.streamAppendAll l).PbufOk := by
  induction l generalizing s with
  | nil => exact h
  | cons b l ih =>
    simp only [List.length_cons, Params.capBits] at hroom
    have hbyte : s.bitlen / 8 < s.cfg.pbufBytes := by omega
    have hfirst : (s.streamAppend b).PbufOk := h.writeByte _ hbyte
    refine ih hfirst ?_
    have hcfg : (s.streamAppend b).cfg = s.cfg := rfl
    simp only [State.streamAppend_bitlen, hcfg, Params.capBits]
    omega

theorem padLen_mono {m n : Nat} (h : m ≤ n) : padLen m ≤ padLen n := by
  unfold padLen
  omega

/-! ## An effect of a rule -/

/-- The parts of the invariant that speak of the buffers a rule can change. -/
structure State.BuffersOk (s : State) : Prop where
  pbuf : s.PbufOk
  stream : s.StreamOk
  table : s.TableOk
  tree : s.TreeOk
  codes : s.CodesOk

theorem State.Inv.buffers {s : State} (h : s.Inv) : s.BuffersOk := ⟨h.pbuf, h.stream, h.table, h.tree, h.codes⟩

/-- After `Invalidate()` there is no tree and there are no codes (10_state.md R34). -/
theorem State.BuffersOk.invalidate {s : State} (hpbuf : s.PbufOk) (hstream : s.StreamOk)
    (htable : s.invalidate.TableOk) : s.invalidate.BuffersOk where
  pbuf := hpbuf
  stream := hstream
  table := htable
  tree := ⟨nofun, fun _ => rfl⟩
  codes := nofun

theorem tableOk_empty {s : State} (hft : s.ft = []) (htotal : s.total = 0#32) : s.TableOk := by
  simp [State.TableOk, UniqueSymbols, countSum, hft, htotal]

/-- A memory that is another with at most one byte of the buffer stored is as well formed (20_memory.md R66). -/
theorem pbufOk_restart {s : State} {m : Memory} (h : s.PbufOk)
    (hm : m = s.pbuf ∨ ∃ k v, k < s.cfg.pbufBytes ∧ m = Memory.store s.pbuf k v) : (s.withPbuf m).PbufOk := by
  rcases hm with rfl | ⟨k, v, hk, rfl⟩
  · exact h
  · exact h.writeByte v hk

/-- Every effect of a rule keeps the buffers' invariant. -/
theorem RuleEffect.buffersOk {i : Instr} {s t : State} (heff : RuleEffect s i t) (h : s.BuffersOk) : t.BuffersOk := by
  cases heff with
  | reads => exact h
  | clears => exact .invalidate (s := { s with ft := [], total := 0#32 }) h.pbuf h.stream (tableOk_empty rfl rfl)
  | counts hfound htotal =>
    exact .invalidate (s := { s with ft := _, total := _ }) h.pbuf h.stream (h.table.counts hfound htotal)
  | inserts _ hscalar habsent hroom htotal =>
    exact .invalidate (s := { s with ft := _, total := _ }) h.pbuf h.stream
      (h.table.inserts hscalar habsent hroom htotal)
  | builds hne => exact ⟨h.pbuf, h.stream, h.table, ⟨fun _ => ⟨hne, rfl⟩, nofun⟩, nofun⟩
  | derives hvalid => exact ⟨h.pbuf, h.stream, h.table, h.tree, fun _ => ⟨hvalid, rfl⟩⟩
  | appends _ hroom =>
    have hpbuf := h.pbuf.streamAppendAll hroom
    obtain ⟨-, hrd⟩ := h.stream
    rw [State.streamAppendAll_frame] at hpbuf ⊢
    exact ⟨hpbuf, ⟨hroom, hrd.trans (padLen_mono (Nat.le_add_right _ _))⟩, h.table, h.tree, h.codes⟩
  | seeks _ hpad => exact ⟨h.pbuf, ⟨h.stream.1, hpad⟩, h.table, h.tree, h.codes⟩
  | restarts _ hn hm => exact ⟨pbufOk_restart h.pbuf hm, ⟨hn, Nat.zero_le _⟩, h.table, h.tree, h.codes⟩

/-- Every command's success but GET_BITS's keeps RDPTR ≤ BITLEN (10_state.md R33). -/
theorem RuleEffect.rdptr_le {i : Instr} {s t : State} (heff : RuleEffect s i t) (hi : i ≠ .getBits)
    (h : s.rdptr ≤ s.bitlen) : t.rdptr ≤ t.bitlen := by
  cases heff with
  | reads | clears | counts | inserts | builds | derives => exact h
  | appends =>
    rw [State.streamAppendAll_frame]
    exact h.trans (Nat.le_add_right _ _)
  | seeks _ _ hlen => exact hlen hi
  | restarts => exact Nat.zero_le _

end Sys2Proof.Machine

/-! SUPPORT. A command word, said once: which word a command is, what an illegal word does, and how every word ends. -/

namespace Sys2Proof.Machine

/-! ## The word of a command (30_encoding.md R93) -/

/-- Every row of the opcode map is one word: the encoding of the row's command. -/
theorem opcodeRows_pattern : ∀ r ∈ opcodeRows, r.mask = all1 ∧ r.pattern = encode r.instr := by decide

/-- The only word that decodes to a command is its encoding. -/
theorem eq_encode_of_decode {w : Word} {i : Instr} (h : decode w = .ok i) : w = encode i := by
  unfold decode at h
  split at h
  · split at h
    · rename_i r hfind
      cases h
      have hmatch := List.find?_some hfind
      obtain ⟨hmask, hpattern⟩ := opcodeRows_pattern r (List.mem_of_find?_eq_some hfind)
      have hones : w &&& all1 = w := BitVec.and_allOnes
      rw [OpcodeRow.matches, hmask, hones, beq_iff_eq] at hmatch
      exact hmatch.trans hpattern
    · cases h
  · cases h

/-! ## The ends of a command word (60_exceptions.md R220) -/

/-- A word that is no command is rejected, or fails with ILLEGAL_COMMAND (30_encoding.md R92). -/
theorem execIllegal_eq (w : Word) (s : State) :
    execIllegal w s = .next (if s.status.err then s.rejected else s.failed (opField w) 0x10#8 w 0#32) := by
  cases he : s.status.err
  · exact runCommand_ready _ _ he
  · exact runCommand_err _ _ he

/-- Everything the engine step of a command word can do: RESET; or a rejection, a success with one of the effects of the
word's command, or a failure (60_exceptions.md R220). -/
theorem performWord_effects {w : Word} {s t : State} (h : performWord w s = .next t) :
    (w = encode .reset ∧ t = s.softReset.endCommand) ∨
    (s.status.err = true ∧ t = s.rejected) ∨
    (s.status.err = false ∧ ∃ i u r0 r1 r2,
      w = encode i ∧ RuleEffect s i u ∧ SameOutside s u ∧ t = u.succeeded r0 r1 r2) ∨
    (s.status.err = false ∧ ∃ opc, ∃ code ∈ raisedCodes, ∃ i0 i1, t = s.failed opc code i0 i1) := by
  cases hd : decode w with
  | error e =>
    rw [performWord_error hd, execIllegal_eq] at h
    cases h
    cases he : s.status.err
    · exact .inr (.inr (.inr ⟨rfl, opField w, 0x10#8, by decide, w, 0#32, rfl⟩))
    · exact .inr (.inl ⟨rfl, rfl⟩)
  | ok i =>
    have hw := eq_encode_of_decode hd
    rw [performWord_ok hd] at h
    by_cases hi : i = .reset
    · subst hi
      cases h
      exact .inl ⟨hw, rfl⟩
    · obtain hrej | ⟨he, u, r0, r1, r2, heff, hsame, ht⟩ | ⟨he, code, hcode, i0, i1, ht⟩ := exec_effects hi h
      · exact .inr (.inl hrej)
      · exact .inr (.inr (.inl ⟨he, i, u, r0, r1, r2, hw, heff, hsame, ht⟩))
      · exact .inr (.inr (.inr ⟨he, i.opcode, code, hcode, i0, i1, ht⟩))

/-- Every command has an answer from every state (70_reset_and_hazards.md R253). -/
theorem exec_total (i : Instr) (s : State) : ∃ t, exec i s = .next t := by
  by_cases hi : i = .reset
  · exact ⟨_, hi ▸ exec_reset s⟩
  · rw [exec_eq_runCommand hi]
    cases he : s.status.err
    · exact ⟨_, runCommand_ready _ _ he⟩
    · exact ⟨_, runCommand_err _ _ he⟩

/-- Every word has an answer from every state (70_reset_and_hazards.md R253). -/
theorem performWord_total (w : Word) (s : State) : ∃ t, performWord w s = .next t := by
  cases hd : decode w with
  | ok i => exact performWord_ok hd s ▸ exec_total i s
  | error e => exact ⟨_, (performWord_error hd s).trans (execIllegal_eq w s)⟩

end Sys2Proof.Machine

/-! SUPPORT. The step of a host access of a register, by its name: what a read and a write of it leave. -/

namespace Sys2Proof.Machine

theorem Reg.offset_lt (r : Reg) : r.offset < 0x1000 := by cases r <;> decide

theorem Reg.offset_aligned (r : Reg) : r.offset % 4 = 0 := by cases r <;> rfl

/-- An idle read of a register returns it and changes nothing of the block (20_memory.md R70). -/
theorem step_readReg_idle {s : State} (l : List Input) (r : Reg) (hb : s.busy = false) (hr : s.resetHeld = false) :
    step (s.withInputs (.read r.offset 4 :: l)) =
      .next { s with env := { s.env with inputs := l, reply := some (s.regValue r) } } := by
  have hlt := r.offset_lt
  rw [step_read s l hr r.offset_aligned (by omega), portTarget_offset,
    State.hostRead_idle (s := s.withInputs l) (.reg r) hb]
  rfl

/-- A busy read of a busy-stable register returns it and changes nothing of the block (10_state.md R36). -/
theorem step_readReg_stable {s : State} (l : List Input) {r : Reg} (hs : r.busyStable = true) (hb : s.busy = true)
    (hr : s.resetHeld = false) :
    step (s.withInputs (.read r.offset 4 :: l)) =
      .next { s with env := { s.env with inputs := l, reply := some (s.regValue r) } } := by
  have hlt := r.offset_lt
  rw [step_read s l hr r.offset_aligned (by omega), portTarget_offset,
    State.hostRead_busy (s := s.withInputs l) (.reg r) hb, PortTarget.busyStable, if_pos hs]
  rfl

/-- An idle write of a register is its write while BUSY = 0 (10_state.md R38). -/
theorem step_writeReg_idle {s : State} (l : List Input) (r : Reg) (v : Word) (hb : s.busy = false)
    (hr : s.resetHeld = false) :
    step (s.withInputs (.write r.offset 4 v :: l)) = .next ((s.withInputs l).writeReg v r) := by
  have hlt := r.offset_lt
  rw [step_write s l v hr r.offset_aligned (by omega), portTarget_offset,
    State.hostWrite_idle (s := s.withInputs l) (.reg r) v hb]
  rfl

/-- A write of a read-only register is ignored (10_state.md R38). -/
theorem State.writeReg_readOnly (s : State) (v : Word) {r : Reg} (h : r ∉ [Reg.ctrl, .status, .cmd, .arg0, .arg1]) :
    s.writeReg v r = s := by
  cases r
  case ctrl | status | cmd | arg0 | arg1 => exact absurd (by decide) h
  all_goals rfl

/-- The registers from offset 0x020 on, the reserved offsets and the window are not busy-stable (10_state.md R36). -/
theorem portTarget_not_busyStable {off : Nat} (h : 0x020 ≤ off) : (portTarget off).busyStable = false := by
  unfold portTarget
  split
  · rfl
  · split
    · rename_i r hfind
      have hoff : (r.offset == off) = true := List.find?_some (p := fun r : Reg => r.offset == off) hfind
      rw [beq_iff_eq] at hoff
      subst hoff
      cases r
      case id | capSyms | capBytes | ctrl | status | cmd | arg0 | arg1 => exact absurd h (by decide)
      all_goals rfl
    · rfl

/-- A write to STATUS, its three fields at once (10_state.md R24; 60_exceptions.md R226). -/
theorem State.writeStatus_eq (s : State) (v : Word) :
    s.writeStatus v =
      { s with
        status :=
          { s.status with
            done := s.status.done && !v.getLsbD 1
            err := s.status.err && !v.getLsbD 2
            wob := s.status.wob && !v.getLsbD 3 },
        errcode := if v.getLsbD 2 then 0#32 else s.errcode,
        einfo0 := if v.getLsbD 2 then 0#32 else s.einfo0,
        einfo1 := if v.getLsbD 2 then 0#32 else s.einfo1 } := by
  unfold State.writeStatus
  cases v.getLsbD 2
  · simp [State.clearDoneWob]
  · simp [State.clearDoneWob, State.clearError]

/-- CTRL as a host reads it back after a write: the two enables (10_state.md R23). -/
theorem State.ctrlWord_of_ctrl {s : State} {v : Word} (h : s.ctrl = { ieDone := v.getLsbD 0, ieErr := v.getLsbD 1 }) :
    s.ctrlWord = v &&& 3#32 := by
  apply BitVec.eq_of_getLsbD_eq
  intro k hk
  rw [State.getLsbD_ctrlWord, h, BitVec.getLsbD_and, BitVec.getLsbD_ofNat]
  rcases k with _ | _ | k
  · simp
  · simp [Nat.testBit]
  · have hbit : Nat.testBit 3 (k + 2) = false := Nat.testBit_lt_two_pow (by
      calc 3 < 2 ^ 2 := by norm_num
        _ ≤ 2 ^ (k + 2) := Nat.pow_le_pow_right (by norm_num) (by omega))
    simp [hbit]

end Sys2Proof.Machine

/-! PROOF. Every step keeps the invariant (O58): the parts that a rule does not touch, the ends of a command, the host's
accesses, and the step. -/

namespace Sys2Proof.Machine

section

variable {s t : State}

/-! ## The ends of a command -/

/-- The fields of ERRCODE after a failure (10_state.md R26; 60_exceptions.md R223). -/
theorem errcode_fields (opc code : Byte) :
    (0#16 ++ opc ++ code).extractLsb' 16 16 = 0#16 ∧ (0#16 ++ opc ++ code).extractLsb' 0 8 = code := by
  refine ⟨?_, BitVec.extractLsb'_append_eq_right⟩
  rw [BitVec.extractLsb'_append_eq_of_le (by decide), BitVec.extractLsb'_append_eq_of_le (by decide)]
  rfl

theorem State.Inv.rejected (h : s.Inv) : s.rejected.Inv :=
  ⟨h.cfg, h.pbuf, h.stream, h.table, h.tree, h.codes, h.error, fun hp => absurd rfl hp⟩

theorem State.Inv.failed {opc code : Byte} {i0 i1 : Word} (h : s.Inv) (hcode : code ∈ raisedCodes) :
    (s.failed opc code i0 i1).Inv where
  cfg := h.cfg
  pbuf := h.pbuf
  stream := h.stream
  table := h.table
  tree := h.tree
  codes := h.codes
  error := by
    obtain ⟨hrsv, hcd⟩ := errcode_fields opc code
    exact ⟨nofun, fun _ => ⟨hrsv, hcd.symm ▸ hcode⟩⟩
  handshake := fun hp => absurd rfl hp

theorem State.Inv.succeeded {u : State} {r0 r1 r2 : Word} (h : s.Inv) (hb : u.BuffersOk) (hsame : SameOutside s u) :
    (u.succeeded r0 r1 r2).Inv where
  cfg := by rw [hsame]; exact h.cfg
  pbuf := hb.pbuf
  stream := hb.stream
  table := hb.table
  tree := hb.tree
  codes := hb.codes
  error := by rw [hsame]; exact h.error
  handshake := fun hp => absurd rfl hp

/-- A state whose registers and buffers are as reset leaves them meets the invariant (70_reset_and_hazards.md R250). -/
theorem State.Inv.of_atReset {c : Params} {e : Env} {m : Memory} {done held : Bool} (hcfg : c.wf = true)
    (hpbuf : ({ State.atReset c e with pbuf := m } : State).PbufOk) :
    ({ State.atReset c e with
        pbuf := m, status := ⟨done, false, false, false, false⟩, resetHeld := held } : State).Inv where
  cfg := hcfg
  pbuf := hpbuf
  stream := ⟨Nat.zero_le _, Nat.zero_le _⟩
  table := tableOk_empty rfl rfl
  tree := ⟨nofun, fun _ => rfl⟩
  codes := nofun
  error := ⟨fun _ => ⟨rfl, rfl, rfl⟩, nofun⟩
  handshake := fun hp => absurd rfl hp

/-- Performing any command word keeps the invariant. -/
theorem performWord_inv {w : Word} (h : s.Inv) (hx : performWord w s = .next t) : t.Inv := by
  obtain ⟨-, rfl⟩ | ⟨-, rfl⟩ | ⟨-, i, u, r0, r1, r2, -, heff, hsame, rfl⟩ | ⟨-, opc, code, hcode, i0, i1, rfl⟩ :=
    performWord_effects hx
  · exact .of_atReset (e := s.env) h.cfg h.pbuf
  · exact h.rejected
  · exact h.succeeded (heff.buffersOk h.buffers) hsame
  · exact h.failed hcode

/-- Performing any command word but GET_BITS keeps RDPTR ≤ BITLEN (10_state.md R33). -/
theorem performWord_rdptr_le {w : Word} (hw : w ≠ encode .getBits) (h : s.rdptr ≤ s.bitlen)
    (hx : performWord w s = .next t) : t.rdptr ≤ t.bitlen := by
  obtain ⟨-, rfl⟩ | ⟨-, rfl⟩ | ⟨-, i, u, r0, r1, r2, rfl, heff, -, rfl⟩ | ⟨-, opc, code, -, i0, i1, rfl⟩ :=
    performWord_effects hx
  · exact Nat.le_refl 0
  · exact h
  · exact heff.rdptr_le (fun hi => hw (congrArg encode hi)) h
  · exact h

/-- The engine's turn keeps the invariant, and RDPTR ≤ BITLEN unless it performs GET_BITS. -/
theorem engineTurn_inv (h : s.Inv) (hx : engineTurn s = .next t) :
    t.Inv ∧ (s.rdptr ≤ s.bitlen → s.pending ≠ some (encode .getBits) → t.rdptr ≤ t.bitlen) := by
  cases hp : s.pending with
  | none =>
    rw [engineTurn_idle hp] at hx
    cases hx
    exact ⟨h, fun hle _ => hle⟩
  | some w =>
    rw [engineTurn_pending hp] at hx
    exact ⟨performWord_inv h hx, fun hle hne => performWord_rdptr_le (fun hw => hne (congrArg some hw)) hle hx⟩

/-! ## The host's accesses -/

theorem State.Inv.withEnv (h : s.Inv) (e : Env) : ({ s with env := e } : State).Inv :=
  ⟨h.cfg, h.pbuf, h.stream, h.table, h.tree, h.codes, h.error, h.handshake⟩

theorem State.Inv.dropWrite (h : s.Inv) : s.dropWrite.Inv :=
  ⟨h.cfg, h.pbuf, h.stream, h.table, h.tree, h.codes, h.error, h.handshake⟩

theorem State.Inv.writeStatus (h : s.Inv) (v : Word) : (s.writeStatus v).Inv := by
  have hshake : ∀ b : Bool, s.pending ≠ none → (s.status.done && b) = false ∧ s.resetHeld = false := fun b hp => by
    obtain ⟨hdone, hheld⟩ := h.handshake hp
    simp [hdone, hheld]
  unfold State.writeStatus
  split
  · exact ⟨h.cfg, h.pbuf, h.stream, h.table, h.tree, h.codes, ⟨fun _ => ⟨rfl, rfl, rfl⟩, nofun⟩, hshake _⟩
  · exact ⟨h.cfg, h.pbuf, h.stream, h.table, h.tree, h.codes, h.error, hshake _⟩

/-- A write of any register while no reset is held keeps the invariant (10_state.md R38). -/
theorem State.Inv.writeReg (h : s.Inv) (hr : s.resetHeld = false) (v : Word) (r : Reg) : (s.writeReg v r).Inv := by
  cases r
  case status => exact h.writeStatus v
  case cmd =>
    exact ⟨h.cfg, h.pbuf, h.stream, h.table, h.tree, h.codes, h.error, fun _ => ⟨rfl, hr⟩⟩
  case ctrl | arg0 | arg1 =>
    exact ⟨h.cfg, h.pbuf, h.stream, h.table, h.tree, h.codes, h.error, h.handshake⟩
  all_goals exact h

/-- A write of a word of the window keeps PBUF in canonical form and in range (20_memory.md R63). -/
theorem State.PbufOk.writeWindow {m : Nat} (h : s.PbufOk) (hm : 4 * m + 3 < s.cfg.pbufBytes) (v : Word) :
    (s.writeWindow m v).PbufOk := by
  have h0 := h.writeByte (i := 4 * m) (v.extractLsb' 0 8) (by omega)
  have h1 := h0.writeByte (i := 4 * m + 1) (v.extractLsb' 8 8) (show _ < s.cfg.pbufBytes by omega)
  have h2 := h1.writeByte (i := 4 * m + 2) (v.extractLsb' 16 8) (show _ < s.cfg.pbufBytes by omega)
  exact h2.writeByte _ hm

/-- A write of a port target while no reset is held keeps the invariant (10_state.md R38). -/
theorem State.Inv.writeTarget (h : s.Inv) (hr : s.resetHeld = false) (v : Word) {tgt : PortTarget}
    (hwin : ∀ m, tgt = .window m → 4 * m + 3 < s.cfg.pbufBytes) : (s.writeTarget v tgt).Inv := by
  cases tgt with
  | reg r => exact h.writeReg hr v r
  | window m =>
    have hpbuf := h.pbuf.writeWindow (hwin m rfl) v
    rw [State.writeTarget]
    rw [State.writeWindow_frame] at hpbuf ⊢
    exact ⟨h.cfg, hpbuf, h.stream, h.table, h.tree, h.codes, h.error, h.handshake⟩
  | reserved => exact h

/-- An admitted access of the window names a word whose four bytes the buffer has (20_memory.md R60, R63). -/
theorem window_in_range {c : Params} {off width m : Nat} (hcfg : c.wf = true) (ha : admitted c off width = true)
    (hm : portTarget off = .window m) : 4 * m + 3 < c.pbufBytes := by
  obtain ⟨-, h4, hlt⟩ := (admitted_iff c off width).mp ha
  simp only [Params.wf, Bool.and_eq_true, decide_eq_true_eq] at hcfg
  unfold portTarget at hm
  split at hm
  · cases hm
    omega
  · split at hm <;> cases hm

/-- An access that has a step is its effect, on a block whose reset is not held (20_memory.md R61). -/
theorem hostAccess_eq_next {off width : Nat} {effect : PortTarget → State} (hx : hostAccess s off width effect = .next t) :
    s.resetHeld = false ∧ admitted s.cfg off width = true ∧ t = effect (portTarget off) := by
  obtain ⟨-, hf⟩ | ⟨hr, ha, hn⟩ | ⟨-, -, hf⟩ := hostAccess_cases s off width effect
  · rw [hf] at hx; cases hx
  · rw [hn] at hx; cases hx; exact ⟨hr, ha, rfl⟩
  · rw [hf] at hx; cases hx

/-- No host write moves a bit pointer (10_state.md R38). -/
theorem State.hostWrite_pointers (tgt : PortTarget) (v : Word) :
    (s.hostWrite tgt v).rdptr = s.rdptr ∧ (s.hostWrite tgt v).bitlen = s.bitlen := by
  cases hb : s.busy
  · rw [State.hostWrite_idle _ _ hb]
    cases tgt with
    | reg r =>
      cases r
      case status =>
        simp only [State.writeTarget, State.writeReg, State.writeStatus]
        split <;> exact ⟨rfl, rfl⟩
      all_goals exact ⟨rfl, rfl⟩
    | window m => exact ⟨rfl, rfl⟩
    | reserved => exact ⟨rfl, rfl⟩
  · rw [State.hostWrite_busy _ _ hb]
    exact ⟨rfl, rfl⟩

/-- A host write that has a step keeps the invariant (10_state.md R37, R38). -/
theorem hostWrite_inv {off width : Nat} {v : Word} (h : s.Inv) (hr : s.resetHeld = false)
    (ha : admitted s.cfg off width = true) : (s.hostWrite (portTarget off) v).Inv := by
  cases hb : s.busy
  · rw [State.hostWrite_idle _ _ hb]
    exact h.writeTarget hr v fun m hm => window_in_range h.cfg ha hm
  · rw [State.hostWrite_busy _ _ hb]
    exact h.dropWrite

/-! ## The step -/

/-- What one input does keeps the invariant, and RDPTR ≤ BITLEN unless it is the engine's turn to perform GET_BITS. -/
theorem takeInput_inv {x : Input} (h : s.Inv) (hx : takeInput s x = .next t) :
    t.Inv ∧ (s.rdptr ≤ s.bitlen → ¬ (x = .engine ∧ s.pending = some (encode .getBits)) → t.rdptr ≤ t.bitlen) := by
  cases x with
  | engine =>
    obtain ⟨hinv, hrd⟩ := engineTurn_inv h hx
    exact ⟨hinv, fun hle hne => hrd hle fun hp => hne ⟨rfl, hp⟩⟩
  | read off width =>
    obtain ⟨-, -, rfl⟩ := hostAccess_eq_next hx
    rw [State.hostRead_frame]
    exact ⟨h.withEnv _, fun hle _ => hle⟩
  | write off width v =>
    obtain ⟨hr, ha, rfl⟩ := hostAccess_eq_next (effect := fun tgt => s.hostWrite tgt v) hx
    obtain ⟨hrd, hbl⟩ := State.hostWrite_pointers (s := s) (portTarget off) v
    exact ⟨hostWrite_inv h hr ha, fun hle _ => hrd.symm ▸ hbl.symm ▸ hle⟩
  | assertReset =>
    cases hx
    exact ⟨.of_atReset (m := []) h.cfg ⟨State.pbuf_wf_hardReset s, nofun⟩, fun _ _ => Nat.le_refl 0⟩
  | releaseReset =>
    cases hx
    exact ⟨⟨h.cfg, h.pbuf, h.stream, h.table, h.tree, h.codes, h.error, fun hp => ⟨(h.handshake hp).1, rfl⟩⟩,
      fun hle _ => hle⟩

end

/-- Settles O58: an empty input list is the engine's turn, and any other is its first item. -/
theorem stepKeepsInvariant : Obligations.StepKeepsInvariant := by
  intro s t h hx
  cases hin : s.env.inputs with
  | nil =>
    rw [step_nil hin] at hx
    obtain ⟨hinv, hrd⟩ := engineTurn_inv h hx
    exact ⟨hinv, fun hle hne => hrd hle fun hp => hne ⟨hp, .inl hin⟩⟩
  | cons x l =>
    rw [step_cons hin] at hx
    obtain ⟨hinv, hrd⟩ := takeInput_inv (h.withEnv _) hx
    refine ⟨hinv, fun hle hne => hrd hle ?_⟩
    rintro ⟨rfl, hp⟩
    exact hne ⟨hp, .inr ⟨l, hin⟩⟩

end Sys2Proof.Machine

/-! PROOF. What every command keeps, and how every command ends (O35, O41, O42). -/

namespace Sys2Proof.Machine

/-- Settles O35: every word has an answer, and each of its ends clears BUSY and sets DONE. -/
theorem everyCommandEndsNotBusyAndDone : Obligations.EveryCommandEndsNotBusyAndDone := by
  intro w s
  obtain ⟨t, ht⟩ := performWord_total w s
  refine ⟨t, ht, ?_⟩
  obtain ⟨-, rfl⟩ | ⟨-, rfl⟩ | ⟨-, i, u, r0, r1, r2, -, -, -, rfl⟩ | ⟨-, opc, code, -, i0, i1, rfl⟩ :=
    performWord_effects ht <;> exact ⟨rfl, rfl⟩

/-- Settles O41: a rejection and a failure keep the state but for the end of the command, and a success has changed
nothing outside the buffers. -/
theorem commandsKeepOperandsAndControl : Obligations.CommandsKeepOperandsAndControl := by
  intro i s t h
  by_cases hi : i = .reset
  · subst hi
    cases h
    exact ⟨rfl, rfl, rfl, fun hne => absurd rfl hne⟩
  · obtain ⟨-, rfl⟩ | ⟨he, u, r0, r1, r2, -, hsame, rfl⟩ | ⟨he, code, -, i0, i1, rfl⟩ := exec_effects hi h
    · exact ⟨rfl, rfl, rfl, fun _ => ⟨rfl, rfl, rfl, rfl, fun _ => rfl⟩⟩
    · rw [hsame]
      exact ⟨rfl, rfl, rfl, fun _ => ⟨rfl, rfl, rfl, rfl, fun herr => absurd herr (by simp [he])⟩⟩
    · exact ⟨rfl, rfl, rfl, fun _ => ⟨rfl, rfl, rfl, rfl, fun herr => absurd herr (by simp [he])⟩⟩

/-! ## The validity flags (10_state.md R34) -/

theorem RuleEffect.validity_of_frequency {i : Instr} {s t : State} (heff : RuleEffect s i t)
    (hi : i = .freqClear ∨ i = .freqCount ∨ i = .freqSet) :
    t.status.treeValid = false ∧ t.status.codesValid = false ∧ t.nodes = [] := by
  cases heff with
  | clears | counts | inserts => exact ⟨rfl, rfl, rfl⟩
  | builds | derives => simp at hi
  | reads h | appends h | seeks h | restarts h => obtain rfl | rfl | rfl := hi <;> exact absurd h (by decide)

theorem RuleEffect.validity_of_treeBuild {s t : State} (heff : RuleEffect s .treeBuild t) :
    t.status.treeValid = true ∧ t.status.codesValid = false := by
  cases heff with
  | builds => exact ⟨rfl, rfl⟩
  | reads h | inserts h | appends h | seeks h | restarts h => exact absurd h (by decide)

theorem RuleEffect.validity_of_codeGen {s t : State} (heff : RuleEffect s .codeGen t) :
    t.status.treeValid = s.status.treeValid ∧ t.status.codesValid = true ∧ t.nodes = s.nodes := by
  cases heff with
  | derives => exact ⟨rfl, rfl, rfl⟩
  | reads h | inserts h | appends h | seeks h | restarts h => exact absurd h (by decide)

/-- The commands of the stream and those that only read leave the table, the tree and the codes alone. -/
theorem RuleEffect.keeps_table_tree_codes {i : Instr} {s t : State} (heff : RuleEffect s i t)
    (hi : i ∉ [Instr.freqClear, .freqCount, .freqSet, .treeBuild, .codeGen]) :
    t.status.treeValid = s.status.treeValid ∧ t.status.codesValid = s.status.codesValid ∧
    t.nodes = s.nodes ∧ t.codes = s.codes ∧ t.ft = s.ft ∧ t.total = s.total := by
  cases heff with
  | reads | seeks | restarts => exact ⟨rfl, rfl, rfl, rfl, rfl, rfl⟩
  | appends =>
    rw [State.streamAppendAll_frame]
    exact ⟨rfl, rfl, rfl, rfl, rfl, rfl⟩
  | clears | counts | builds | derives => exact absurd (by decide) hi
  | inserts h => simp only [List.mem_cons] at h hi; tauto

/-- Settles O42: a success has the validity its effect gives it. -/
theorem onlyTheirCommandsChangeValidity : Obligations.OnlyTheirCommandsChangeValidity := by
  intro i s t hi he h ht
  obtain ⟨herr, -⟩ | ⟨-, u, r0, r1, r2, heff, -, rfl⟩ | ⟨-, code, -, i0, i1, rfl⟩ := exec_effects hi h
  · exact absurd herr (by simp [he])
  · exact ⟨heff.validity_of_frequency, fun hb => (hb ▸ heff).validity_of_treeBuild,
      fun hg => (hg ▸ heff).validity_of_codeGen, heff.keeps_table_tree_codes⟩
  · cases ht

end Sys2Proof.Machine

/-! PROOF. The arena of a table is a strict binary tree (O16): an invariant of the merge loop, kept by every round. -/

namespace Sys2Proof.Machine

/-! ## The invariant of the merge loop -/

/-- The sum of the frequencies of a collection of nodes, as an unbounded number. -/
def freqSum (nodes : List Node) (q : List Nat) : Nat := (q.map (fun j => (nodeAt nodes j).freq.toNat)).sum

/-- What holds of an arena of n leaves and of the collection q of its parentless nodes between two rounds of the merge
(42_tree.md R141). -/
structure MergeOk (n : Nat) (nodes : List Node) (q : List Nat) : Prop where
  size : nodes.length + q.length = 2 * n
  leaves : ∀ k, k < n → ∃ sym f, nodes[k]? = some (.leaf sym f)
  internals : ∀ j, n ≤ j → j < nodes.length → ∃ f left right,
    nodes[j]? = some (.internal f left right) ∧ left < j ∧ right < j ∧ left ≠ right ∧
    f.toNat = (nodeAt nodes left).freq.toNat + (nodeAt nodes right).freq.toNat
  range : ∀ k ∈ q, k < nodes.length
  distinct : q.Nodup
  orphans : ∀ k ∈ q, ∀ j, ¬ IsParent nodes j k
  parents : ∀ k, k < nodes.length → k ∉ q → ∃! j, IsParent nodes j k
  fits : freqSum nodes q < 2 ^ 32

section

variable {n : Nat} {nodes : List Node}

theorem MergeOk.perm {q q' : List Nat} (h : MergeOk n nodes q) (hp : q.Perm q') : MergeOk n nodes q' where
  size := hp.length_eq ▸ h.size
  leaves := h.leaves
  internals := h.internals
  range := fun k hk => h.range k (hp.mem_iff.mpr hk)
  distinct := hp.nodup_iff.mp h.distinct
  orphans := fun k hk => h.orphans k (hp.mem_iff.mpr hk)
  parents := fun k hk hq => h.parents k hk fun hm => hq (hp.mem_iff.mp hm)
  fits := by
    unfold freqSum
    rw [← (hp.map _).sum_eq]
    exact h.fits

/-! ## One round -/

/-- Appending a node leaves the parents there are, and makes the new node a parent of its children. -/
theorem isParent_append {f : Word} {a b j k : Nat} :
    IsParent (nodes ++ [.internal f a b]) j k ↔ IsParent nodes j k ∨ (j = nodes.length ∧ (a = k ∨ b = k)) := by
  unfold IsParent
  rcases Nat.lt_trichotomy j nodes.length with hj | rfl | hj
  · simp [List.getElem?_append_left hj, hj.ne]
  · simp
  · have hnone : nodes[j]? = none := List.getElem?_eq_none hj.le
    have hnone' : (nodes ++ [Node.internal f a b])[j]? = none := List.getElem?_eq_none (by simp; omega)
    simp [hnone, hnone', hj.ne']

theorem freqSum_append {q : List Nat} (hq : ∀ k ∈ q, k < nodes.length) (l : List Node) :
    freqSum (nodes ++ l) q = freqSum nodes q := by
  unfold freqSum
  congr 1
  exact List.map_congr_left fun k hk => by rw [nodeAt_append_left (hq k hk)]

/-- The frequency of a merged node is the sum of its children's when that sum fits 32 bits (log 13). -/
theorem toNat_freq_mergeNode {a b : Nat}
    (h : (nodeAt nodes a).freq.toNat + (nodeAt nodes b).freq.toNat < 2 ^ 32) :
    (mergeNode nodes a b).freq.toNat = (nodeAt nodes a).freq.toNat + (nodeAt nodes b).freq.toNat := by
  have hfreq : (mergeNode nodes a b).freq = (nodeAt nodes a).freq + (nodeAt nodes b).freq := rfl
  rw [hfreq, BitVec.toNat_add, Nat.mod_eq_of_lt h]

/-- A parent is an internal node after its child (10_state.md R31). -/
theorem MergeOk.child_lt {q : List Nat} {j k : Nat} (h : MergeOk n nodes q) (hp : IsParent nodes j k) :
    k < j ∧ j < nodes.length := by
  obtain ⟨f, l, r, hj, hk⟩ := hp
  have hlen : j < nodes.length := (List.getElem?_eq_some_iff.mp hj).1
  have hn : n ≤ j := Nat.le_of_not_lt fun hlt => by
    obtain ⟨sym, g, hleaf⟩ := h.leaves j hlt
    rw [hj] at hleaf
    cases hleaf
  obtain ⟨f', l', r', hj', hl, hr, -⟩ := h.internals j hn hlen
  rw [hj] at hj'
  cases hj'
  exact ⟨by rcases hk with rfl | rfl <;> assumption, hlen⟩

section

variable {a b : Nat} {rest : List Nat} (h : MergeOk n nodes (a :: b :: rest))
include h

theorem MergeOk.round_internals (j : Nat) (hn : n ≤ j) (hj : j < (nodes ++ [mergeNode nodes a b]).length) :
    ∃ f left right, (nodes ++ [mergeNode nodes a b])[j]? = some (.internal f left right) ∧ left < j ∧ right < j ∧
      left ≠ right ∧ f.toNat = (nodeAt (nodes ++ [mergeNode nodes a b]) left).freq.toNat +
        (nodeAt (nodes ++ [mergeNode nodes a b]) right).freq.toNat := by
  by_cases hold : j < nodes.length
  · obtain ⟨f, l, r, hget, hl, hr, hne, hsum⟩ := h.internals j hn hold
    refine ⟨f, l, r, (List.getElem?_append_left hold).trans hget, hl, hr, hne, ?_⟩
    rw [nodeAt_append_left (hl.trans hold), nodeAt_append_left (hr.trans hold), hsum]
  · have hjl : j = nodes.length := by
      rw [List.length_append, List.length_singleton] at hj
      omega
    subst hjl
    have ha : a < nodes.length := h.range a (by simp)
    have hb : b < nodes.length := h.range b (by simp)
    have hab : a ≠ b := fun hab => (List.nodup_cons.mp h.distinct).1 (by simp [hab])
    have hfits := h.fits
    simp only [freqSum, List.map_cons, List.sum_cons] at hfits
    refine ⟨_, a, b, List.getElem?_concat_length, ha, hb, hab, ?_⟩
    rw [nodeAt_append_left ha, nodeAt_append_left hb]
    exact toNat_freq_mergeNode (by omega)

theorem MergeOk.round_orphans (k : Nat) (hk : k ∈ nodes.length :: rest) (j : Nat) :
    ¬ IsParent (nodes ++ [mergeNode nodes a b]) j k := by
  have ha : a < nodes.length := h.range a (by simp)
  have hb : b < nodes.length := h.range b (by simp)
  rw [mergeNode, isParent_append]
  rintro (hp | ⟨-, hab⟩)
  · rcases List.mem_cons.mp hk with rfl | hk
    · obtain ⟨hlt, hj⟩ := h.child_lt hp
      omega
    · exact h.orphans k (by simp [hk]) j hp
  · rcases List.mem_cons.mp hk with rfl | hk
    · omega
    · have hd := h.distinct
      simp only [List.nodup_cons, List.mem_cons, not_or] at hd
      obtain ⟨⟨-, har⟩, hbr, -⟩ := hd
      rcases hab with rfl | rfl
      · exact har hk
      · exact hbr hk

theorem MergeOk.round_parents (k : Nat) (hk : k < (nodes ++ [mergeNode nodes a b]).length)
    (hq : k ∉ nodes.length :: rest) : ∃! j, IsParent (nodes ++ [mergeNode nodes a b]) j k := by
  rw [List.length_append, List.length_singleton] at hk
  simp only [List.mem_cons, not_or] at hq
  simp only [mergeNode, isParent_append]
  by_cases hab : a = k ∨ b = k
  · have horphan := h.orphans k (by simp only [List.mem_cons, eq_comm (a := k)]; tauto)
    exact ⟨nodes.length, .inr ⟨rfl, hab⟩, fun j hj => (hj.resolve_left (horphan j)).1⟩
  · obtain ⟨j, hj, huniq⟩ := h.parents k (by omega) (by simp only [List.mem_cons, eq_comm (a := k)]; tauto)
    exact ⟨j, .inl hj, fun i hi => huniq i (hi.resolve_right fun hi => hab hi.2)⟩

/-- One round of the merge: two nodes leave the collection, and their parent comes in (42_tree.md R141). -/
theorem MergeOk.round : MergeOk n (nodes ++ [mergeNode nodes a b]) (nodes.length :: rest) where
  size := by
    have hsize := h.size
    simp only [List.length_append, List.length_cons, List.length_nil] at hsize ⊢
    omega
  leaves := fun k hk => by
    obtain ⟨sym, f, hget⟩ := h.leaves k hk
    exact ⟨sym, f, (List.getElem?_append_left (List.getElem?_eq_some_iff.mp hget).1).trans hget⟩
  internals := h.round_internals
  range := fun k hk => by
    rw [List.length_append, List.length_singleton]
    rcases List.mem_cons.mp hk with rfl | hk
    · omega
    · exact Nat.lt_succ_of_lt (h.range k (by simp [hk]))
  distinct := by
    have hrest : rest.Nodup := (List.nodup_cons.mp (List.nodup_cons.mp h.distinct).2).2
    exact List.nodup_cons.mpr ⟨fun hm => Nat.lt_irrefl _ (h.range _ (by simp [hm])), hrest⟩
  orphans := h.round_orphans
  parents := h.round_parents
  fits := by
    have hfits := h.fits
    have hrest : freqSum (nodes ++ [mergeNode nodes a b]) rest = freqSum nodes rest :=
      freqSum_append (fun k hk => h.range k (by simp [hk])) _
    have hnew : nodeAt (nodes ++ [mergeNode nodes a b]) nodes.length = mergeNode nodes a b :=
      nodeAt_of List.getElem?_concat_length
    simp only [freqSum, List.map_cons, List.sum_cons] at hfits hrest ⊢
    rw [hrest, hnew, toNat_freq_mergeNode (by omega)]
    omega

end

/-! ## The whole merge -/

/-- A merge that starts well ends in a tree: every round keeps the invariant, and at the end the last node is the only
one without a parent. -/
theorem arenaShape_of_merges {q : List Nat} {result : List Node} (h : MergeOk n nodes q)
    (hm : Merges nodes q result) : ArenaShape result n := by
  induction hm with
  | finished nodes root =>
    have hsize := h.size
    have hroot := h.range root (by simp)
    rw [List.length_singleton] at hsize
    have hlast : root = nodes.length - 1 := by
      by_contra hne
      obtain ⟨j, hj, -⟩ := h.parents (nodes.length - 1) (by omega) (by simpa using Ne.symm hne)
      obtain ⟨hlt, hlen⟩ := h.child_lt hj
      omega
    exact ⟨by omega, h.leaves, h.internals, fun k hk => h.parents k (by omega) (by simp; omega)⟩
  | round nodes q q' a b result ha hb hq _ ih =>
    have hsplit : q.Perm (a :: b :: (q.erase a).erase b) :=
      (List.perm_cons_erase ha.1).trans ((List.perm_cons_erase hb.1).cons a)
    exact ih ((h.perm hsplit).round.perm hq.symm)

/-- The leaves alone meet the invariant: nobody has a parent yet (42_tree.md R141). -/
theorem mergeOk_leavesOf {ft : List FreqEntry} (hsum : countSum ft < 2 ^ 32) :
    MergeOk ft.length (leavesOf ft) (List.range ft.length) := by
  have hlen := leavesOf_length ft
  have hleaf (k : Nat) (hk : k < ft.length) : ∃ sym f, (leavesOf ft)[k]? = some (.leaf sym f) := by
    have hk' : k < (sortBySym ft).length := (sortBySym_perm ft).length_eq ▸ hk
    exact ⟨_, _, by rw [leavesOf, List.getElem?_map, List.getElem?_eq_getElem hk']; rfl⟩
  have hparent (j k : Nat) : ¬ IsParent (leavesOf ft) j k := by
    rintro ⟨f, l, r, hj, -⟩
    obtain ⟨sym, g, hget⟩ := hleaf j (hlen ▸ (List.getElem?_eq_some_iff.mp hj).1)
    rw [hj] at hget
    cases hget
  have hfreq : freqSum (leavesOf ft) (List.range ft.length) = countSum ft := by
    have hmap : (List.range ft.length).map (nodeAt (leavesOf ft)) = leavesOf ft := by
      apply List.ext_getElem
      · simp [hlen]
      · intro k h1 h2
        simp [nodeAt, List.getElem?_eq_getElem h2]
    calc freqSum (leavesOf ft) (List.range ft.length)
        = (((List.range ft.length).map (nodeAt (leavesOf ft))).map (fun x => x.freq.toNat)).sum := by
          simp [freqSum, Function.comp_def]
      _ = ((sortBySym ft).map (fun e => e.count.toNat)).sum := by
          rw [hmap]
          simp [leavesOf, Function.comp_def, Node.freq]
      _ = countSum ft := ((sortBySym_perm ft).map _).sum_eq
  exact
    { size := by rw [hlen, List.length_range]; omega
      leaves := hleaf
      internals := fun j h1 h2 => by omega
      range := fun k hk => by rw [hlen]; exact List.mem_range.mp hk
      distinct := List.nodup_range
      orphans := fun k _ j => hparent j k
      parents := fun k h1 h2 => absurd (List.mem_range.mpr (hlen ▸ h1)) h2
      fits := hfreq ▸ hsum }

end

/-- Settles O16: the merge loop runs through the relation `Merges` from the leaves, and the invariant with it. -/
theorem arenaIsStrictBinaryTree : Obligations.ArenaIsStrictBinaryTree := by
  intro ft hne hsum
  have hrange : List.range ft.length ≠ [] := by simpa using hne
  exact arenaShape_of_merges (mergeOk_leavesOf hsum)
    (mergeLoop_merges ft.length (List.range ft.length) (leavesOf ft) hrange (by simp))

end Sys2Proof.Machine

/-! PROOF. The step of the block (O5, O6), STATUS and CTRL (O37, O38, O39), and the registers at the port (O43 to O47). -/

namespace Sys2Proof.Machine

/-! ## The step -/

/-- A command word placed by `withFetchWord` is the pending word, and the engine's turn is next (log 15). -/
theorem withFetchWord_word (s : State) (w : Word) : s.withFetchWord 32 w.toNat = s.withCommand w := by
  have hw : tableWord 32 w.toNat = some w := by
    simp only [tableWord, Nat.mod_eq_of_lt w.isLt, if_pos w.isLt, BitVec.ofNat_toNat, BitVec.setWidth_eq]
  rw [State.withFetchWord, hw]

/-- Settles O5: the engine's turn performs the pending word, whatever the list of inputs left. -/
theorem stepRunsDecodedCommand : Obligations.StepRunsDecodedCommand := by
  intro s w i hd
  refine ⟨fun hp hin => ?_, fun l hp hin => ?_, ?_⟩
  · rw [step_nil hin, engineTurn_pending hp, performWord_ok hd]
  · rw [step_cons hin, takeInput, engineTurn_pending (s := s.withInputs l) hp, performWord_ok hd]
    rfl
  · rw [withFetchWord_word, step_cons (x := .engine) (l := s.env.inputs) rfl, takeInput,
      engineTurn_pending (w := w) rfl, performWord_ok hd]
    rfl

/-- Settles O6: with nothing pending the engine's turn is idle. -/
theorem idleBlockKeepsState : Obligations.IdleBlockKeepsState := by
  intro s hp hin
  rw [step_nil hin, engineTurn_idle hp]

/-! ## STATUS and CTRL -/

/-- Settles O37: the bits of STATUS after the write, one by one. -/
theorem statusWriteOneToClear : Obligations.StatusWriteOneToClear := by
  intro s l v hb hr
  refine ⟨_, step_writeReg_idle l .status v hb hr, State.writeStatus_eq _ v, fun k => ?_⟩
  have hbusy : ((s.withInputs l).writeReg v .status).busy = s.busy := by
    rw [State.writeReg, State.writeStatus_eq]; rfl
  rw [State.getLsbD_statusWord, State.getLsbD_statusWord, hbusy, State.writeReg, State.writeStatus_eq]
  rcases k with _ | _ | _ | _ | _ | _ | k <;> simp

/-- Settles O38: BUSY is the presence of a pending command, and the other bits are the flags. -/
theorem statusBitLayout : Obligations.StatusBitLayout := by
  intro s
  simp only [State.getLsbD_statusWord]
  refine ⟨?_, rfl, rfl, rfl, rfl, rfl, fun k hk => ?_⟩
  · simp [State.busy, Option.isSome_iff_ne_none]
  · obtain ⟨k, rfl⟩ := Nat.exists_eq_add_of_le' hk
    rfl

/-- Settles O39: the write sets the two fields of CTRL, and both its view and IRQ are functions of them. -/
theorem ctrlWriteSetsEnables : Obligations.CtrlWriteSetsEnables := by
  refine ⟨by decide, fun s l v hb hr => ?_⟩
  refine ⟨_, step_writeReg_idle l .ctrl v hb hr, rfl, State.ctrlWord_of_ctrl rfl, ?_⟩
  simp [State.writeReg, State.irq]

/-! ## Reads of the registers -/

/-- Settles O43: each offset of the map is a register's, and the value is the register's. -/
theorem idleReadReturnsRegister : Obligations.IdleReadReturnsRegister := by
  intro s l hb hr off v hmem
  have hmap : (off, v) ∈ Reg.all.map (fun r => (r.offset, s.regValue r)) := hmem
  obtain ⟨r, -, ⟨⟩⟩ := List.mem_map.mp hmap
  exact step_readReg_idle l r hb hr

/-- Settles O44: the first eight registers are the busy-stable ones, and no target from offset 0x020 on is. -/
theorem busyReadIsDefinedOrFresh : Obligations.BusyReadIsDefinedOrFresh := by
  intro s l hb hr
  refine ⟨fun off v hmem => ?_, fun off hoff ha => ?_⟩
  · have hmap : (off, v) ∈ (Reg.all.filter Reg.busyStable).map (fun r => (r.offset, s.regValue r)) := hmem
    obtain ⟨r, hstable, ⟨⟩⟩ := List.mem_map.mp hmap
    exact step_readReg_stable l (List.mem_filter.mp hstable).2 hb hr
  · obtain ⟨-, h4, hlt⟩ := (admitted_iff _ _ _).mp ha
    rw [step_read s l hr h4 hlt, State.hostRead_busy (s := s.withInputs l) _ hb, portTarget_not_busyStable hoff,
      if_neg (by decide)]
    rfl

/-! ## Writes -/

/-- Settles O45: a busy write is dropped, whatever it names. -/
theorem busyWriteIsDropped : Obligations.BusyWriteIsDropped := by
  intro s l off v hb hr ha
  obtain ⟨-, h4, hlt⟩ := (admitted_iff _ _ _).mp ha
  rw [step_write s l v hr h4 hlt, State.hostWrite_busy (s := s.withInputs l) _ v hb]
  rfl

/-- Settles O46: each of the other offsets is that of a read-only register. -/
theorem idleWriteStoresOperandOrIsIgnored : Obligations.IdleWriteStoresOperandOrIsIgnored := by
  intro s l v hb hr
  refine ⟨step_writeReg_idle l .arg0 v hb hr, step_writeReg_idle l .arg1 v hb hr, fun off hoff => ?_⟩
  have hmap : off ∈ (Reg.all.filter (fun r => r ∉ [Reg.ctrl, .status, .cmd, .arg0, .arg1])).map Reg.offset := hoff
  obtain ⟨r, hro, rfl⟩ := List.mem_map.mp hmap
  rw [step_writeReg_idle l r v hb hr, State.writeReg_readOnly _ v (of_decide_eq_true (List.mem_filter.mp hro).2)]

/-- Settles O47: the write of CMD is the acceptance of its word. -/
theorem cmdWriteAcceptsCommand : Obligations.CmdWriteAcceptsCommand := by
  intro s l w hb hr
  exact ⟨_, step_writeReg_idle l .cmd w hb hr, rfl, rfl⟩

end Sys2Proof.Machine

/-! PROOF. The accesses of the port (O48, O49, O51), the bytes and bits of PBUF (O31, O50), and the aperture (O53). -/

namespace Sys2Proof.Machine

/-! ## Admission of an access (20_memory.md R61) -/

/-- Outside a hardware reset an access that the port does not admit is stuck (20_memory.md R61). -/
theorem hostAccess_not_admitted {s : State} {off width : Nat} (effect : PortTarget → State) (hr : s.resetHeld = false)
    (ha : ¬ admitted s.cfg off width = true) : hostAccess s off width effect = .fault .accessNotAdmitted := by
  rw [hostAccess, if_neg (by simp [hr]), if_neg ha]

/-- Settles O51: the conditions of R61 are the negation of `admitted`, and an admitted access is its effect. -/
theorem onlyAlignedWordAccessesHaveAStep : Obligations.OnlyAlignedWordAccessesHaveAStep := by
  intro s l off width v hr
  have hiff := admitted_iff s.cfg off width
  refine ⟨fun hbad => ?_, fun h4 hw hlt => ?_⟩
  · have ha : ¬ admitted s.cfg off width = true := by rw [hiff]; omega
    have stuck := fun effect => hostAccess_not_admitted (s := s.withInputs l) effect hr ha
    exact ⟨stuck fun tgt => (s.withInputs l).hostRead tgt, stuck fun tgt => (s.withInputs l).hostWrite tgt v⟩
  · subst hw
    exact ⟨⟨_, step_read s l hr h4 hlt⟩, ⟨_, step_write s l v hr h4 hlt⟩⟩

/-- Settles O53: the offset is the distance from BASE. -/
theorem busAddressReachesOffset : Obligations.BusAddressReachesOffset := by
  intro c base addr off
  unfold busOffset Params.aperture
  split
  · rw [Option.some.injEq]
    omega
  · simp only [reduceCtorEq, false_iff]
    omega

/-! ## Reserved offsets and fields (20_memory.md R62) -/

/-- Bits [31:16] of ERRCODE are 0 in every state of the invariant (10_state.md R26). -/
theorem State.ErrorOk.errcode_reserved {s : State} (h : s.ErrorOk) {k : Nat} (hk : 16 ≤ k) :
    s.errcode.getLsbD k = false := by
  obtain ⟨hready, herr⟩ := h
  cases he : s.status.err
  · rw [(hready he).1, BitVec.getLsbD_zero]
  · by_cases hlt : k < 32
    · have hbit := congrArg (fun x => x.getLsbD (k - 16)) (herr he).1
      simp only [BitVec.getLsbD_extractLsb', BitVec.getLsbD_zero, Nat.add_sub_cancel' hk] at hbit
      simpa [show k - 16 < 16 by omega] using hbit
    · exact BitVec.getLsbD_of_ge _ _ (by omega)

/-- Settles O48: a reserved offset names the target that holds nothing, and each register's view has bits for its fields
only. -/
theorem reservedReadsZeroIgnoresWrites : Obligations.ReservedReadsZeroIgnoresWrites := by
  intro s l off v hr
  refine ⟨fun hlo hhi h4 => ?_, fun k hk => ?_, fun k hk => ?_, fun he k hk => he.errcode_reserved hk⟩
  · rw [step_read s l hr h4 (by omega), step_write s l v hr h4 (by omega), portTarget_reserved hlo hhi]
    refine ⟨fun hb => ?_, fun hb => ?_⟩
    · rw [State.hostRead_idle (s := s.withInputs l) _ hb, State.hostWrite_idle (s := s.withInputs l) _ v hb]
      exact ⟨rfl, rfl⟩
    · rw [State.hostRead_busy (s := s.withInputs l) _ hb, State.hostWrite_busy (s := s.withInputs l) _ v hb]
      exact ⟨rfl, rfl⟩
  · rw [State.getLsbD_ctrlWord, List.getD_eq_default _ _ hk]
  · rw [State.getLsbD_statusWord, List.getD_eq_default _ _ hk]

/-! ## Window words and stream bits (20_memory.md R63 to R65) -/

/-- Bit k of window word m is bit k mod 8 of byte 4m + k div 8 (20_memory.md R63, R65). -/
theorem State.getLsbD_windowWord (s : State) (m : Nat) {k : Nat} (hk : k < 32) :
    (s.windowWord m).getLsbD k = (s.readByte (4 * m + k / 8)).getLsbD (k % 8) := by
  simp only [State.windowWord, BitVec.getLsbD_append]
  obtain h | h | h | h : k / 8 = 0 ∨ k / 8 = 1 ∨ k / 8 = 2 ∨ k / 8 = 3 := by omega
  · rw [if_pos (by omega), h, show k % 8 = k by omega, Nat.add_zero]
  · rw [if_neg (by omega), if_pos (by omega), h, show k % 8 = k - 8 by omega]
  · rw [if_neg (by omega), if_neg (by omega), if_pos (by omega), h, show k % 8 = k - 8 - 8 by omega]
  · rw [if_neg (by omega), if_neg (by omega), if_neg (by omega), h, show k % 8 = k - 8 - 8 - 8 by omega]

/-- Settles O50: bit p of the stream is bit k of its window word, with k div 8 the byte's place in the word. -/
theorem streamBitInByteAndWindowWord : Obligations.StreamBitInByteAndWindowWord := by
  intro s p _
  refine ⟨rfl, ?_⟩
  rw [State.getLsbD_windowWord _ _ (by omega), State.streamBit]
  congr 2 <;> omega

/-- A window write stores byte j of the word at index 4m + j (20_memory.md R63). -/
theorem State.readByte_writeWindow_same (s : State) (m : Nat) (v : Word) {j : Nat} (hj : j < 4) :
    (s.writeWindow m v).readByte (4 * m + j) = v.extractLsb' (8 * j) 8 := by
  simp only [State.writeWindow, State.readByte_writeByte]
  obtain rfl | rfl | rfl | rfl : j = 0 ∨ j = 1 ∨ j = 2 ∨ j = 3 := by omega
  all_goals simp

/-- A window write leaves every byte outside its word (20_memory.md R63). -/
theorem State.readByte_writeWindow_other (s : State) (m : Nat) (v : Word) {i : Nat} (hi : i < 4 * m ∨ 4 * m + 4 ≤ i) :
    (s.writeWindow m v).readByte i = s.readByte i := by
  simp only [State.writeWindow, State.readByte_writeByte]
  rw [if_neg (by omega), if_neg (by omega), if_neg (by omega), if_neg (by omega)]

/-- A window word reads back as it was written (20_memory.md R63). -/
theorem State.windowWord_writeWindow (s : State) (m : Nat) (v : Word) : (s.writeWindow m v).windowWord m = v := by
  apply BitVec.eq_of_getLsbD_eq
  intro k hk
  rw [State.getLsbD_windowWord _ _ hk, State.readByte_writeWindow_same s m v (by omega), BitVec.getLsbD_extractLsb',
    Nat.div_add_mod]
  simp [Nat.mod_lt]

/-- Settles O49: the access reaches window word m, and a write of it is `writeWindow`. -/
theorem windowWordIsFourBytes : Obligations.WindowWordIsFourBytes := by
  intro s l m v hb hr hm
  have h4 : (0x1000 + 4 * m) % 4 = 0 := by omega
  have hlt : 0x1000 + 4 * m < 0x1000 + s.cfg.pbufBytes := by omega
  rw [step_read s l hr h4 hlt, step_write s l v hr h4 hlt, portTarget_window,
    State.hostRead_idle (s := s.withInputs l) _ hb, hostWrite_withInputs, State.hostWrite_idle _ v hb]
  have hframe : s.writeWindow m v = s.withPbuf (s.writeWindow m v).pbuf := s.writeWindow_frame m v
  refine ⟨rfl, (s.writeWindow m v).pbuf, congrArg (fun t : State => Host.Outcome.next (t.withInputs l)) hframe, ?_⟩
  rw [← hframe]
  have hsame (j : Nat) (hj : j < 4) := s.readByte_writeWindow_same m v hj
  exact ⟨hsame 0 (by decide), hsame 1 (by decide), hsame 2 (by decide), hsame 3 (by decide),
    s.windowWord_writeWindow m v, fun _ hi => s.readByte_writeWindow_other m v hi⟩

/-! ## StreamAppend (20_memory.md R66) -/

/-- Settles O31: StreamAppend stores one byte, the old one or a cleared one with the bit set in it. -/
theorem streamAppendWritesOneBit : Obligations.StreamAppendWritesOneBit := by
  intro s b _
  have hread (i : Nat) : (s.withPbuf (s.streamAppend b).pbuf).readByte i = (s.streamAppend b).readByte i :=
    State.readByte_congr (s := s.streamAppend b) rfl rfl i
  refine ⟨_, s.streamAppend_frame b, fun i hi => ?_, fun k _ => ?_⟩
  · rw [hread, State.readByte_streamAppend, if_neg hi]
  · rw [hread, State.readByte_streamAppend, if_pos rfl, getLsbD_setBit _ _ (by omega)]
    split
    · rfl
    · split
      · exact BitVec.getLsbD_zero
      · rfl

end Sys2Proof.Machine

/-! PROOF. What a command and a host access leave alone: the port's own fields (O59), the command that is pending (O52),
and the padding bits of the stream (O33). -/

namespace Sys2Proof.Machine

section

variable {s t : State}

/-! ## Runs that never get stuck (20_memory.md R61; 70_reset_and_hazards.md R251) -/

/-- No command changes the configuration, the held reset or the model's own fields. -/
theorem performWord_outside {w : Word} (hx : performWord w s = .next t) :
    t.cfg = s.cfg ∧ t.resetHeld = s.resetHeld ∧ t.env = s.env := by
  obtain ⟨-, rfl⟩ | ⟨-, rfl⟩ | ⟨-, i, u, r0, r1, r2, -, -, hsame, rfl⟩ | ⟨-, opc, code, -, i0, i1, rfl⟩ :=
    performWord_effects hx
  · exact ⟨rfl, rfl, rfl⟩
  · exact ⟨rfl, rfl, rfl⟩
  · rw [hsame]
    exact ⟨rfl, rfl, rfl⟩
  · exact ⟨rfl, rfl, rfl⟩

/-- The engine's turn always has an answer, and changes neither the configuration, nor the held reset, nor the model's own
fields. -/
theorem engineTurn_total (s : State) :
    ∃ t, engineTurn s = .next t ∧ t.cfg = s.cfg ∧ t.resetHeld = s.resetHeld ∧ t.env = s.env := by
  cases hp : s.pending with
  | none => exact ⟨s, engineTurn_idle hp, rfl, rfl, rfl⟩
  | some w =>
    obtain ⟨t, ht⟩ := performWord_total w s
    exact ⟨t, (engineTurn_pending hp).trans ht, performWord_outside ht⟩

/-- A write of a register changes neither the configuration, nor the stream, nor the held reset, nor the model's own
fields (10_state.md R38). -/
theorem State.writeReg_outside (s : State) (v : Word) (r : Reg) :
    (s.writeReg v r).cfg = s.cfg ∧ (s.writeReg v r).resetHeld = s.resetHeld ∧ (s.writeReg v r).env = s.env ∧
    (s.writeReg v r).pbuf = s.pbuf ∧ (s.writeReg v r).bitlen = s.bitlen := by
  cases r
  case status =>
    rw [State.writeReg, State.writeStatus_eq]
    exact ⟨rfl, rfl, rfl, rfl, rfl⟩
  all_goals exact ⟨rfl, rfl, rfl, rfl, rfl⟩

/-- A host write changes neither the configuration, nor BITLEN, nor the held reset, nor the model's own fields; and only a
performed window write changes PBUF (10_state.md R37, R38; 20_memory.md R63). -/
theorem State.hostWrite_outside (s : State) (tgt : PortTarget) (v : Word) :
    (s.hostWrite tgt v).cfg = s.cfg ∧ (s.hostWrite tgt v).resetHeld = s.resetHeld ∧ (s.hostWrite tgt v).env = s.env ∧
    (s.hostWrite tgt v).bitlen = s.bitlen ∧
    ((s.hostWrite tgt v).pbuf = s.pbuf ∨ s.busy = false ∧ ∃ m, tgt = .window m) := by
  cases hb : s.busy
  · rw [State.hostWrite_idle _ _ hb]
    cases tgt with
    | reg r =>
      obtain ⟨hcfg, hheld, henv, hpbuf, hbitlen⟩ := s.writeReg_outside v r
      exact ⟨hcfg, hheld, henv, hbitlen, .inl hpbuf⟩
    | window m => exact ⟨rfl, rfl, rfl, rfl, .inr ⟨rfl, m, rfl⟩⟩
    | reserved => exact ⟨rfl, rfl, rfl, rfl, .inl rfl⟩
  · rw [State.hostWrite_busy _ _ hb]
    exact ⟨rfl, rfl, rfl, rfl, .inl rfl⟩

/-- The first input of an admitted list has a step, and the rest of the list is admitted after it. -/
theorem takeInput_admitted {x : Input} (h : inputsAdmitted s.cfg s.resetHeld (x :: s.env.inputs) = true) :
    ∃ t, takeInput s x = .next t ∧ inputsAdmitted t.cfg t.resetHeld t.env.inputs = true := by
  cases x with
  | engine =>
    obtain ⟨t, ht, hcfg, hheld, henv⟩ := engineTurn_total s
    exact ⟨t, ht, by rw [hcfg, hheld, henv]; exact h⟩
  | read off width =>
    simp only [inputsAdmitted, Bool.and_eq_true, Bool.not_eq_true'] at h
    obtain ⟨⟨hr, ha⟩, hl⟩ := h
    refine ⟨_, hostAccess_admitted _ hr ha, ?_⟩
    rw [(s.hostRead_env _).1, State.hostRead_frame]
    exact hl
  | write off width v =>
    simp only [inputsAdmitted, Bool.and_eq_true, Bool.not_eq_true'] at h
    obtain ⟨⟨hr, ha⟩, hl⟩ := h
    refine ⟨_, hostAccess_admitted (fun tgt => s.hostWrite tgt v) hr ha, ?_⟩
    obtain ⟨hcfg, hheld, henv, -⟩ := s.hostWrite_outside (portTarget off) v
    rw [hcfg, hheld, henv]
    exact hl
  | assertReset => exact ⟨_, rfl, h⟩
  | releaseReset => exact ⟨_, rfl, h⟩

end

/-- Settles O59: the first input has a step and leaves the rest admitted; an empty list is the engine's turn. -/
theorem admittedInputsNeverStuck : Obligations.AdmittedInputsNeverStuck := by
  intro s h
  cases hin : s.env.inputs with
  | nil =>
    obtain ⟨t, ht, -, -, henv⟩ := engineTurn_total s
    exact ⟨t, (step_nil hin).trans ht, by rw [henv, hin]; rfl⟩
  | cons x l =>
    rw [hin] at h
    rw [step_cons hin]
    exact takeInput_admitted (s := s.withInputs l) h

/-! ## Accesses before a pending command (20_memory.md R71) -/

theorem withOutside_env {t : State} {b : Bool} {e : Env} (h : e = t.env) :
    t.withOutside b e = { t with status := { t.status with wob := b } } := by
  subst h
  rfl

/-- Every command word but RESET does the same whatever WOB and the model's own fields are. -/
theorem performWord_withOutside {b : Bool} {e : Env} {w : Word} {s t : State} (h : e.epoch = s.env.epoch)
    (hw : w ≠ encode .reset) (hx : performWord w s = .next t) :
    performWord w (s.withOutside b e) = .next (t.withOutside b e) := by
  cases hd : decode w with
  | ok i =>
    have hi : i ≠ .reset := fun hi => hw (hi ▸ eq_encode_of_decode hd)
    rw [performWord_ok hd, exec_eq_runCommand hi] at hx ⊢
    exact runCommand_ruleOf_withOutside h hx
  | error x =>
    rw [performWord_error hd] at hx ⊢
    exact execIllegal_withOutside hx

/-- RESET clears WOB, so a dropped write before it leaves no trace (40_control.md R111). -/
theorem performWord_reset_dropWrite (s : State) :
    performWord (encode .reset) s.dropWrite = performWord (encode .reset) s := rfl

/-- Settles O52: a dropped write is a change of WOB, and a read is a change of the model's own fields. -/
theorem busyAccessesDoNotAffectCommand : Obligations.BusyAccessesDoNotAffectCommand := by
  intro w s t hp hx
  refine ⟨fun tgt v => ?_, fun tgt => ?_⟩
  · rw [State.hostWrite_busy tgt v (by simp [State.busy, hp])]
    split
    · rename_i hw
      subst hw
      exact (performWord_reset_dropWrite s).trans hx
    · rename_i hw
      have hsame := performWord_withOutside (b := true) (e := s.env) rfl hw hx
      exact hsame.trans (congrArg Host.Outcome.next (withOutside_env (performWord_env hx).symm))
  · rw [State.hostRead_frame]
    exact performWord_withEnv (s.hostRead_env tgt).2 hx

/-! ## The padding bits (20_memory.md R67) -/

section

variable {s t : State}

/-- The padding bits are a matter of PBUF and BITLEN only. -/
theorem State.PaddingZero.congr (h : s.PaddingZero) (hpbuf : t.pbuf = s.pbuf) (hbitlen : t.bitlen = s.bitlen)
    (hepoch : t.env.epoch = s.env.epoch) : t.PaddingZero := by
  intro p hlo hhi
  rw [hbitlen] at hlo hhi
  rw [State.streamBit, State.readByte_congr hpbuf hepoch]
  exact h p hlo hhi

/-- A stream of whole bytes has no padding bits. -/
theorem State.paddingZero_of_aligned (h : t.bitlen % 8 = 0) : t.PaddingZero := by
  intro p hlo hhi
  unfold padLen at hhi
  omega

/-- Appending bits leaves 0 in the padding: in a byte newly entered, and in the byte entered before (20_memory.md R66). -/
theorem State.PaddingZero.streamAppendAll (h : s.PaddingZero) (l : List Bool) : (s.streamAppendAll l).PaddingZero := by
  intro p hlo hhi
  rw [State.streamAppendAll_bitlen] at hlo hhi
  obtain ⟨-, -, hpad, -⟩ := appended_streamAppendAll s l
  obtain ⟨hnew, hold⟩ := hpad p hlo hhi
  by_cases hp : p < padLen s.bitlen
  · rw [hold hp]
    exact h p (by omega) hp
  · exact hnew (by omega)

/-- Clearing the low 8 - n mod 8 bits of the last byte of a stream of n bits clears its padding (45_bitpack.md R203). -/
theorem State.paddingZero_of_zeroPadding (x : Byte) (hbyte : t.readByte (t.bitlen / 8) = zeroPadding x t.bitlen) :
    t.PaddingZero := by
  intro p hlo hhi
  unfold padLen at hhi
  have hp : p / 8 = t.bitlen / 8 := by omega
  rw [State.streamBit, hp, hbyte, getLsbD_zeroPadding, decide_eq_false (by omega), Bool.false_and]

/-- SET_BITLEN leaves the padding 0, whatever it was (45_bitpack.md R203). -/
theorem paddingZero_of_setBitlenRule {r0 r1 r2 : Word} (hok : setBitlenRule s = .ok t r0 r1 r2) : t.PaddingZero := by
  simp only [setBitlenRule] at hok
  split at hok
  · cases hok
  · cases hok
    by_cases h8 : s.arg0.toNat % 8 = 0
    · exact State.paddingZero_of_aligned h8
    · simp only [if_neg h8]
      exact State.paddingZero_of_zeroPadding _ (s.readByte_writeByte_same _ _)

/-- Every effect of a rule that does not set BITLEN keeps the padding 0. -/
theorem RuleEffect.paddingZero {i : Instr} (heff : RuleEffect s i t) (hi : i ∉ [.streamReset, .setBitlen])
    (h : s.PaddingZero) : t.PaddingZero := by
  cases heff with
  | reads | clears | counts | inserts | builds | derives | seeks => exact h.congr rfl rfl rfl
  | appends => exact h.streamAppendAll _
  | restarts hmem => exact absurd hmem hi

/-- The success of any command's rule keeps the padding 0 (20_memory.md R67). -/
theorem ruleOf_paddingZero {i : Instr} {r0 r1 r2 : Word} (hi : i ≠ .reset) (h : s.PaddingZero)
    (hok : ruleOf i s = .ok t r0 r1 r2) : t.PaddingZero := by
  by_cases hset : i ∈ [.streamReset, .setBitlen]
  · simp only [List.mem_cons, List.not_mem_nil, or_false] at hset
    obtain rfl | rfl := hset
    · cases hok
      exact State.paddingZero_of_aligned rfl
    · exact paddingZero_of_setBitlenRule hok
  · have hsound := ruleOf_sound hi s
    rw [hok] at hsound
    obtain heff | _ := hsound
    exact heff.paddingZero hset h

/-- Performing any command word keeps the padding 0 (20_memory.md R67). -/
theorem performWord_paddingZero {w : Word} (h : s.PaddingZero) (hx : performWord w s = .next t) : t.PaddingZero := by
  cases hd : decode w with
  | error e =>
    rw [performWord_error hd, execIllegal_eq] at hx
    cases hx
    split <;> exact h.congr rfl rfl rfl
  | ok i =>
    rw [performWord_ok hd] at hx
    by_cases hi : i = .reset
    · subst hi
      cases hx
      exact State.paddingZero_of_aligned rfl
    · obtain ⟨-, rfl⟩ | ⟨-, u, r0, r1, r2, hok, rfl⟩ | ⟨-, e, i0, i1, -, rfl⟩ := exec_cases hi hx
      · exact h.congr rfl rfl rfl
      · exact (ruleOf_paddingZero hi h hok).congr rfl rfl rfl
      · exact h.congr rfl rfl rfl

theorem engineTurn_paddingZero (h : s.PaddingZero) (hx : engineTurn s = .next t) : t.PaddingZero := by
  cases hp : s.pending with
  | none =>
    rw [engineTurn_idle hp] at hx
    cases hx
    exact h
  | some w => exact performWord_paddingZero h (engineTurn_pending hp ▸ hx)

/-- Only offsets from 0x1000 on name a window word (20_memory.md R63). -/
theorem le_of_portTarget_window {off m : Nat} (h : portTarget off = .window m) : 0x1000 ≤ off := by
  unfold portTarget at h
  split at h
  · assumption
  · split at h <;> cases h

/-- One input keeps the padding 0, but for a window write that the port performs. -/
theorem takeInput_paddingZero {x : Input} (h : s.PaddingZero)
    (hwin : ∀ off width v, x = .write off width v → s.busy = false → off < 0x1000)
    (hx : takeInput s x = .next t) : t.PaddingZero := by
  cases x with
  | engine => exact engineTurn_paddingZero h hx
  | read off width =>
    obtain ⟨-, -, rfl⟩ := hostAccess_eq_next hx
    rw [State.hostRead_frame]
    exact h.congr rfl rfl (s.hostRead_env _).2
  | write off width v =>
    obtain ⟨-, -, rfl⟩ := hostAccess_eq_next (effect := fun tgt => s.hostWrite tgt v) hx
    obtain ⟨-, -, henv, hbitlen, hpbuf | ⟨hb, m, hm⟩⟩ := s.hostWrite_outside (portTarget off) v
    · exact h.congr hpbuf hbitlen (congrArg Env.epoch henv)
    · have hlt := hwin off width v rfl hb
      have hle := le_of_portTarget_window hm
      omega
  | assertReset =>
    cases hx
    exact State.paddingZero_of_aligned rfl
  | releaseReset =>
    cases hx
    exact h.congr rfl rfl rfl

end

/-- Settles O33: a command keeps the padding 0, and so does the first input; an empty list is the engine's turn. -/
theorem commandsKeepPaddingZero : Obligations.CommandsKeepPaddingZero := by
  refine ⟨fun w s t => performWord_paddingZero, fun s t h hwin hx => ?_⟩
  cases hin : s.env.inputs with
  | nil => exact engineTurn_paddingZero h (step_nil hin ▸ hx)
  | cons x l =>
    rw [step_cons hin] at hx
    refine takeInput_paddingZero (s := s.withInputs l) (h.congr rfl rfl rfl) ?_ hx
    rintro off width v rfl hb
    exact Nat.lt_of_not_le fun hle => hwin ⟨hb, off, width, v, l, hin, hle⟩

end Sys2Proof.Machine

/-! PROOF. The command words of the opcode map: decode and encode (O1, O2), and every word's selection (O3). -/

namespace Sys2Proof.Machine

/-! ## Decode and encode (30_encoding.md R90, R93) -/

/-- Every command's word has a row of the opcode map, and no row before it matches. -/
theorem decode_encode (i : Instr) : decode (encode i) = .ok i := by cases i <;> rfl

/-- Settles O2: the encoding of a command is the one word that its row of the opcode map matches. -/
theorem decodeAgreesWithEncode : Obligations.DecodeAgreesWithEncode :=
  ⟨fun i _ => decode_encode i, fun _ _ => eq_encode_of_decode⟩

/-- Settles O1: each of the words is the encoding of its command. -/
theorem opcodeMapDecodes : Obligations.OpcodeMapDecodes :=
  ⟨decode_encode .nop, decode_encode .reset, decode_encode .freqClear, decode_encode .freqCount, decode_encode .freqSet,
    decode_encode .freqLookup, decode_encode .freqGet, decode_encode .treeBuild, decode_encode .nodeGet,
    decode_encode .codeGen, decode_encode .codeGet, decode_encode .encodeSymbol, decode_encode .decodeSymbol,
    decode_encode .streamReset, decode_encode .putBits, decode_encode .getBits, decode_encode .setBitlen,
    decode_encode .seekRd⟩

/-! ## Legal and illegal words (30_encoding.md R92) -/

/-- The assigned opcodes are those of the commands of the opcode map. -/
theorem assignedOpcodes_eq : assignedOpcodes = opcodeRows.map (fun r => r.instr.opcode) := by decide

/-- A word is its two fields, RSV above OP. -/
theorem rsvField_append_opField (w : Word) : rsvField w ++ opField w = w := by
  rw [rsvField, opField, BitVec.extractLsb'_append_extractLsb'_eq_extractLsb' (by decide)]
  exact BitVec.extractLsb'_eq_self

/-- The legal words are the encodings of the commands (30_encoding.md R93). -/
theorem wfCommandWord_iff (w : Word) : wfCommandWord w = true ↔ ∃ i, w = encode i := by
  constructor
  · intro h
    obtain ⟨hrsv, hop⟩ : rsvField w = 0#24 ∧ opField w ∈ assignedOpcodes := by
      simpa [wfCommandWord, rsvField, opField] using h
    rw [assignedOpcodes_eq] at hop
    obtain ⟨r, -, hr⟩ := List.mem_map.mp hop
    exact ⟨r.instr, by rw [encode, hr, ← hrsv, rsvField_append_opField]⟩
  · rintro ⟨i, rfl⟩
    cases i <;> rfl

/-- Settles O3: a legal word is the encoding of a command, and any other word decodes to none. -/
theorem everyWordIsOneCommandOrIllegal : Obligations.EveryWordIsOneCommandOrIllegal := by
  refine ⟨fun w hw => ?_, fun w s hw he => ?_⟩
  · obtain ⟨i, rfl⟩ := (wfCommandWord_iff w).mp hw
    exact ⟨i, decode_encode i, performWord_ok (decode_encode i)⟩
  · cases hd : decode w with
    | ok i =>
      have hlegal := (wfCommandWord_iff w).mpr ⟨i, eq_encode_of_decode hd⟩
      rw [hw] at hlegal
      cases hlegal
    | error e =>
      rw [performWord_error hd, execIllegal_eq, he]
      rfl

end Sys2Proof.Machine

/-! PROOF. Host statements on every schedule (O54): command statements, the ends of WAIT and DECODEALL, and every
statement as a run of steps. -/

namespace Sys2Proof.Machine

/-! ## The parts of a statement -/

theorem runAll_singleton (b : BusStmt) (s : State) (sched : Schedule) : runAll [b] s sched = b.run s sched := by
  rw [runAll]
  cases b.run s sched <;> rfl

theorem runAll_append (l l' : List BusStmt) (s : State) (sched : Schedule) :
    runAll (l ++ l') s sched = (runAll l s sched).andThen (runAll l') := by
  induction l generalizing s sched with
  | nil => rfl
  | cons b l ih =>
    rw [List.cons_append, runAll, runAll]
    cases b.run s sched with
    | complete t rest => exact ih t rest
    | unfinished t => rfl
    | fault f => rfl
    | refused r => rfl

theorem busOp_of_turn {turn : Bool} {x : Input} {s t : State}
    (h : (if turn then engineTurn s else .next s) = .next t) : busOp turn x s = takeInput t x := by
  rw [busOp, h]

theorem State.pending_of_idle {s : State} (hb : s.busy = false) : s.pending = none := by
  simpa [State.busy] using hb

/-! ## Writes on an idle block (30_encoding.md R97) -/

section

variable {s : State} (hb : s.busy = false) (hr : s.resetHeld = false)
include hb hr

/-- `WR` on an idle block is the write, whether or not the engine has its turn first. -/
theorem issue_writeReg_idle (r : Reg) (v : Word) (turn : Bool) (rest : Schedule) :
    issue (busWrite r.offset v) s (turn :: rest) = .complete (s.writeReg v r) rest := by
  apply issue_of_busOp
  rw [busOp_idle turn _ (State.pending_of_idle hb), takeInput_writeReg r v hr, State.hostWrite_idle _ _ hb]
  rfl

/-- The write of an operand takes one entry of the schedule, and an absent operand none. -/
theorem runAll_operandWrite (r : Reg) (a : Option Word) {pre : Schedule} (hpre : pre.length = a.toList.length)
    (sched : Schedule) :
    runAll (operandWrite r a) s (pre ++ sched) = .complete (a.elim s (fun v => s.writeReg v r)) sched := by
  cases a with
  | none =>
    rw [List.length_eq_zero_iff.mp hpre]
    rfl
  | some v =>
    obtain ⟨turn, rfl⟩ := List.length_eq_one_iff.mp hpre
    simp only [operandWrite, runAll, BusStmt.run, List.singleton_append, issue_writeReg_idle hb hr,
      HostEnd.andThen_complete, Option.elim]

end

theorem exists_append_of_length {l : Schedule} {m n : Nat} (h : l.length = m + n) :
    ∃ l1 l2, l = l1 ++ l2 ∧ l1.length = m ∧ l2.length = n :=
  ⟨l.take m, l.drop m, (List.take_append_drop m l).symm, by simp [h], by simp [h]⟩

/-- The state with the operands of a command statement written (30_encoding.md R98). -/
def State.withOperands (s : State) (a b : Option Word) : State :=
  { s with arg0 := a.getD s.arg0, arg1 := b.getD s.arg1 }

/-- Operands and then CMD: on an idle block the writes of a command statement accept the command on those operands, and
its WAIT follows (10_state.md R41). -/
theorem cmd_run_eq_waitRun (i : Instr) (a b : Option Word) {s : State} {pre : Schedule} (hb : s.busy = false)
    (hr : s.resetHeld = false) (hpre : pre.length = a.toList.length + b.toList.length + 1) (sched : Schedule) :
    (HostStmt.cmd i a b).run s (pre ++ sched) = waitRun ((s.withOperands a b).acceptCommand (encode i)) sched := by
  obtain ⟨preA, rest, rfl, hA, hrest⟩ := exists_append_of_length (hpre.trans (Nat.add_assoc _ _ _))
  obtain ⟨preB, last, rfl, hB, hlast⟩ := exists_append_of_length hrest
  obtain ⟨turn, rfl⟩ := List.length_eq_one_iff.mp hlast
  have ha : a.elim s (fun v => s.writeReg v .arg0) = s.withOperands a none := by cases a <;> rfl
  have hab : b.elim (s.withOperands a none) (fun v => (s.withOperands a none).writeReg v .arg1) =
      s.withOperands a b := by
    cases b <;> rfl
  rw [HostStmt.run, commandStmts, runAll_append, runAll_append, List.append_assoc, runAll_operandWrite hb hr .arg0 a hA,
    HostEnd.andThen_complete, ha, List.append_assoc,
    runAll_operandWrite (s := s.withOperands a none) hb hr .arg1 b hB, HostEnd.andThen_complete, hab, runAll,
    BusStmt.run, List.singleton_append, issue_writeReg_idle (s := s.withOperands a b) hb hr]
  exact runAll_singleton .wait _ _

/-! ## The WAIT of a command statement -/

/-- One round of a WAIT: the engine's turn, if it is scheduled, and a read of STATUS, which goes on while BUSY = 1. -/
theorem waitRun_cons {s t : State} {turn : Bool} (h : (if turn then engineTurn s else .next s) = .next t)
    (hr : t.resetHeld = false) (rest : Schedule) :
    waitRun s (turn :: rest) =
      if t.busy then waitRun (t.replyWith t.statusWord) rest else .complete (t.replyWith t.statusWord) rest := by
  have hread : busOp turn (busRead Reg.status.offset) s = .next (t.replyWith t.statusWord) := by
    have hget := takeInput_readReg .status hr
    rw [busOp_of_turn h, hget, takeInput_readStatus hget]
  have hbit : (t.replyWith t.statusWord).lastReply.getLsbD 0 = t.busy := State.getLsbD_statusWord t 0
  rw [waitRun, hread]
  simp only [hbit]

/-- Reads of STATUS while the engine has no turn return BUSY = 1, and the WAIT goes on. -/
theorem waitRun_busy {s : State} (hb : s.busy = true) (hr : s.resetHeld = false) (k : Nat) (sched : Schedule) :
    waitRun s (List.replicate k false ++ sched) =
      waitRun { s with env := { s.env with reply := if k = 0 then s.env.reply else some s.statusWord } } sched := by
  induction k generalizing s with
  | zero => rfl
  | succ k ih =>
    rw [List.replicate_succ, List.cons_append, waitRun_cons (turn := false) rfl hr, if_pos hb,
      ih (s := s.replyWith s.statusWord) hb hr, if_neg (Nat.succ_ne_zero k)]
    congr 1
    split <;> rfl

/-- What a command statement has made of an idle block after its writes and k reads of STATUS, the engine's turn still
to come: the command is pending on its operands, and the last reply is the STATUS of a busy block. -/
def State.afterBusyReads (s : State) (i : Instr) (a b : Option Word) (k : Nat) : State :=
  { s with
    arg0 := a.getD s.arg0, arg1 := b.getD s.arg1, pending := some (encode i),
    status := { s.status with done := false },
    env := { s.env with reply := if k = 0 then s.env.reply else some (s.acceptCommand (encode i)).statusWord } }

theorem cmd_run_busy (i : Instr) (a b : Option Word) {s : State} {pre : Schedule} (k : Nat) (hb : s.busy = false)
    (hr : s.resetHeld = false) (hpre : pre.length = a.toList.length + b.toList.length + 1) (sched : Schedule) :
    (HostStmt.cmd i a b).run s (pre ++ List.replicate k false ++ sched) = waitRun (s.afterBusyReads i a b k) sched := by
  rw [List.append_assoc, cmd_run_eq_waitRun i a b hb hr hpre,
    waitRun_busy (s := (s.withOperands a b).acceptCommand (encode i)) rfl hr]
  rfl

/-- Every command has an answer that leaves the block idle, and the held reset as it was (10_state.md R40). -/
theorem exec_idle (i : Instr) (s : State) :
    ∃ t, exec i s = .next t ∧ t.busy = false ∧ t.resetHeld = s.resetHeld := by
  obtain ⟨t, ht, hb, -⟩ := everyCommandEndsNotBusyAndDone (encode i) s
  exact ⟨t, (performWord_ok (decode_encode i) s).symm.trans ht, hb, (performWord_outside ht).2.1⟩

/-! ## The end of DECODEALL (30_encoding.md R98) -/

/-- A completed command statement ends with its WAIT: the block is idle, and the last reply is STATUS. -/
theorem commandStmts_eq_complete {i : Instr} {a b : Option Word} {s t : State} {sched rest : Schedule}
    (h : runAll (commandStmts i a b) s sched = .complete t rest) :
    t.busy = false ∧ t.env.reply = some t.statusWord := by
  rw [commandStmts, runAll_append] at h
  obtain ⟨u, sched1, -, h⟩ := HostEnd.andThen_eq_complete h
  obtain ⟨v, sched2, -, h⟩ := HostEnd.andThen_eq_complete h
  rw [runAll_singleton] at h
  exact waitRun_eq_complete h

/-- A completed DECODEALL has read RES2 last, and either it is 1 or the STATUS read before it shows ERR = 1. -/
theorem decodeAllRun_eq_complete {rounds : Nat} {s t : State} {sched rest : Schedule}
    (h : decodeAllRun rounds s sched = .complete t rest) :
    t.env.reply = some t.res2 ∧ (t.res2 = 1#32 ∨ t.status.err = true) := by
  induction rounds generalizing s sched with
  | zero => cases h
  | succ rounds ih =>
    obtain ⟨u, sched1, hcmd, h⟩ := HostEnd.andThen_eq_complete h
    obtain ⟨v, sched2, hread, h⟩ := HostEnd.andThen_eq_complete h
    obtain ⟨hidle, hstatus⟩ := commandStmts_eq_complete hcmd
    obtain ⟨turn, -, hread⟩ := issue_eq_complete hread
    rw [busOp_idle turn _ (State.pending_of_idle hidle)] at hread
    obtain ⟨-, -, hv⟩ := hostAccess_eq_next hread
    rw [portTarget_offset, State.hostRead_idle _ hidle] at hv
    subst hv
    split at h
    · rename_i hend
      cases h
      refine ⟨rfl, (Bool.or_eq_true _ _ ▸ hend).imp (fun h => beq_iff_eq.mp h) (fun h => ?_)⟩
      rwa [State.lastReply, hstatus, Option.getD_some, State.getLsbD_statusWord] at h
    · exact ih h

/-! ## A statement as a run of steps -/

/-- The machine comes from `s` to `t` in steps whose inputs are engine's turns and host accesses, whatever the inputs
after them. -/
def Reaches (s t : State) : Prop :=
  ∃ ops : List Input, (∀ x ∈ ops, x ≠ .assertReset ∧ x ≠ .releaseReset) ∧
    ∀ l, steps ops.length (s.withInputs (ops ++ l)) = .next (t.withInputs l)

theorem Reaches.refl (s : State) : Reaches s s := ⟨[], by simp, fun _ => rfl⟩

theorem Reaches.trans {s t u : State} (h : Reaches s t) (h' : Reaches t u) : Reaches s u := by
  obtain ⟨ops, hops, hst⟩ := h
  obtain ⟨ops', hops', htu⟩ := h'
  refine ⟨ops ++ ops', fun x hx => (List.mem_append.mp hx).elim (hops x) (hops' x), fun l => ?_⟩
  rw [List.length_append, List.append_assoc, steps_add (hst (ops' ++ l)), htu]

theorem Reaches.of_takeInput {s t : State} {x : Input} (hx : x ≠ .assertReset ∧ x ≠ .releaseReset)
    (h : takeInput s x = .next t) : Reaches s t := by
  refine ⟨[x], by simpa using hx, fun l => ?_⟩
  rw [List.length_singleton, List.singleton_append, steps, step_cons (x := x) (l := l) rfl, withInputs_withInputs,
    takeInput_withInputs h]
  rfl

theorem Reaches.of_busOp {s t : State} {turn : Bool} {x : Input} (hx : x ≠ .assertReset ∧ x ≠ .releaseReset)
    (h : busOp turn x s = .next t) : Reaches s t := by
  obtain ⟨u, hu, ht⟩ := busOp_eq_next h
  refine Reaches.trans ?_ (.of_takeInput hx ht)
  cases turn with
  | false =>
    cases hu
    exact .refl s
  | true => exact .of_takeInput (x := .engine) ⟨nofun, nofun⟩ hu

theorem busWrite_ne_reset (off : Nat) (v : Word) :
    busWrite off v ≠ .assertReset ∧ busWrite off v ≠ .releaseReset := by
  simp [busWrite]

theorem busRead_ne_reset (off : Nat) : busRead off ≠ .assertReset ∧ busRead off ≠ .releaseReset := by
  simp [busRead]

/-- A part of a host program whose completion is a run of steps. -/
def IsRun (part : State → Schedule → HostEnd) : Prop :=
  ∀ s t sched rest, part s sched = .complete t rest → Reaches s t

theorem IsRun.andThen {part next : State → Schedule → HostEnd} (h : IsRun part) (h' : IsRun next) :
    IsRun (fun s sched => (part s sched).andThen next) := by
  intro s t sched rest hx
  obtain ⟨u, sched', hu, ht⟩ := HostEnd.andThen_eq_complete hx
  exact (h _ _ _ _ hu).trans (h' _ _ _ _ ht)

theorem isRun_issue {x : Input} (hx : x ≠ .assertReset ∧ x ≠ .releaseReset) : IsRun (issue x) := by
  intro s t sched rest h
  obtain ⟨turn, -, hop⟩ := issue_eq_complete h
  exact .of_busOp hx hop

theorem isRun_waitRun : IsRun waitRun := by
  intro s t sched rest h
  induction sched generalizing s with
  | nil => cases h
  | cons turn l ih =>
    unfold waitRun at h
    split at h
    · rename_i u hu
      have hsu : Reaches s u := .of_busOp (busRead_ne_reset _) hu
      split at h
      · exact hsu.trans (ih _ h)
      · cases h
        exact hsu
    · cases h
    · cases h

theorem isRun_busStmt (b : BusStmt) : IsRun b.run := by
  cases b with
  | wr r v => exact isRun_issue (busWrite_ne_reset _ _)
  | rd r => exact isRun_issue (busRead_ne_reset _)
  | wrw k v => exact isRun_issue (busWrite_ne_reset _ _)
  | rdw k => exact isRun_issue (busRead_ne_reset _)
  | wait => exact isRun_waitRun

theorem isRun_runAll (l : List BusStmt) : IsRun (runAll l) := by
  induction l with
  | nil =>
    intro s t sched rest h
    cases h
    exact .refl s
  | cons b l ih => exact (isRun_busStmt b).andThen ih

theorem isRun_decodeAllRun (rounds : Nat) : IsRun (decodeAllRun rounds) := by
  induction rounds with
  | zero => exact fun _ _ _ _ h => nomatch h
  | succ rounds ih =>
    intro s t sched rest h
    obtain ⟨u, sched1, hcmd, h⟩ := HostEnd.andThen_eq_complete h
    obtain ⟨v, sched2, hread, h⟩ := HostEnd.andThen_eq_complete h
    have hsv := (isRun_runAll _ _ _ _ _ hcmd).trans (isRun_issue (busRead_ne_reset _) _ _ _ _ hread)
    split at h
    · cases h
      exact hsv
    · exact hsv.trans (ih _ _ _ _ h)

theorem isRun_hostStmt (b : HostStmt) : IsRun b.run := by
  cases b with
  | bus b => exact isRun_busStmt b
  | cmd i a b => exact isRun_runAll _
  | clrErr => exact isRun_busStmt (.wr .status 0x00000004#32)
  | count text => exact isRun_runAll _
  | encode text => exact isRun_runAll _
  | decodeAll => exact fun s t sched rest h => isRun_decodeAllRun sched.length s t sched rest h

/-- Settles O54: a command statement is its writes and a WAIT that the engine's turn ends; a WAIT ends on BUSY = 0, a
DECODEALL on RES2 or ERR; and every part of a statement is a run of steps. -/
theorem commandStatementPerformsCommand : Obligations.CommandStatementPerformsCommand := by
  refine ⟨fun i a b s pre k hb hr hpre => ⟨?_, ?_⟩, fun _ _ _ _ => waitRun_eq_complete,
    fun _ _ _ _ => decodeAllRun_eq_complete, fun b => isRun_hostStmt b⟩
  · obtain ⟨t, ht, hidle, hheld⟩ := exec_idle i (s.afterBusyReads i a b k)
    refine ⟨t, hidle, ht, fun rest => ?_⟩
    rw [cmd_run_busy i a b k hb hr hpre]
    have hturn : engineTurn (s.afterBusyReads i a b k) = .next t :=
      (engineTurn_pending rfl).trans ((performWord_ok (decode_encode i) _).trans ht)
    rw [waitRun_cons (s := s.afterBusyReads i a b k) (turn := true) hturn (hheld.trans hr), hidle]
    rfl
  · refine ⟨s.afterBusyReads i a b k, ?_, rfl⟩
    rw [← List.append_nil (pre ++ List.replicate k false), cmd_run_busy i a b k hb hr hpre]
    rfl

end Sys2Proof.Machine

/-! PROOF. The control commands NOP and RESET (O7, O8), and the words that have their opcodes under reserved bits. -/

namespace Sys2Proof.Machine

/-- A word with a reserved bit set is rejected, or fails with ILLEGAL_COMMAND, whatever its opcode field
(30_encoding.md R92, R94). -/
theorem performWord_of_rsvField_ne {w : Word} (h : rsvField w ≠ 0#24) (s : State) :
    performWord w s = .next (if s.status.err then s.rejected else s.failed (opField w) 0x10#8 w 0#32) := by
  have hd : decode w = .error .reservedBits := if_neg h
  rw [performWord_error hd, execIllegal_eq]

/-- Settles O7: NOP's rule returns the state it is given, and the word 0x00000100 has a reserved bit set. -/
theorem nopClearsResultsOnly : Obligations.NopClearsResultsOnly := by
  have hnop : Instr.nop ≠ .reset := nofun
  refine ⟨rfl, fun s => ⟨fun he => exec_ok hnop he rfl, fun he => exec_rejected hnop he, fun he => ?_⟩⟩
  rw [performWord_of_rsvField_ne (by decide), he]
  rfl

/-- Settles O8: RESET has one answer, a soft reset and the end of the command, and the word 0x00000101 has a reserved bit
set. -/
theorem resetCommandRestoresAllButPbuf : Obligations.ResetCommandRestoresAllButPbuf := by
  refine ⟨rfl, fun s => ⟨⟨_, exec_reset s, rfl, rfl⟩, fun he => ?_, fun he => ?_, fun _ => ⟨s.hardReset, rfl, rfl, rfl⟩⟩⟩
  · rw [performWord_of_rsvField_ne (by decide), he]
    rfl
  · rw [performWord_of_rsvField_ne (by decide), he]
    rfl

end Sys2Proof.Machine

/-! PROOF. The frequency table's commands (O9 to O13): the scalar check, what counting an entry answers, and the ends of
each command. -/

namespace Sys2Proof.Machine

/-! ## The scalar check (41_frequency.md R125) -/

theorem scalarCheck_passes {v : Word} (h : ScalarValue v) : ¬ (!isScalar v) = true := by
  simpa using (isScalar_iff v).mpr h

theorem scalarCheck_raises {v : Word} (h : ¬ ScalarValue v) : (!isScalar v) = true := by
  simpa [← isScalar_iff] using h

/-! ## Counting an entry (41_frequency.md R121) -/

/-- Counting an entry replaces it by itself with one more in its count. -/
theorem countUp_eq_set {ft : List FreqEntry} {i : Nat} {e : FreqEntry} (h : ft[i]? = some e) :
    countUp ft i = ft.set i { e with count := e.count + 1#32 } := by
  simp [countUp, List.modify_eq_set_getElem?, h]

/-- The success of FREQ_COUNT returns the entry's new count, its index and the new TOTAL. -/
theorem State.countEntry_eq (s : State) {ft : List FreqEntry} {i : Nat} {e : FreqEntry} (h : ft[i]? = some e) :
    s.countEntry ft i =
      .ok (State.invalidate { s with ft := countUp ft i, total := s.total + 1#32 })
        (e.count + 1#32) (word i) (s.total + 1#32) := by
  have hcounted : (countUp ft i)[i]? = some { e with count := e.count + 1#32 } := by
    rw [countUp_eq_set h, List.getElem?_set_self (List.getElem?_eq_some_iff.mp h).1]
  simp only [State.countEntry, State.entryAt, State.invalidate_ft, State.invalidate_total, hcounted, Option.getD_some]

/-- In a table that satisfies its invariant no count wraps while TOTAL does not (10_state.md R30). -/
theorem State.TableOk.toNat_add_one {s : State} {i : Nat} {e : FreqEntry} (h : s.TableOk) (he : s.ft[i]? = some e)
    (htotal : s.total ≠ all1) :
    (e.count + 1#32).toNat = e.count.toNat + 1 ∧ (s.total + 1#32).toNat = s.total.toNat + 1 := by
  obtain ⟨-, -, -, hsum⟩ := h
  have hmax := toNat_add_one_lt htotal
  have hle := count_le_countSum he
  simp only [BitVec.toNat_add, BitVec.toNat_ofNat]
  omega

/-! ## The commands -/

/-- Settles O9: FREQ_CLEAR makes no check. -/
theorem freqClearEmptiesTable : Obligations.FreqClearEmptiesTable :=
  ⟨rfl, fun _ he => exec_ok (i := .freqClear) nofun he rfl⟩

/-- Settles O10: each clause decides the rule's three checks in order; a success counts an entry of the table, which for
a new symbol is the entry that has just been appended with the count 0. -/
theorem freqCountCountsOneSymbol : Obligations.FreqCountCountsOneSymbol := by
  have hcmd : Instr.freqCount ≠ .reset := nofun
  refine ⟨rfl, fun s he => ⟨fun hv => ?_, fun hv ha hfull => ?_, fun hv hroom htotal => ?_,
    fun i e hv hentry htotal => ⟨?_, fun htable => htable.toNat_add_one hentry.1 htotal⟩,
    fun hv ha hroom htotal => ?_⟩⟩
  · exact exec_raise (e := .invalidSymbol) hcmd he (if_pos (scalarCheck_raises hv))
  · exact exec_raise (e := .tableFull) hcmd he
      ((if_neg (scalarCheck_passes hv)).trans (if_pos ⟨findSymbol_absent ha, hfull⟩))
  · have hcheck : ¬ (s.findSymbol s.arg0 = none ∧ s.ft.length = s.cfg.symCap) :=
      fun ⟨hnone, hfull⟩ => hroom ⟨absent_of_findSymbol hnone, hfull⟩
    exact exec_raise (e := .countOverflow) hcmd he
      ((if_neg (scalarCheck_passes hv)).trans ((if_neg hcheck).trans (if_pos htotal)))
  · refine exec_ok hcmd he ?_
    simp only [ruleOf, freqCountRule, if_neg (scalarCheck_passes hv), findSymbol_entry hentry, reduceCtorEq, false_and,
      if_false, if_neg htotal]
    rw [s.countEntry_eq hentry.1, countUp_eq_set hentry.1]
    rfl
  · have hlast : (s.ft ++ [newEntry s.arg0 0#32])[s.ft.length]? = some (newEntry s.arg0 0#32) :=
      List.getElem?_concat_length
    refine exec_ok hcmd he ?_
    simp only [ruleOf, freqCountRule, if_neg (scalarCheck_passes hv), findSymbol_absent ha, true_and, if_neg hroom,
      if_neg htotal]
    rw [s.countEntry_eq hlast, countUp_append_newEntry]
    rfl

/-- Settles O11: each clause decides the rule's four checks in order; where the last one passes, TOTAL + c is a 32-bit
number. -/
theorem freqSetInsertsOneEntry : Obligations.FreqSetInsertsOneEntry := by
  have hcmd : Instr.freqSet ≠ .reset := nofun
  refine ⟨rfl, fun s he => ⟨fun hv => ?_, fun i e hv hentry => ?_, fun hv ha hfull => ?_,
    fun hv ha hroom hover => ?_,
    fun hv ha hroom hfits => ⟨s.total + s.arg1, BitVec.toNat_add_of_lt hfits, ?_⟩⟩⟩
  · exact exec_raise (e := .invalidSymbol) hcmd he (if_pos (scalarCheck_raises hv))
  · exact exec_raise (e := .duplicateSymbol) hcmd he (by
      simp only [ruleOf, freqSetRule, if_neg (scalarCheck_passes hv), findSymbol_entry hentry])
  · exact exec_raise (e := .tableFull) hcmd he (by
      simp only [ruleOf, freqSetRule, if_neg (scalarCheck_passes hv), findSymbol_absent ha, if_pos hfull])
  · have hcheck : s.total.toNat + s.arg1.toNat > 0xFFFFFFFF := hover
    exact exec_raise (e := .countOverflow) hcmd he (by
      simp only [ruleOf, freqSetRule, if_neg (scalarCheck_passes hv), findSymbol_absent ha, if_neg hroom,
        if_pos hcheck])
  · have hcheck : ¬ s.total.toNat + s.arg1.toNat > 0xFFFFFFFF := by omega
    refine exec_ok hcmd he ?_
    simp only [ruleOf, freqSetRule, if_neg (scalarCheck_passes hv), findSymbol_absent ha, if_neg hroom, if_neg hcheck]
    rfl

/-- Settles O12: FREQ_LOOKUP makes no check and answers what Find answers. -/
theorem freqLookupReportsPresence : Obligations.FreqLookupReportsPresence := by
  have hcmd : Instr.freqLookup ≠ .reset := nofun
  refine ⟨rfl, fun s he => ⟨fun i e hentry => exec_ok hcmd he ?_, fun ha => exec_ok hcmd he ?_⟩⟩
  · simp only [ruleOf, freqLookupRule, findSymbol_entry hentry, State.entryAt_of hentry.1]
  · simp only [ruleOf, freqLookupRule, findSymbol_absent ha]

/-- Settles O13: the rule raises on an index from NSYM on, and reads the entry below it. -/
theorem freqGetReadsEntry : Obligations.FreqGetReadsEntry := by
  have hcmd : Instr.freqGet ≠ .reset := nofun
  refine ⟨rfl, fun s he => ⟨fun hge => exec_raise (e := .badIndex) hcmd he (if_pos hge), fun hlt => exec_ok hcmd he ?_⟩⟩
  simp only [ruleOf, freqGetRule, if_neg (Nat.not_le.mpr hlt), State.entryAt_of (List.getElem?_eq_getElem hlt)]

end Sys2Proof.Machine

/-! PROOF. The tree builder's commands (O14, O15), and the arena as a function of the set of entries (O17). -/

namespace Sys2Proof.Machine

/-! ## The arena of a table (42_tree.md R141, R142) -/

/-- The arena of a table that is not empty comes of the merge of its leaves. -/
theorem merges_buildArena {ft : List FreqEntry} (h : ft ≠ []) :
    Merges (leavesOf ft) (List.range ft.length) (buildArena ft) :=
  mergeLoop_merges _ _ _ (by simpa using h) (by simp)

/-- The arena begins with the leaves. -/
theorem take_buildArena (ft : List FreqEntry) : (buildArena ft).take ft.length = leavesOf ft := by
  have hprefix : leavesOf ft <+: buildArena ft := mergeLoop_prefix _ _ _
  rw [← leavesOf_length ft]
  exact (List.prefix_iff_eq_take.mp hprefix).symm

/-- Settles O17: the arena is a function of the sorted table, and its first NSYM nodes are the leaves. -/
theorem arenaIgnoresInsertionOrder : Obligations.ArenaIgnoresInsertionOrder := by
  intro ft ft' hu hp
  refine ⟨?_, ?_⟩
  · simp only [buildArena, leavesOf, sortBySym_unique hu hp, hp.length_eq]
  · rw [take_buildArena]
    exact (sortBySym_perm ft).map _

/-! ## The check of the tree (42_tree.md R143) -/

theorem treeCheck_passes {s : State} (h : s.status.treeValid = true) : ¬ (!s.status.treeValid) = true := by simp [h]

theorem treeCheck_raises {s : State} (h : s.status.treeValid = false) : (!s.status.treeValid) = true := by simp [h]

/-! ## The commands -/

/-- Settles O14: the table's check decides the end, and a success makes the arena of the table. -/
theorem treeBuildMergesLeastPairs : Obligations.TreeBuildMergesLeastPairs := by
  have hcmd : Instr.treeBuild ≠ .reset := nofun
  refine ⟨rfl, fun s he => ⟨fun hempty => ?_, fun hne => ?_⟩⟩
  · exact exec_raise (e := .emptyAlphabet) hcmd he (if_pos (List.length_eq_zero_iff.mpr hempty))
  · exact ⟨sortBySym s.ft, buildArena s.ft, sortBySym_perm s.ft, sortBySym_sorted s.ft, merges_buildArena hne,
      buildArena_length hne, exec_ok hcmd he (if_neg (mt List.length_eq_zero_iff.mp hne))⟩

/-- Settles O15: each clause decides the rule's two checks in order; a node of the arena passes both, and its kind gives
the results. -/
theorem nodeGetReadsNode : Obligations.NodeGetReadsNode := by
  have hcmd : Instr.nodeGet ≠ .reset := nofun
  refine ⟨rfl, fun s he => ⟨fun hinvalid => ?_, fun hvalid hge => ?_, fun sym f hvalid hleaf => ?_,
    fun f l r hvalid hinternal => ?_⟩⟩
  · exact exec_raise (e := .treeNotValid) hcmd he (if_pos (treeCheck_raises hinvalid))
  · exact exec_raise (e := .badIndex) hcmd he ((if_neg (treeCheck_passes hvalid)).trans (if_pos hge))
  · obtain ⟨hlt, -⟩ := List.getElem?_eq_some_iff.mp hleaf
    refine exec_ok hcmd he ?_
    simp only [ruleOf, nodeGetRule, if_neg (treeCheck_passes hvalid), if_neg (Nat.not_le.mpr hlt), nodeAt_of hleaf]
  · obtain ⟨hlt, -⟩ := List.getElem?_eq_some_iff.mp hinternal
    refine exec_ok hcmd he ?_
    simp only [ruleOf, nodeGetRule, if_neg (treeCheck_passes hvalid), if_neg (Nat.not_le.mpr hlt), nodeAt_of hinternal]

end Sys2Proof.Machine

/-! PROOF. The code table (O18, O19, O20): the merge loop keeps every leaf below a collected node, so the arena has a
path from its root to every leaf; the codes are these paths. -/

namespace Sys2Proof.Machine

/-! ## Every leaf of the arena has a path from the root (42_tree.md R141; 43_codes.md R160) -/

/-- What holds, whatever the counts add up to, of an arena of n leaves and of the collection q between two rounds of the
merge: internal nodes come after the leaves and after their children, the newest node is collected, and every leaf is
below a collected node. `MergeOk` says more, but only of a table whose counts sum below 2^32. -/
structure MergeCovers (n : Nat) (nodes : List Node) (q : List Nat) : Prop where
  size : n ≤ nodes.length
  internals : ∀ j f l r, nodes[j]? = some (.internal f l r) → n ≤ j ∧ l < j ∧ r < j
  range : ∀ j ∈ q, j < nodes.length
  newest : nodes.length - 1 ∈ q
  covers : ∀ k, k < n → ∃ j ∈ q, ∃ c, IsPath nodes j k c

theorem IsPath.append_nodes {nodes : List Node} {j k : Nat} {c : Code} (h : IsPath nodes j k c) (l : List Node) :
    IsPath (nodes ++ l) j k c := by
  have keep {j : Nat} {x : Node} (hj : nodes[j]? = some x) : (nodes ++ l)[j]? = some x :=
    (List.getElem?_append_left (List.getElem?_eq_some_iff.mp hj).1).trans hj
  induction h with
  | here j => exact .here j
  | left j k f l r c hj _ ih => exact .left j k f l r c (keep hj) ih
  | right j k f l r c hj _ ih => exact .right j k f l r c (keep hj) ih

section

variable {n : Nat} {nodes : List Node}

theorem MergeCovers.perm {q q' : List Nat} (h : MergeCovers n nodes q) (hp : q.Perm q') : MergeCovers n nodes q' where
  size := h.size
  internals := h.internals
  range := fun j hj => h.range j (hp.mem_iff.mpr hj)
  newest := hp.mem_iff.mp h.newest
  covers := fun k hk => by
    obtain ⟨j, hj, hpath⟩ := h.covers k hk
    exact ⟨j, hp.mem_iff.mp hj, hpath⟩

/-- One round of the merge: a leaf below one of the two nodes that leave the collection is below their parent. -/
theorem MergeCovers.round {a b : Nat} {rest : List Nat} (h : MergeCovers n nodes (a :: b :: rest)) :
    MergeCovers n (nodes ++ [mergeNode nodes a b]) (nodes.length :: rest) where
  size := by
    have := h.size
    rw [List.length_append]
    omega
  internals := fun j f l r hj => by
    by_cases hold : j < nodes.length
    · exact h.internals j f l r ((List.getElem?_append_left hold).symm.trans hj)
    · have hlast : j = nodes.length := by
        have := (List.getElem?_eq_some_iff.mp hj).1
        rw [List.length_append, List.length_singleton] at this
        omega
      subst hlast
      rw [List.getElem?_concat_length] at hj
      cases hj
      exact ⟨h.size, h.range a (by simp), h.range b (by simp)⟩
  range := fun j hj => by
    rw [List.length_append, List.length_singleton]
    rcases List.mem_cons.mp hj with rfl | hj
    · omega
    · exact Nat.lt_succ_of_lt (h.range j (by simp [hj]))
  newest := by simp
  covers := fun k hk => by
    obtain ⟨j, hj, c, hpath⟩ := h.covers k hk
    have hpath := hpath.append_nodes [mergeNode nodes a b]
    have hnew : (nodes ++ [mergeNode nodes a b])[nodes.length]? = some (mergeNode nodes a b) :=
      List.getElem?_concat_length
    simp only [List.mem_cons] at hj
    obtain rfl | rfl | hj := hj
    · exact ⟨_, List.mem_cons_self, _, .left _ _ _ _ _ _ hnew hpath⟩
    · exact ⟨_, List.mem_cons_self, _, .right _ _ _ _ _ _ hnew hpath⟩
    · exact ⟨j, List.mem_cons_of_mem _ hj, c, hpath⟩

/-- A merge that starts well ends in an arena whose last node has every leaf below it. -/
theorem mergeCovers_of_merges {q : List Nat} {result : List Node} (h : MergeCovers n nodes q)
    (hm : Merges nodes q result) : MergeCovers n result [result.length - 1] := by
  induction hm with
  | finished nodes root =>
    have hlast : nodes.length - 1 = root := List.mem_singleton.mp h.newest
    rwa [hlast]
  | round nodes q q' a b result ha hb hq _ ih =>
    have hsplit : q.Perm (a :: b :: (q.erase a).erase b) :=
      (List.perm_cons_erase ha.1).trans ((List.perm_cons_erase hb.1).cons a)
    exact ih ((h.perm hsplit).round.perm hq.symm)

end

theorem leavesOf_getElem?_leaf {ft : List FreqEntry} {k : Nat} (hk : k < ft.length) :
    ∃ sym f, (leavesOf ft)[k]? = some (.leaf sym f) := by
  have hk' : k < (sortBySym ft).length := (sortBySym_perm ft).length_eq ▸ hk
  exact ⟨_, _, by rw [leavesOf, List.getElem?_map, List.getElem?_eq_getElem hk']; rfl⟩

/-- The leaves alone: each is below itself. -/
theorem mergeCovers_leavesOf {ft : List FreqEntry} (h : ft ≠ []) :
    MergeCovers ft.length (leavesOf ft) (List.range ft.length) where
  size := (leavesOf_length ft).ge
  internals := fun j f l r hj => by
    have hlt : j < ft.length := leavesOf_length ft ▸ (List.getElem?_eq_some_iff.mp hj).1
    obtain ⟨sym, g, hleaf⟩ := leavesOf_getElem?_leaf hlt
    rw [hj] at hleaf
    cases hleaf
  range := fun j hj => by
    rw [leavesOf_length]
    exact List.mem_range.mp hj
  newest := by
    have : 0 < ft.length := List.length_pos_iff.mpr h
    rw [leavesOf_length, List.mem_range]
    omega
  covers := fun k hk => ⟨k, List.mem_range.mpr hk, [], .here k⟩

theorem mergeCovers_buildArena {ft : List FreqEntry} (h : ft ≠ []) :
    MergeCovers ft.length (buildArena ft) [(buildArena ft).length - 1] :=
  mergeCovers_of_merges (mergeCovers_leavesOf h) (merges_buildArena h)

theorem buildArena_getElem?_leaf {ft : List FreqEntry} {k : Nat} (hk : k < ft.length) :
    ∃ sym f, (buildArena ft)[k]? = some (.leaf sym f) := by
  obtain ⟨sym, f, hleaf⟩ := leavesOf_getElem?_leaf hk
  rw [← take_buildArena, List.getElem?_take_of_lt hk] at hleaf
  exact ⟨sym, f, hleaf⟩

/-! ## The codes are the paths (43_codes.md R160, R161) -/

/-- A path descends through distinct internal nodes, which all come after the n leaves. -/
theorem MergeCovers.length_le {n : Nat} {nodes : List Node} {q : List Nat} (h : MergeCovers n nodes q) {j k : Nat}
    {c : Code} (hp : IsPath nodes j k c) : c.length ≤ j + 1 - n := by
  induction hp with
  | here j => exact Nat.zero_le _
  | left j k f l r c hj _ ih =>
    obtain ⟨hn, hl, -⟩ := h.internals j f l r hj
    rw [List.length_cons]
    omega
  | right j k f l r c hj _ ih =>
    obtain ⟨hn, -, hr⟩ := h.internals j f l r hj
    rw [List.length_cons]
    omega

section

variable {ft : List FreqEntry} (hne : ft ≠ [])
include hne

/-- The search for a leaf's path succeeds, and what it answers is a path. -/
theorem isPath_pathCode {k : Nat} (hk : k < ft.length) :
    IsPath (buildArena ft) ((buildArena ft).length - 1) k (pathCode (buildArena ft) k) := by
  have hcovers := mergeCovers_buildArena hne
  have hsize := hcovers.size
  obtain ⟨j, hj, c, hpath⟩ := hcovers.covers k hk
  rw [List.mem_singleton.mp hj] at hpath
  have hlen := hcovers.length_le hpath
  obtain ⟨found, hfound⟩ := pathFrom_complete hpath (buildArena ft).length (by omega)
  rw [pathCode, hfound, Option.getD_some]
  refine pathFrom_sound _ _ _ _ hfound (by omega) fun i f l r hi => ?_
  have hlt : i < (buildArena ft).length := (List.getElem?_eq_some_iff.mp hi).1
  obtain ⟨-, hl, hr⟩ := hcovers.internals i f l r hi
  exact ⟨hl.trans hlt, hr.trans hlt⟩

/-- The length of a path code: at least 1 because the root of more than one node is no leaf, and at most the number of
internal nodes. -/
theorem length_pathCode_bounds {k : Nat} (hk : k < ft.length) (hmany : (buildArena ft).length ≠ 1) :
    1 ≤ (pathCode (buildArena ft) k).length ∧ (pathCode (buildArena ft) k).length ≤ ft.length - 1 := by
  have hsize := buildArena_length hne
  have hpath := isPath_pathCode hne hk
  have hle := (mergeCovers_buildArena hne).length_le hpath
  refine ⟨List.length_pos_iff.mpr fun hnil => ?_, by omega⟩
  rw [hnil] at hpath
  generalize hroot : (buildArena ft).length - 1 = root at hpath
  cases hpath
  omega

/-- No leaf's path goes on through another leaf. -/
theorem pathCode_not_prefix {k k' : Nat} (hk : k < ft.length) (hk' : k' < ft.length) (hdiff : k ≠ k') :
    ¬ pathCode (buildArena ft) k <+: pathCode (buildArena ft) k' := by
  intro hprefix
  obtain ⟨sym, f, hleaf⟩ := buildArena_getElem?_leaf hk
  exact hdiff (IsPath.eq_of_prefix (isPath_pathCode hne hk) (isPath_pathCode hne hk') hleaf hprefix).1

theorem length_deriveCodes : (deriveCodes (buildArena ft) ft.length).length = ft.length := by
  have hsize := buildArena_length hne
  unfold deriveCodes
  split
  · rw [List.length_singleton]
    omega
  · rw [List.length_map, List.length_range]

end

/-! ## The commands -/

/-- Bit 31 - j of a code word is its bit j (43_codes.md R163). -/
theorem getLsbD_codeWord (c : Code) (w : Nat) {j : Nat} (hj : j < 32) :
    (codeWord c w).getLsbD (31 - j) = c.getD (32 * w + j) false := by
  have hlen : ((List.range 32).map fun i => c.getD (32 * w + i) false).length = 32 := by
    rw [List.length_map, List.length_range]
  have hbit : 32 - 1 - (31 - j) = j := by omega
  rw [codeWord, getLsbD_word_bitsToNat _ hlen.le, hlen, if_pos (by omega), hbit, List.getD_eq_getElem?_getD,
    List.getElem?_map, List.getElem?_range hj]
  rfl

theorem codesCheck_passes {s : State} (h : s.status.codesValid = true) : ¬ (!s.status.codesValid) = true := by simp [h]

theorem codesCheck_raises {s : State} (h : s.status.codesValid = false) : (!s.status.codesValid) = true := by simp [h]

/-- Settles O18: the tree's check decides the end; the codes of the table's tree are the paths the search answers. -/
theorem codeGenDerivesPaths : Obligations.CodeGenDerivesPaths := by
  have hcmd : Instr.codeGen ≠ .reset := nofun
  refine ⟨rfl, fun s he => ⟨fun hinvalid => ?_, fun hvalid htree => ?_⟩⟩
  · exact exec_raise (e := .treeNotValid) hcmd he (if_pos (treeCheck_raises hinvalid))
  · obtain ⟨hne, hnodes⟩ := htree.1 hvalid
    have hlen : (deriveCodes s.nodes s.ft.length).length = s.ft.length := hnodes ▸ length_deriveCodes hne
    have hcodes : deriveCodes s.nodes s.ft.length ≠ [] := by
      rwa [ne_eq, ← List.length_eq_zero_iff, hlen, List.length_eq_zero_iff]
    obtain ⟨hmax, hreached⟩ := longestCode_spec (deriveCodes s.nodes s.ft.length)
    refine ⟨_, _, hlen, fun hone => if_pos hone, fun hmany k hk => ?_, hmax, hreached hcodes,
      exec_ok hcmd he (if_neg (treeCheck_passes hvalid))⟩
    simp only [deriveCodes, if_neg hmany, List.getElem_map, List.getElem_range]
    rw [hnodes]
    exact isPath_pathCode hne (hlen ▸ hk)

/-- Settles O19: each clause decides the rule's two checks in order; the leaf found selects the code, and the code word
has its bits. -/
theorem codeGetReadsCodeWord : Obligations.CodeGetReadsCodeWord := by
  have hcmd : Instr.codeGet ≠ .reset := nofun
  refine ⟨rfl, fun s he => ⟨fun hinvalid => ?_, fun hvalid hno => ?_, fun k c hvalid hleaf hcode =>
    ⟨codeWord c s.arg1.toNat, fun j hj => getLsbD_codeWord c _ hj, ?_⟩⟩⟩
  · exact exec_raise (e := .codesNotValid) hcmd he (if_pos (codesCheck_raises hinvalid))
  · exact exec_raise (e := .unknownSymbol) hcmd he (by
      simp only [ruleOf, codeGetRule, if_neg (codesCheck_passes hvalid), leafOf_noLeaf hno])
  · refine exec_ok hcmd he ?_
    simp only [ruleOf, codeGetRule, if_neg (codesCheck_passes hvalid), leafOf_leafFor hleaf, State.codeAt_of hcode]

/-- Settles O20: the code of a single leaf is "0"; the codes of a larger tree are paths to different leaves. -/
theorem codesArePrefixFree : Obligations.CodesArePrefixFree := by
  intro ft hne
  refine ⟨length_deriveCodes hne, ?_⟩
  by_cases hone : (buildArena ft).length = 1
  · have hcodes : deriveCodes (buildArena ft) ft.length = [[false]] := if_pos hone
    simp [hcodes]
  · have hcodes : deriveCodes (buildArena ft) ft.length = (List.range ft.length).map (pathCode (buildArena ft)) :=
      if_neg hone
    rw [hcodes]
    refine ⟨fun c hc => ?_, List.pairwise_map.mpr (List.pairwise_lt_range.imp_of_mem fun hk hk' hlt => ?_)⟩
    · obtain ⟨k, hk, rfl⟩ := List.mem_map.mp hc
      obtain ⟨hpos, hle⟩ := length_pathCode_bounds hne (List.mem_range.mp hk) hone
      exact ⟨hpos, hle.trans (le_max_right _ _)⟩
    · have hk := List.mem_range.mp hk
      have hk' := List.mem_range.mp hk'
      exact ⟨pathCode_not_prefix hne hk hk' hlt.ne, pathCode_not_prefix hne hk' hk hlt.ne'⟩

end Sys2Proof.Machine

/-! PROOF. The symbol encoder and the tree-walk decoder (O21, O22, O23): what each rule answers, case by case. -/

namespace Sys2Proof.Machine

/-! ## ENCODE_SYMBOL (44_codec.md R181) -/

/-- ENCODE_SYMBOL's rule on a symbol that has a leaf: the check of the buffer, then the append. -/
theorem encodeSymbolRule_leaf {s : State} {k : Nat} (hvalid : s.status.codesValid = true)
    (hleaf : s.leafOf s.arg0 = some k) :
    encodeSymbolRule s =
      if s.bitlen + (s.codeAt k).length > s.cfg.capBits then
        .raise .bufferOverflow (word s.bitlen) (word (s.codeAt k).length)
      else
        .ok (s.streamAppendAll (s.codeAt k)) (word (s.codeAt k).length) (word (s.bitlen + (s.codeAt k).length))
          (word k) := by
  simp only [encodeSymbolRule, if_neg (codesCheck_passes hvalid), hleaf, State.streamAppendAll_bitlen]

/-- A success of ENCODE_SYMBOL's rule has appended the code of the symbol's leaf. -/
theorem encodeSymbolRule_ok {s t : State} {r0 r1 r2 : Word} (h : encodeSymbolRule s = .ok t r0 r1 r2) :
    s.status.codesValid = true ∧ ∃ k, s.leafOf s.arg0 = some k ∧ t = s.streamAppendAll (s.codeAt k) := by
  cases hvalid : s.status.codesValid with
  | false =>
    rw [encodeSymbolRule, if_pos (codesCheck_raises hvalid)] at h
    cases h
  | true =>
    cases hleaf : s.leafOf s.arg0 with
    | none =>
      simp only [encodeSymbolRule, if_neg (codesCheck_passes hvalid), hleaf] at h
      cases h
    | some k =>
      rw [encodeSymbolRule_leaf hvalid hleaf] at h
      split at h
      · cases h
      · cases h
        exact ⟨rfl, k, rfl, rfl⟩

/-- Settles O21: each clause decides the rule's three checks in order; the leaf found selects the code, and the rule
appends its bits. -/
theorem encodeSymbolAppendsCode : Obligations.EncodeSymbolAppendsCode := by
  have hcmd : Instr.encodeSymbol ≠ .reset := nofun
  refine ⟨rfl, fun s he => ⟨fun hinvalid => ?_, fun hvalid hno => ?_, fun k c hvalid hleaf hcode hfull => ?_,
    fun k c hvalid hleaf hcode hfits =>
      ⟨(s.streamAppendAll c).pbuf, appended_withPbuf_streamAppendAll s c, ?_⟩⟩⟩
  · exact exec_raise (e := .codesNotValid) hcmd he (if_pos (codesCheck_raises hinvalid))
  · exact exec_raise (e := .unknownSymbol) hcmd he (by
      simp only [ruleOf, encodeSymbolRule, if_neg (codesCheck_passes hvalid), leafOf_noLeaf hno])
  · have hrule := encodeSymbolRule_leaf hvalid (leafOf_leafFor hleaf)
    rw [State.codeAt_of hcode] at hrule
    exact exec_raise (e := .bufferOverflow) hcmd he (hrule.trans (if_pos hfull))
  · have hrule := encodeSymbolRule_leaf hvalid (leafOf_leafFor hleaf)
    rw [State.codeAt_of hcode] at hrule
    have hexec := exec_ok hcmd he (hrule.trans (if_neg (Nat.not_lt.mpr hfits)))
    rwa [State.streamAppendAll_frame] at hexec

/-! ## DECODE_SYMBOL (44_codec.md R185) -/

/-- What DECODE_SYMBOL answers at the end of its walk, as a function of that end. -/
def State.walkResult (s : State) : WalkEnd → CmdResult
  | .atLeaf sym p => .ok { s with rdptr := p } (zext32 sym) (word (p - s.rdptr)) 0#32
  | .exhausted p => .raise .truncatedStream (word s.rdptr) (word (p - s.rdptr))

section

variable {s : State}

theorem decodeSymbolRule_invalid (hinvalid : s.status.treeValid = false) :
    decodeSymbolRule s = .raise .treeNotValid 0#32 0#32 := if_pos (treeCheck_raises hinvalid)

section

variable (hvalid : s.status.treeValid = true)
include hvalid

theorem decodeSymbolRule_eos (heos : s.bitlen ≤ s.rdptr) : decodeSymbolRule s = .ok s 0#32 0#32 1#32 :=
  (if_neg (treeCheck_passes hvalid)).trans (if_pos heos)

theorem decodeSymbolRule_leaf {sym : Sym} {f : Word} (hlt : s.rdptr < s.bitlen)
    (hroot : nodeAt s.nodes (s.nodes.length - 1) = .leaf sym f) :
    decodeSymbolRule s =
      if s.streamBit s.rdptr then .raise .invalidCodeBit (word s.rdptr) 1#32
      else .ok { s with rdptr := s.rdptr + 1 } (zext32 sym) 1#32 0#32 := by
  simp only [decodeSymbolRule, if_neg (treeCheck_passes hvalid), if_neg (Nat.not_le.mpr hlt), hroot]

theorem decodeSymbolRule_internal {f : Word} {l r : Nat} (hlt : s.rdptr < s.bitlen)
    (hroot : nodeAt s.nodes (s.nodes.length - 1) = .internal f l r) :
    decodeSymbolRule s = s.walkResult (s.walk (s.bitlen - s.rdptr) l r s.rdptr) := by
  simp only [decodeSymbolRule, if_neg (treeCheck_passes hvalid), if_neg (Nat.not_le.mpr hlt), hroot]
  rfl

/-- The stream bits of the path to a leaf of a larger tree: the symbol of the leaf, and RDPTR past them. -/
theorem decodeSymbolRule_path {k : Nat} {c : Code} {sym : Sym} {f : Word} (hc : c ≠ [])
    (hend : s.rdptr + c.length ≤ s.bitlen) (hpath : IsPath s.nodes (s.nodes.length - 1) k c)
    (hleaf : s.nodes[k]? = some (.leaf sym f)) (hbits : s.StreamHas s.rdptr c) :
    decodeSymbolRule s = .ok { s with rdptr := s.rdptr + c.length } (zext32 sym) (word c.length) 0#32 := by
  have hpos := List.length_pos_iff.mpr hc
  obtain ⟨g, l, r, hroot⟩ := hpath.internal_of_ne_nil hc
  rw [decodeSymbolRule_internal hvalid (by omega) (nodeAt_of hroot),
    State.walk_atLeaf hleaf hroot hpath hc (by omega) hbits, State.walkResult, Nat.add_sub_cancel_left]

/-- A stream that ends on a path at an internal node of a larger tree: TRUNCATED_STREAM. -/
theorem decodeSymbolRule_truncated {k : Nat} {c : Code} {f : Word} {l r : Nat} (hc : c ≠ [])
    (hend : s.rdptr + c.length = s.bitlen) (hpath : IsPath s.nodes (s.nodes.length - 1) k c)
    (hinternal : s.nodes[k]? = some (.internal f l r)) (hbits : s.StreamHas s.rdptr c) :
    decodeSymbolRule s = .raise .truncatedStream (word s.rdptr) (word c.length) := by
  have hpos := List.length_pos_iff.mpr hc
  obtain ⟨g, l, r, hroot⟩ := hpath.internal_of_ne_nil hc
  rw [decodeSymbolRule_internal hvalid (by omega) (nodeAt_of hroot),
    State.walk_exhausted hinternal hroot hpath (by omega) hbits, State.walkResult, Nat.add_sub_cancel_left]

end

/-- DECODE_SYMBOL's rule does the same on another PBUF whose bits before BITLEN are the same. -/
theorem decodeSymbolRule_withPbuf {m : Memory}
    (hbits : ∀ p, p < s.bitlen → (s.withPbuf m).streamBit p = s.streamBit p) :
    decodeSymbolRule (s.withPbuf m) = (decodeSymbolRule s).map (·.withPbuf m) := by
  cases hvalid : s.status.treeValid with
  | false => rw [decodeSymbolRule_invalid hvalid, decodeSymbolRule_invalid (s := s.withPbuf m) hvalid]; rfl
  | true =>
    rcases Nat.lt_or_ge s.rdptr s.bitlen with hlt | heos
    · cases hroot : nodeAt s.nodes (s.nodes.length - 1) with
      | leaf sym f =>
        have hbit : (s.withPbuf m).streamBit (s.withPbuf m).rdptr = s.streamBit s.rdptr := hbits _ hlt
        rw [decodeSymbolRule_leaf hvalid hlt hroot, decodeSymbolRule_leaf (s := s.withPbuf m) hvalid hlt hroot, hbit]
        split <;> rfl
      | internal f l r =>
        have hwalk : (s.withPbuf m).walk (s.bitlen - s.rdptr) l r s.rdptr =
            s.walk (s.bitlen - s.rdptr) l r s.rdptr :=
          State.walk_congr (s := s) (t := s.withPbuf m) rfl (s.bitlen - s.rdptr) l r s.rdptr fun p _ hp =>
            hbits p (by omega)
        rw [decodeSymbolRule_internal hvalid hlt hroot, decodeSymbolRule_internal (s := s.withPbuf m) hvalid hlt hroot]
        refine (congrArg (s.withPbuf m).walkResult hwalk).trans ?_
        cases s.walk (s.bitlen - s.rdptr) l r s.rdptr <;> rfl
    · rw [decodeSymbolRule_eos hvalid heos, decodeSymbolRule_eos (s := s.withPbuf m) hvalid heos]; rfl

end

/-- Settles O22: each clause selects one end of the rule; on a larger tree the walk follows the path that the
stream holds. -/
theorem decodeSymbolWalksTree : Obligations.DecodeSymbolWalksTree := by
  have hcmd : Instr.decodeSymbol ≠ .reset := nofun
  refine ⟨rfl, fun s he => ⟨fun hinvalid => ?_, fun hvalid heos => ?_, fun sym f hvalid hlt hroot hbit => ?_,
    fun sym f hvalid hlt hroot hbit => ?_, fun k c sym f hvalid hc hend hpath hleaf hbits => ?_,
    fun k c f l r hvalid hc hend hpath hinternal hbits => ?_⟩⟩
  · exact exec_raise (e := .treeNotValid) hcmd he (decodeSymbolRule_invalid hinvalid)
  · exact exec_ok hcmd he (decodeSymbolRule_eos hvalid heos)
  · have hrule := decodeSymbolRule_leaf hvalid hlt (nodeAt_of hroot)
    exact exec_ok hcmd he (hrule.trans (if_neg (by simp [hbit])))
  · have hrule := decodeSymbolRule_leaf hvalid hlt (nodeAt_of hroot)
    exact exec_raise (e := .invalidCodeBit) hcmd he (hrule.trans (if_pos hbit))
  · exact exec_ok hcmd he (decodeSymbolRule_path hvalid hc hend hpath hleaf hbits)
  · exact exec_raise (e := .truncatedStream) hcmd he (decodeSymbolRule_truncated hvalid hc hend hpath hinternal hbits)

/-- Settles O23: the rule answers the same, and each of the three ends of a command keeps PBUF as the rule left it. -/
theorem decodeNeverReadsPastBitlen : Obligations.DecodeNeverReadsPastBitlen := by
  intro s t m hbits h
  have hcmd : Instr.decodeSymbol ≠ .reset := nofun
  have hrule : ruleOf .decodeSymbol (s.withPbuf m) = (ruleOf .decodeSymbol s).map (·.withPbuf m) :=
    decodeSymbolRule_withPbuf hbits
  obtain ⟨he, rfl⟩ | ⟨he, u, r0, r1, r2, hok, rfl⟩ | ⟨he, e, i0, i1, hraise, rfl⟩ := exec_cases hcmd h
  · exact exec_rejected (s := s.withPbuf m) hcmd he
  · rw [hok] at hrule
    exact exec_ok (s := s.withPbuf m) hcmd he hrule
  · rw [hraise] at hrule
    exact exec_raise (s := s.withPbuf m) hcmd he hrule

end Sys2Proof.Machine

/-! PROOF. An encoded text (O24): ENCODE_SYMBOL appends a code of each symbol in turn, and on a block that meets the
invariant each is the code of the symbol's only leaf. -/

namespace Sys2Proof.Machine

/-! ## The stream of a text (44_codec.md R182) -/

/-- The symbol v has the code c on this block: CODES_VALID = 1, and c is the code of the leaf found for v. -/
def State.Encodes (s : State) (v : Word) (c : Code) : Prop :=
  s.status.codesValid = true ∧ ∃ k, s.leafOf v = some k ∧ s.codeAt k = c

/-- `t` holds the stream of `s`: the same PBUF, with the same unwritten bytes, and the same BITLEN. -/
structure SameStream (s t : State) : Prop where
  pbuf : t.pbuf = s.pbuf
  bitlen : t.bitlen = s.bitlen
  epoch : t.env.epoch = s.env.epoch

section

variable {s t : State}

theorem SameStream.readByte (h : SameStream s t) (i : Nat) : t.readByte i = s.readByte i :=
  State.readByte_congr h.pbuf h.epoch i

theorem SameStream.streamBit (h : SameStream s t) (p : Nat) : t.streamBit p = s.streamBit p := by
  rw [State.streamBit, h.readByte, State.streamBit]

theorem SameStream.streamAppendAll (h : SameStream s t) (l : List Bool) :
    SameStream (s.streamAppendAll l) (t.streamAppendAll l) := by
  induction l generalizing s t with
  | nil => exact h
  | cons b l ih =>
    refine ih ⟨?_, congrArg (· + 1) h.bitlen, h.epoch⟩
    rw [State.streamAppend_eq, State.streamAppend_eq, h.pbuf, h.bitlen, h.readByte]

theorem SameStream.trans {u : State} (h : SameStream s t) (h' : SameStream t u) : SameStream s u :=
  ⟨h'.pbuf.trans h.pbuf, h'.bitlen.trans h.bitlen, h'.epoch.trans h.epoch⟩

theorem State.streamAppendAll_append (s : State) (l l' : List Bool) :
    s.streamAppendAll (l ++ l') = (s.streamAppendAll l).streamAppendAll l' := List.foldl_append

/-- A command but RESET that leaves ERR = 0 has succeeded. -/
theorem exec_success {i : Instr} (hi : i ≠ .reset) (h : exec i s = .next t) (ht : t.status.err = false) :
    ∃ u r0 r1 r2, ruleOf i s = .ok u r0 r1 r2 ∧ t = u.succeeded r0 r1 r2 := by
  obtain ⟨he, rfl⟩ | ⟨-, hok⟩ | ⟨-, e, i0, i1, -, rfl⟩ := exec_cases hi h
  · exact absurd (he.symm.trans ht) (by decide)
  · exact hok
  · cases ht

/-- A success of ENCODE_SYMBOL appends a code of the symbol, and the block has the codes it had. -/
theorem exec_encodeSymbol_success {v : Word} (h : exec .encodeSymbol { s with arg0 := v } = .next t)
    (ht : t.status.err = false) :
    ∃ c, s.Encodes v c ∧ SameStream (s.streamAppendAll c) t ∧ t.Encodes = s.Encodes := by
  obtain ⟨u, r0, r1, r2, hok, rfl⟩ := exec_success (i := .encodeSymbol) nofun h ht
  obtain ⟨hvalid, k, hleaf, rfl⟩ := encodeSymbolRule_ok hok
  have hstream : SameStream s { s with arg0 := v } := ⟨rfl, rfl, rfl⟩
  have hsame := hstream.streamAppendAll (s.codeAt k)
  refine ⟨s.codeAt k, ⟨hvalid, k, hleaf, rfl⟩, ⟨hsame.pbuf, hsame.bitlen, hsame.epoch⟩, ?_⟩
  rw [State.streamAppendAll_frame]
  rfl

/-- A text that is encoded has begun with a symbol that ENCODE_SYMBOL encoded. -/
theorem encodeText_cons {v : Word} {text : List Word} (h : encodeText (v :: text) s = some t) :
    ∃ u, exec .encodeSymbol { s with arg0 := v } = .next u ∧ u.status.err = false ∧
      encodeText text u = some t := by
  rw [encodeText] at h
  split at h
  · rename_i u hu
    cases he : u.status.err with
    | false => exact ⟨u, hu, he, by simpa [he] using h⟩
    | true => simp [he] at h
  · cases h

/-- Encoding a text appends a code of each of its symbols in turn. -/
theorem encodeText_appends {text : List Word} (h : encodeText text s = some t) :
    ∃ codes : List Code, List.Forall₂ s.Encodes text codes ∧ SameStream (s.streamAppendAll codes.flatten) t := by
  induction text generalizing s with
  | nil =>
    cases h
    exact ⟨[], .nil, rfl, rfl, rfl⟩
  | cons v text ih =>
    obtain ⟨u, hu, he, htext⟩ := encodeText_cons h
    obtain ⟨c, hc, hstream, hcodes⟩ := exec_encodeSymbol_success hu he
    obtain ⟨codes, hall, hrest⟩ := ih htext
    refine ⟨c :: codes, .cons hc (hcodes ▸ hall), ?_⟩
    rw [List.flatten_cons, State.streamAppendAll_append]
    exact (hstream.streamAppendAll _).trans hrest

/-- Encoding a text into an empty stream leaves the concatenation of its codes, and no padding. -/
theorem encodeText_of_empty {text : List Word} (hempty : s.bitlen = 0) (h : encodeText text s = some t) :
    ∃ codes : List Code, List.Forall₂ s.Encodes text codes ∧
      t.bitlen = codes.flatten.length ∧ t.StreamHas 0 codes.flatten ∧ t.PaddingZero := by
  obtain ⟨codes, hall, hstream⟩ := encodeText_appends h
  obtain ⟨-, hbits, -⟩ := appended_streamAppendAll s codes.flatten
  rw [hempty] at hbits
  have hpad : s.PaddingZero := State.paddingZero_of_aligned (by rw [hempty])
  refine ⟨codes, hall, ?_, fun j hj => (hstream.streamBit _).trans (hbits j hj),
    (hpad.streamAppendAll _).congr hstream.pbuf hstream.bitlen hstream.epoch⟩
  rw [hstream.bitlen, State.streamAppendAll_bitlen, hempty, Nat.zero_add]

end

/-! ## The leaf of a symbol (44_codec.md R180) -/

/-- A leaf of the arena is an entry of the sorted table. -/
theorem buildArena_getElem? {ft : List FreqEntry} {k : Nat} (hk : k < ft.length) :
    (buildArena ft)[k]? = ((sortBySym ft)[k]?).map fun e => .leaf e.sym e.count := by
  rw [← List.getElem?_take_of_lt hk, take_buildArena, leavesOf, List.getElem?_map]

theorem zext32_sym_injective {a b : Sym} (h : zext32 a = zext32 b) : a = b := by
  have hnat := congrArg BitVec.toNat h
  simp only [BitVec.toNat_setWidth] at hnat
  exact BitVec.eq_of_toNat_eq (by omega)

/-- No two leaves of the arena of a table with unique symbols hold the same symbol. -/
theorem leaf_unique {ft : List FreqEntry} (huniq : UniqueSymbols ft) {j k : Nat} {sym : Sym} {f g : Word}
    (hj : j < ft.length) (hk : k < ft.length) (hjleaf : (buildArena ft)[j]? = some (.leaf sym f))
    (hkleaf : (buildArena ft)[k]? = some (.leaf sym g)) : j = k := by
  have hsym {i : Nat} {h : Word} (hi : i < ft.length) (hleaf : (buildArena ft)[i]? = some (.leaf sym h)) :
      ((sortBySym ft).map fun e => e.sym)[i]? = some sym := by
    rw [buildArena_getElem? hi] at hleaf
    obtain ⟨e, he, hnode⟩ := Option.map_eq_some_iff.mp hleaf
    cases hnode
    rw [List.getElem?_map, he]
    rfl
  have hnodup : ((sortBySym ft).map fun e => e.sym).Nodup := ((sortBySym_perm ft).map _).nodup_iff.mpr huniq
  refine (List.getElem?_inj ?_ hnodup).mp ((hsym hj hjleaf).trans (hsym hk hkleaf).symm)
  rwa [List.length_map, (sortBySym_perm ft).length_eq]

/-- On the tree of a table with unique symbols, the leaf that `LeafOf` finds is the only leaf of the symbol. -/
theorem leafFor_of_leafOf {s : State} {v : Word} {k : Nat} (huniq : UniqueSymbols s.ft)
    (hnodes : s.nodes = buildArena s.ft) (h : s.leafOf v = some k) : s.LeafFor v k := by
  obtain ⟨hlen, hholds, -⟩ := List.findIdx?_eq_some_iff_getElem.mp h
  rw [List.length_take] at hlen
  have hk : k < s.ft.length := by omega
  rw [List.getElem_take] at hholds
  obtain ⟨sym, f, hleaf⟩ := buildArena_getElem?_leaf hk
  rw [← hnodes] at hleaf
  obtain ⟨_, hnode⟩ := List.getElem?_eq_some_iff.mp hleaf
  have hv : zext32 sym = v := by simpa [hnode, Node.holds] using hholds
  refine ⟨hk, ⟨sym, f, hleaf, hv⟩, fun j sym' g hj hleaf' hv' => ?_⟩
  obtain rfl := zext32_sym_injective (hv'.trans hv.symm)
  rw [hnodes] at hleaf hleaf'
  exact leaf_unique huniq hj hk hleaf' hleaf

/-- While CODES_VALID = 1 the codes are those of the tree of the table, which is not empty. -/
theorem State.Inv.codes_of_valid {s : State} (hinv : s.Inv) (hvalid : s.status.codesValid = true) :
    s.ft ≠ [] ∧ s.nodes = buildArena s.ft ∧ s.codes = deriveCodes (buildArena s.ft) s.ft.length := by
  obtain ⟨htree, hcodes⟩ := hinv.codes hvalid
  obtain ⟨hne, hnodes⟩ := hinv.tree.1 htree
  exact ⟨hne, hnodes, hnodes ▸ hcodes⟩

/-- On a block that meets the invariant, a code that ENCODE_SYMBOL appends is the code of the symbol's only leaf. -/
theorem State.Encodes.leafFor {s : State} {v : Word} {c : Code} (h : s.Encodes v c) (hinv : s.Inv) :
    ∃ k, s.LeafFor v k ∧ s.codes[k]? = some c := by
  obtain ⟨hvalid, k, hleaf, rfl⟩ := h
  obtain ⟨hne, hnodes, hcodes⟩ := hinv.codes_of_valid hvalid
  obtain ⟨-, huniq, -⟩ := hinv.table
  have hfor := leafFor_of_leafOf huniq hnodes hleaf
  have hk : k < s.codes.length := by
    rw [hcodes, length_deriveCodes hne]
    exact hfor.1
  exact ⟨k, hfor, by rw [State.codeAt, List.getElem?_eq_getElem hk, Option.getD_some]⟩

/-- Settles O24: the codes appended are those of the symbols' leaves. -/
theorem encodedTextIsCodeConcatenation : Obligations.EncodedTextIsCodeConcatenation := by
  intro s t text hinv _ hempty h
  obtain ⟨codes, hall, hstream⟩ := encodeText_of_empty hempty h
  exact ⟨codes, hall.imp fun v c hc => hc.leafFor hinv, hstream⟩

end Sys2Proof.Machine

/-! PROOF. The round trip (O25): DECODE_SYMBOL gives the symbol whose code the stream holds at RDPTR, so the decoding
loop gives the text. -/

namespace Sys2Proof.Machine

/-! ## The codes of a tree (43_codes.md R161) -/

/-- c is the code of the symbol v in an arena: "0" if the root is a leaf, else the path to a leaf (43_codes.md R161). -/
inductive TreeCode (nodes : List Node) : Word → Code → Prop where
  | single {sym : Sym} {f : Word} (hroot : nodes[nodes.length - 1]? = some (.leaf sym f)) :
      TreeCode nodes (zext32 sym) [false]
  | path {k : Nat} {c : Code} {sym : Sym} {f : Word} (hc : c ≠ []) (hpath : IsPath nodes (nodes.length - 1) k c)
      (hleaf : nodes[k]? = some (.leaf sym f)) : TreeCode nodes (zext32 sym) c

/-- On a block that meets the invariant, ENCODE_SYMBOL appends codes of the table's tree. -/
theorem State.Encodes.treeCode {s : State} {v : Word} {c : Code} (h : s.Encodes v c) (hinv : s.Inv) :
    TreeCode (buildArena s.ft) v c := by
  obtain ⟨hne, hnodes, hcodes⟩ := hinv.codes_of_valid h.1
  obtain ⟨k, ⟨hk, ⟨sym, f, hleaf, rfl⟩, -⟩, hcode⟩ := h.leafFor hinv
  rw [hnodes] at hleaf
  rw [hcodes] at hcode
  by_cases hone : (buildArena s.ft).length = 1
  · rw [deriveCodes, if_pos hone] at hcode
    obtain ⟨hlt, rfl⟩ := List.getElem?_eq_some_iff.mp hcode
    obtain rfl : k = 0 := by simpa using hlt
    exact .single (by rwa [hone])
  · rw [deriveCodes, if_neg hone, List.getElem?_map, List.getElem?_range hk] at hcode
    cases hcode
    obtain ⟨hpos, -⟩ := length_pathCode_bounds hne hk hone
    exact .path (List.length_pos_iff.mp hpos) (isPath_pathCode hne hk) hleaf

/-! ## The decoding loop (44_codec.md R186) -/

section

variable {s t : State}

theorem State.streamHas_append {p : Nat} {c d : Code} (h : s.StreamHas p (c ++ d)) :
    s.StreamHas p c ∧ s.StreamHas (p + c.length) d := by
  refine ⟨fun j hj => ?_, fun j hj => ?_⟩
  · rw [h j (by rw [List.length_append]; omega), List.getElem_append_left hj]
  · rw [Nat.add_assoc, h (c.length + j) (by rw [List.length_append]; omega)]
    simp

/-- DECODE_SYMBOL on a stream with a symbol's code at RDPTR: the symbol, and RDPTR past the code. -/
theorem exec_decodeSymbol_code {v : Word} {c : Code} (he : s.status.err = false) (hvalid : s.status.treeValid = true)
    (hcode : TreeCode s.nodes v c) (hend : s.rdptr + c.length ≤ s.bitlen) (hbits : s.StreamHas s.rdptr c) :
    exec .decodeSymbol s =
      .next (State.succeeded { s with rdptr := s.rdptr + c.length } v (word c.length) 0#32) := by
  obtain ⟨-, -, hleaf, -, hpath, -⟩ := decodeSymbolWalksTree.2 s he
  cases hcode with
  | single hroot => exact hleaf _ _ hvalid hend hroot (hbits 0 (by decide))
  | path hc hp hl => exact hpath _ _ _ _ hvalid hc hend hp hl hbits

/-- RES2 = 1 ends the decoding loop. -/
theorem decodeText_eos (rounds : Nat) (h : exec .decodeSymbol s = .next t) (ht : t.status.err = false)
    (hres : t.res2 = 1#32) : decodeText (rounds + 1) s = some ([], t) := by
  simp [decodeText, h, ht, hres]

/-- RES2 = 0 gives a symbol, and the decoding loop goes on. -/
theorem decodeText_symbol (rounds : Nat) (h : exec .decodeSymbol s = .next t) (ht : t.status.err = false)
    (hres : t.res2 = 0#32) :
    decodeText (rounds + 1) s = (decodeText rounds t).map fun r => (t.res0 :: r.1, r.2) := by
  simp [decodeText, h, ht, hres]

/-- The decoding loop, on a stream that holds the codes of a text from RDPTR to its end, gives the text and ends
there. -/
theorem decodeText_codes {text : List Word} {codes : List Code} {nodes : List Node}
    (hall : List.Forall₂ (TreeCode nodes) text codes) : ∀ {s : State} {rounds : Nat},
    s.nodes = nodes → s.status.err = false → s.status.treeValid = true →
    s.rdptr + codes.flatten.length = s.bitlen → s.StreamHas s.rdptr codes.flatten → text.length < rounds →
    ∃ t, decodeText rounds s = some (text, t) ∧ t.rdptr = s.bitlen ∧ t.res0 = 0#32 := by
  induction hall with
  | nil =>
    intro s rounds _ he hvalid hend _ hrounds
    obtain ⟨rounds, rfl⟩ := Nat.exists_eq_add_of_lt hrounds
    have hexec := exec_ok (i := .decodeSymbol) nofun he (decodeSymbolRule_eos hvalid hend.ge)
    exact ⟨_, decodeText_eos _ hexec he rfl, hend, rfl⟩
  | @cons v c text codes hcode _ ih =>
    intro s rounds hnodes he hvalid hend hbits hrounds
    obtain ⟨rounds, rfl⟩ : ∃ n, rounds = n + 1 := ⟨rounds - 1, by omega⟩
    rw [List.flatten_cons] at hend hbits
    rw [List.length_append] at hend
    obtain ⟨hfirst, hrest⟩ := State.streamHas_append hbits
    have hexec := exec_decodeSymbol_code he hvalid (hnodes ▸ hcode) (by omega) hfirst
    obtain ⟨t, ht, hlast⟩ := ih
      (s := State.succeeded { s with rdptr := s.rdptr + c.length } v (word c.length) 0#32)
      hnodes he hvalid ((Nat.add_assoc _ _ _).trans hend) hrest (Nat.lt_of_succ_lt_succ hrounds)
    refine ⟨t, ?_, hlast⟩
    rw [decodeText_symbol _ hexec he rfl, ht]
    rfl

end

/-- Settles O25: the arena does not depend on the order of the entries, so the codes of the text on the one block are
the codes of the text on the other. -/
theorem decodeOfEncodedTextIsText : Obligations.DecodeOfEncodedTextIsText := by
  intro s t u text rounds hs _ hempty h hu he hvalid hperm hbitlen hrdptr hsame hrounds
  obtain ⟨codes, hall, hlen, hbits, -⟩ := encodeText_of_empty hempty h
  obtain ⟨-, hnodes⟩ := hu.tree.1 hvalid
  obtain ⟨-, huniq, -⟩ := hu.table
  obtain ⟨harena, -⟩ := arenaIgnoresInsertionOrder u.ft s.ft huniq hperm
  have hcodes : List.Forall₂ (TreeCode (buildArena s.ft)) text codes := hall.imp fun v c hc => hc.treeCode hs
  have hstream : u.StreamHas u.rdptr codes.flatten := by
    rw [hrdptr]
    exact fun j hj => (hsame _ (by omega)).trans (hbits j hj)
  rw [← hbitlen]
  exact decodeText_codes hcodes (hnodes.trans harena) he hvalid (by omega) hstream hrounds

end Sys2Proof.Machine

/-! PROOF. The bit packer and unpacker (O26 to O30, O32): what each rule answers, case by case, and the stream of a
sequence of PUT_BITS commands. -/

namespace Sys2Proof.Machine

/-! ## STREAM_RESET and SEEK_RD (45_bitpack.md R200, R204) -/

/-- Settles O26: STREAM_RESET makes no check. -/
theorem streamResetEmptiesStream : Obligations.StreamResetEmptiesStream :=
  ⟨rfl, fun _ he => exec_ok (i := .streamReset) nofun he rfl⟩

/-- Settles O30: the rule's one check compares the operand with BITLEN. -/
theorem seekRdMovesReadPointer : Obligations.SeekRdMovesReadPointer := by
  have hcmd : Instr.seekRd ≠ .reset := nofun
  refine ⟨rfl, fun s he => ⟨fun hpast => ?_, fun hr => ?_⟩⟩
  · exact exec_raise (e := .badLength) hcmd he (if_pos hpast)
  · exact exec_ok hcmd he (if_neg (Nat.not_lt.mpr hr))

/-! ## PUT_BITS (45_bitpack.md R201) -/

@[simp] theorem length_lowBits (v : Word) (n : Nat) : (lowBits v n).length = n := by simp [lowBits]

theorem getElem_lowBits {v : Word} {n j : Nat} (hj : j < (lowBits v n).length) :
    (lowBits v n)[j] = v.getLsbD (n - 1 - j) := by simp [lowBits]

section

variable {s t : State}

/-- PUT_BITS's rule with both checks passed: the append. -/
theorem putBitsRule_fits (hn : s.arg1.toNat ≤ 32) (hfits : s.bitlen + s.arg1.toNat ≤ s.cfg.capBits) :
    putBitsRule s = .ok (s.streamAppendAll (lowBits s.arg0 s.arg1.toNat)) (word (s.bitlen + s.arg1.toNat))
      0#32 0#32 := by
  simp only [putBitsRule, if_neg (Nat.not_lt.mpr hn), if_neg (Nat.not_lt.mpr hfits), State.streamAppendAll_bitlen,
    length_lowBits]

/-- A success of PUT_BITS's rule has appended the low bits of ARG0. -/
theorem putBitsRule_ok {r0 r1 r2 : Word} (h : putBitsRule s = .ok t r0 r1 r2) :
    t = s.streamAppendAll (lowBits s.arg0 s.arg1.toNat) := by
  simp only [putBitsRule] at h
  split at h
  · cases h
  · split at h
    · cases h
    · cases h
      rfl

end

/-- Settles O27: each clause decides the rule's two checks in order; a success appends the low bits of ARG0. -/
theorem putBitsAppendsLowBits : Obligations.PutBitsAppendsLowBits := by
  have hcmd : Instr.putBits ≠ .reset := nofun
  refine ⟨rfl, fun s he => ⟨fun hlong => ?_, fun hn hfull => ?_, fun hn hfits => ?_⟩⟩
  · exact exec_raise (e := .badLength) hcmd he (if_pos hlong)
  · exact exec_raise (e := .bufferOverflow) hcmd he ((if_neg (Nat.not_lt.mpr hn)).trans (if_pos hfull))
  · have hexec := exec_ok hcmd he (putBitsRule_fits hn hfits)
    rw [State.streamAppendAll_frame, length_lowBits] at hexec
    exact ⟨_, lowBits s.arg0 s.arg1.toNat, length_lowBits _ _, fun _ => getElem_lowBits,
      appended_withPbuf_streamAppendAll s _, hexec⟩

/-! ## GET_BITS (45_bitpack.md R202) -/

theorem State.length_streamBits (s : State) (p n : Nat) : (s.streamBits p n).length = n := by simp [State.streamBits]

/-- Bit k of n ≤ 32 stream bits read as a word: the first of them is the most significant (45_bitpack.md R202). -/
theorem State.getLsbD_word_streamBits (s : State) (p : Nat) {n : Nat} (hn : n ≤ 32) (k : Nat) :
    (word (bitsToNat (s.streamBits p n))).getLsbD k = (decide (k < n) && s.streamBit (p + (n - 1 - k))) := by
  rw [getLsbD_word_bitsToNat _ (by rwa [State.length_streamBits]), State.length_streamBits]
  by_cases hk : k < n
  · have hlt : n - 1 - k < n := by omega
    simp [hk, hlt, State.streamBits]
  · simp [hk]

/-- Settles O28: each clause decides the rule's two checks in order; the bits read are the word's, the first one
most significant. -/
theorem getBitsReadsStream : Obligations.GetBitsReadsStream := by
  have hcmd : Instr.getBits ≠ .reset := nofun
  refine ⟨rfl, fun s he => ⟨fun hlong => ?_, fun hn hpast => ?_, fun hn hin =>
    ⟨word (bitsToNat (s.streamBits s.rdptr s.arg1.toNat)), fun j hj => ?_, fun j hj => ?_, ?_⟩⟩⟩
  · exact exec_raise (e := .badLength) hcmd he (if_pos hlong)
  · exact exec_raise (e := .readPastEnd) hcmd he ((if_neg (Nat.not_lt.mpr hn)).trans (if_pos hpast))
  · have hk : s.arg1.toNat - 1 - j < s.arg1.toNat := by omega
    have hback : s.arg1.toNat - 1 - (s.arg1.toNat - 1 - j) = j := by omega
    rw [s.getLsbD_word_streamBits _ hn, decide_eq_true hk, Bool.true_and, hback]
  · rw [s.getLsbD_word_streamBits _ hn, decide_eq_false (Nat.not_lt.mpr hj), Bool.false_and]
  · exact exec_ok hcmd he ((if_neg (Nat.not_lt.mpr hn)).trans (if_neg (Nat.not_lt.mpr hin)))

/-! ## SET_BITLEN (45_bitpack.md R203) -/

/-- PBUF with the padding bits of a stream of n bits zeroed, which SET_BITLEN leaves (`setBitlenRule_fits`). -/
def State.zeroPaddedPbuf (s : State) (n : Nat) : Memory :=
  if n % 8 = 0 then s.pbuf else Memory.store s.pbuf (n / 8) (zeroPadding (s.readByte (n / 8)) n)

section

variable (s : State) {n : Nat}

theorem State.zeroPaddedPbuf_aligned (h : n % 8 = 0) : s.zeroPaddedPbuf n = s.pbuf := if_pos h

theorem State.zeroPaddedPbuf_partial (h : n % 8 ≠ 0) :
    s.withPbuf (s.zeroPaddedPbuf n) = s.writeByte (n / 8) (zeroPadding (s.readByte (n / 8)) n) := by
  rw [State.zeroPaddedPbuf, if_neg h]
  rfl

/-- Zeroing the padding changes no byte but the last partial one. -/
theorem State.readByte_zeroPaddedPbuf_other {i : Nat} (hi : i ≠ n / 8) :
    (s.withPbuf (s.zeroPaddedPbuf n)).readByte i = s.readByte i := by
  by_cases h8 : n % 8 = 0
  · rw [s.zeroPaddedPbuf_aligned h8]
    rfl
  · rw [s.zeroPaddedPbuf_partial h8, s.readByte_writeByte_other _ hi]

/-- Zeroing the padding of a stream of n bits changes none of the n bits. -/
theorem State.streamBit_zeroPaddedPbuf {p : Nat} (hp : p < n) :
    (s.withPbuf (s.zeroPaddedPbuf n)).streamBit p = s.streamBit p := by
  unfold State.streamBit
  by_cases hbyte : p / 8 = n / 8
  · have h8 : n % 8 ≠ 0 := by omega
    have hkept : 8 - n % 8 ≤ 7 - p % 8 := by omega
    rw [s.zeroPaddedPbuf_partial h8, hbyte, s.readByte_writeByte_same, getLsbD_zeroPadding, decide_eq_true hkept,
      Bool.true_and]
  · rw [s.readByte_zeroPaddedPbuf_other hbyte]

/-- SET_BITLEN's rule with its check passed. -/
theorem setBitlenRule_fits (h : s.arg0.toNat ≤ s.cfg.capBits) :
    setBitlenRule s =
      .ok { s with pbuf := s.zeroPaddedPbuf s.arg0.toNat, bitlen := s.arg0.toNat, rdptr := 0 } s.arg0
        (word ((s.arg0.toNat + 7) / 8)) 0#32 := by
  simp only [setBitlenRule, if_neg (Nat.not_lt.mpr h)]
  by_cases h8 : s.arg0.toNat % 8 = 0
  · rw [if_pos h8, s.zeroPaddedPbuf_aligned h8]
  · rw [if_neg h8, ← s.zeroPaddedPbuf_partial h8]
    rfl

end

/-- Settles O29: the rule's one check compares the operand with CAP_BITS; a success zeroes the padding of the stream of
that length. -/
theorem setBitlenZeroesPadding : Obligations.SetBitlenZeroesPadding := by
  have hcmd : Instr.setBitlen ≠ .reset := nofun
  refine ⟨rfl, fun s he => ⟨fun hlong => ?_, fun hn => ?_⟩⟩
  · exact exec_raise (e := .badLength) hcmd he (if_pos hlong)
  · have hrule := setBitlenRule_fits s hn
    exact ⟨s.zeroPaddedPbuf s.arg0.toNat, paddingZero_of_setBitlenRule hrule, fun _ => s.streamBit_zeroPaddedPbuf,
      fun _ => s.readByte_zeroPaddedPbuf_other, s.zeroPaddedPbuf_aligned, exec_ok hcmd he hrule⟩

/-! ## A sequence of PUT_BITS commands (45_bitpack.md R205) -/

section

variable {s t : State}

/-- A success of PUT_BITS appends the low bits of its operand. -/
theorem exec_putBits_success {v n : Word} (h : exec .putBits { s with arg0 := v, arg1 := n } = .next t)
    (ht : t.status.err = false) : SameStream (s.streamAppendAll (lowBits v n.toNat)) t := by
  obtain ⟨u, r0, r1, r2, hok, rfl⟩ := exec_success (i := .putBits) nofun h ht
  obtain rfl := putBitsRule_ok hok
  have hstream : SameStream s { s with arg0 := v, arg1 := n } := ⟨rfl, rfl, rfl⟩
  exact (hstream.streamAppendAll _).trans ⟨rfl, rfl, rfl⟩

/-- Chunks that are all put have begun with a PUT_BITS that succeeded. -/
theorem putChunks_cons {v n : Word} {chunks : List (Word × Word)} (h : putChunks ((v, n) :: chunks) s = some t) :
    ∃ u, exec .putBits { s with arg0 := v, arg1 := n } = .next u ∧ u.status.err = false ∧
      putChunks chunks u = some t := by
  rw [putChunks] at h
  split at h
  · rename_i u hu
    cases he : u.status.err with
    | false => exact ⟨u, hu, he, by simpa [he] using h⟩
    | true => simp [he] at h
  · cases h

theorem chunkBits_cons (v n : Word) (chunks : List (Word × Word)) :
    chunkBits ((v, n) :: chunks) = lowBits v n.toNat ++ chunkBits chunks := rfl

/-- PUT_BITS commands append the bits of their chunks, one after the other. -/
theorem putChunks_appends {chunks : List (Word × Word)} (h : putChunks chunks s = some t) :
    SameStream (s.streamAppendAll (chunkBits chunks)) t := by
  induction chunks generalizing s with
  | nil =>
    cases h
    exact ⟨rfl, rfl, rfl⟩
  | cons c chunks ih =>
    obtain ⟨v, n⟩ := c
    obtain ⟨u, hu, he, hrest⟩ := putChunks_cons h
    rw [chunkBits_cons, State.streamAppendAll_append]
    exact ((exec_putBits_success hu he).streamAppendAll _).trans (ih hrest)

/-- Bits appended to an empty stream are the whole stream, and its padding is 0 (20_memory.md R66, R67). -/
theorem SameStream.packed_of_empty {l : List Bool} (hempty : s.bitlen = 0) (h : SameStream (s.streamAppendAll l) t) :
    t.bitlen = l.length ∧ t.StreamHas 0 l ∧ t.PaddingZero := by
  obtain ⟨-, hbits, -⟩ := appended_streamAppendAll s l
  rw [hempty] at hbits
  have hpad : s.PaddingZero := State.paddingZero_of_aligned (by rw [hempty])
  refine ⟨?_, fun j hj => (h.streamBit _).trans (hbits j hj),
    (hpad.streamAppendAll l).congr h.pbuf h.bitlen h.epoch⟩
  rw [h.bitlen, State.streamAppendAll_bitlen, hempty, Nat.zero_add]

end

/-- Settles O32: STREAM_RESET leaves an empty stream, and the PUT_BITS commands append their bits to it. -/
theorem putBitsSequencePacksItsBits : Obligations.PutBitsSequencePacksItsBits := by
  intro s s0 t chunks he hreset hput
  rw [streamResetEmptiesStream.2 s he] at hreset
  cases hreset
  exact (putChunks_appends hput).packed_of_empty rfl

end Sys2Proof.Machine

/-! PROOF. The error state and its clearing (O4, O34, O36), and the interrupt at the end of a command (O40). -/

namespace Sys2Proof.Machine

/-! ## Rejection and failure (60_exceptions.md R223, R224) -/

/-- While ERR = 1 the engine step of every word but RESET's is a rejection (60_exceptions.md R224). -/
theorem performWord_rejected {w : Word} {s : State} (hw : w ≠ encode .reset) (he : s.status.err = true) :
    performWord w s = .next s.rejected := by
  obtain ⟨t, ht⟩ := performWord_total w s
  obtain ⟨hreset, -⟩ | ⟨-, rfl⟩ | ⟨herr, -⟩ | ⟨herr, -⟩ := performWord_effects ht
  · exact absurd hreset hw
  · exact ht
  · exact absurd he (by simp [herr])
  · exact absurd he (by simp [herr])

/-- Settles O4: only RESET's word escapes the rejection, and it is performed as RESET. -/
theorem errorStateRejectsAllButReset : Obligations.ErrorStateRejectsAllButReset := by
  intro s he
  exact ⟨fun w hw => performWord_rejected hw he,
    _, performWord_ok (decode_encode .reset) s, exec_reset s, rfl⟩

/-- OP of a command's word is the command's opcode (30_encoding.md R90). -/
@[simp] theorem opField_encode (i : Instr) : opField (encode i) = i.opcode := BitVec.extractLsb'_append_eq_right

/-- A success of any rule leaves ERR as it was. -/
theorem SameOutside.err {s t : State} (h : SameOutside s t) : t.status.err = s.status.err := by rw [h]

/-- Settles O34: an illegal word fails, RESET and a success end with ERR = 0, and a failed command captures its own
opcode. -/
theorem failedCommandIsPrecise : Obligations.FailedCommandIsPrecise := by
  intro w s t he h ht
  cases hd : decode w with
  | error e =>
    rw [performWord_error hd, execIllegal_eq, he] at h
    cases h
    exact ⟨0x10#8, by decide, w, 0#32, rfl⟩
  | ok i =>
    obtain rfl := eq_encode_of_decode hd
    rw [performWord_ok hd] at h
    by_cases hi : i = .reset
    · subst hi
      cases h
      cases ht
    · obtain ⟨herr, -⟩ | ⟨-, u, r0, r1, r2, -, hsame, rfl⟩ | ⟨-, code, hcode, i0, i1, rfl⟩ := exec_effects hi h
      · exact absurd herr (by simp [he])
      · exact absurd (hsame.err.symm.trans ht) (by simp [he])
      · exact ⟨code, hcode, i0, i1, congrArg (s.failed · code i0 i1) (opField_encode i).symm⟩

/-! ## The interrupt (60_exceptions.md R230) -/

/-- While DONE = 1 the enable IE_DONE alone asserts IRQ, and IE_ERR does with ERR. -/
theorem State.irq_iff_of_done {s : State} (h : s.status.done = true) :
    s.irq = true ↔ s.ctrl.ieDone = true ∨ (s.ctrl.ieErr = true ∧ s.status.err = true) := by
  simp [State.irq, h]

/-- Every end of a command sets DONE (10_state.md R40). -/
theorem exec_done {i : Instr} {s t : State} (h : exec i s = .next t) : t.status.done = true := by
  obtain ⟨u, hu, -, hdone⟩ := everyCommandEndsNotBusyAndDone (encode i) s
  rw [performWord_ok (decode_encode i), h] at hu
  cases hu
  exact hdone

/-- Settles O40: every end sets DONE, and every command but RESET keeps CTRL; RESET clears both enables. -/
theorem commandEndRaisesIrq : Obligations.CommandEndRaisesIrq := by
  refine fun i s t h => ⟨fun hi => ?_, ?_⟩
  · obtain ⟨-, -, -, hkeeps⟩ := commandsKeepOperandsAndControl i s t h
    obtain ⟨-, -, hctrl, -⟩ := hkeeps hi
    rw [← hctrl]
    exact State.irq_iff_of_done (exec_done h)
  · rintro rfl
    cases h
    rfl

/-! ## Error clear (60_exceptions.md R226) -/

/-- Settles O36: a write of STATUS with bit 2 set clears the error registers, and both resets have them 0. -/
theorem errorClearWrite : Obligations.ErrorClearWrite := by
  refine ⟨fun s l v hb hr hv => ?_, ?_⟩
  · refine (step_writeReg_idle l .status v hb hr).trans (congrArg Host.Outcome.next ?_)
    rw [State.writeReg, State.writeStatus, if_pos hv]
    rfl
  · rintro s t (h | h) <;> (cases h; exact ⟨rfl, rfl, rfl, rfl⟩)

end Sys2Proof.Machine

/-! PROOF. The hardware reset (O55 to O57), and the completion of a pending command (O60). -/

namespace Sys2Proof.Machine

/-! ## The reset state (70_reset_and_hazards.md R250) -/

/-- A byte of PBUF that nothing has written since the hardware reset is the free value of its reset epoch. -/
theorem State.readByte_of_pbuf_nil {s : State} (h : s.pbuf = []) (i : Nat) :
    s.readByte i = Config.pbufByte s.env.epoch i := by
  rw [State.readByte, h, Memory.byteAt, Option.getD_none]

/-- Settles O55: each register of the map reads its constant, and PBUF is not written. -/
theorem resetStateReadsResetValues : Obligations.ResetStateReadsResetValues := by
  refine ⟨rfl, rfl, fun r => ?_, fun i => State.readByte_of_pbuf_nil rfl i⟩
  cases r <;> rfl

/-- Settles O57: the reset state has the reference configuration and an empty PBUF. -/
theorem invariantHoldsAtReset : Obligations.InvariantHoldsAtReset :=
  .of_atReset (m := []) (by decide) ⟨List.Pairwise.nil, nofun⟩

/-! ## The hardware reset (70_reset_and_hazards.md R251) -/

/-- While the reset is held, no host access has a step. -/
theorem step_access_duringReset {t : State} (h : t.resetHeld = true) (off width : Nat) (v : Word) (l : List Input) :
    step (t.withInputs (.read off width :: l)) = .fault .accessDuringReset ∧
    step (t.withInputs (.write off width v :: l)) = .fault .accessDuringReset := by
  have stuck (effect : PortTarget → State) :
      hostAccess (t.withInputs l) off width effect = .fault .accessDuringReset := if_pos h
  exact ⟨stuck fun tgt => (t.withInputs l).hostRead tgt, stuck fun tgt => (t.withInputs l).hostWrite tgt v⟩

/-- Settles O56: the assertion leaves the reset state with the reset held, so that an access faults and the release has
its step. -/
theorem hardwareResetAbandonsCommand : Obligations.HardwareResetAbandonsCommand := fun s l =>
  ⟨(s.withInputs l).hardReset, rfl, rfl, State.readByte_of_pbuf_nil rfl, step_access_duringReset rfl, fun _ => rfl⟩

/-! ## A pending command is performed (70_reset_and_hazards.md R262) -/

/-- The inputs that come before the engine's turn leave a pending command pending and the reset released, and take
nothing more from the input list (20_memory.md R71). -/
theorem takeInput_waits {s t : State} {w : Word} {x : Input} (hengine : x ≠ .engine) (hassert : x ≠ .assertReset)
    (hp : s.pending = some w) (hr : s.resetHeld = false) (h : takeInput s x = .next t) :
    t.pending = some w ∧ t.resetHeld = false ∧ t.env.inputs = s.env.inputs := by
  cases x with
  | engine => exact absurd rfl hengine
  | assertReset => exact absurd rfl hassert
  | releaseReset =>
    cases h
    exact ⟨hp, rfl, rfl⟩
  | read off width =>
    obtain ⟨-, -, rfl⟩ := hostAccess_eq_next h
    rw [(s.hostRead_env _).1, State.hostRead_frame]
    exact ⟨hp, hr, rfl⟩
  | write off width v =>
    obtain ⟨-, -, rfl⟩ := hostAccess_eq_next (effect := fun tgt => s.hostWrite tgt v) h
    rw [State.hostWrite_busy _ v (by rw [State.busy, hp]; rfl)]
    exact ⟨hp, hr, rfl⟩

/-- The engine step of the pending word is the next step, whether its turn comes or the input list is empty. -/
theorem step_of_performsNext {s : State} {w : Word} (h : s.performsNext w) :
    ∃ l, step s = performWord w (s.withInputs l) := by
  obtain ⟨hp, hnil | ⟨l, hengine⟩⟩ := h
  · refine ⟨s.env.inputs, ?_⟩
    rw [step_nil hnil, engineTurn_pending hp]
    rfl
  · refine ⟨l, ?_⟩
    rw [step_cons hengine, takeInput, engineTurn_pending (s := s.withInputs l) hp]

/-- Within as many steps as there are inputs, the engine step of a pending word is the next one (logs 1, 3). -/
theorem steps_reach_performsNext {s : State} {w : Word} {l : List Input} (hl : s.env.inputs = l)
    (hp : s.pending = some w) (hr : s.resetHeld = false) (hadm : inputsAdmitted s.cfg s.resetHeld l = true)
    (hassert : .assertReset ∉ l) : ∃ k s', k ≤ l.length ∧ steps k s = .next s' ∧ s'.performsNext w := by
  induction l generalizing s with
  | nil => exact ⟨0, s, Nat.le_refl 0, rfl, hp, .inl hl⟩
  | cons x l ih =>
    by_cases hx : x = .engine
    · exact ⟨0, s, Nat.zero_le _, rfl, hp, .inr ⟨l, hx ▸ hl⟩⟩
    · obtain ⟨t, ht, hadm'⟩ := takeInput_admitted (s := s.withInputs l) hadm
      have hne : x ≠ .assertReset := (List.ne_of_not_mem_cons hassert).symm
      obtain ⟨hp', hr', hl'⟩ := takeInput_waits (s := s.withInputs l) hx hne hp hr ht
      rw [hl'] at hadm'
      obtain ⟨k, s', hk, hsteps, hnext⟩ := ih hl' hp' hr' hadm' (List.not_mem_of_not_mem_cons hassert)
      refine ⟨k + 1, s', Nat.succ_le_succ hk, ?_, hnext⟩
      rw [steps, step_cons hl, ht]
      exact hsteps

/-- Settles O60: the steps before the engine's are host accesses and releases of the reset, which leave the command
pending. -/
theorem pendingCommandIsPerformed : Obligations.PendingCommandIsPerformed := by
  intro s w hp hr hadm hassert
  obtain ⟨k, s', hk, hsteps, hnext⟩ := steps_reach_performsNext rfl hp hr (hr.symm ▸ hadm) hassert
  exact ⟨k, s', hk, hsteps, hnext.1, step_of_performsNext hnext⟩

end Sys2Proof.Machine
